-- ==== Sys2Proof/Word.lean ====
section
/-! DEFINITION. The words of the core: the 32-bit bus and command word, the 8-bit element
(codeword, character, field element), and the byte address of the host address space
(spec rules R15, R200). -/

namespace Sys2Proof

/-- A 32-bit bus word or command word (R200, R300). -/
abbrev Word := BitVec 32

/-- An 8-bit element: a codeword, a character code or an element of GF(256) (R15, R19). -/
abbrev Byte := BitVec 8

/-- A byte address of the host address space, ADDR_BITS = 20 bits wide (R12, R200). -/
abbrev Addr := BitVec 20

end Sys2Proof
end

