-- ==== Sys2Proof/Config.lean ====
section
/-! DEFINITION. The implementation parameters of rule R12, the identity constant of rule R103, and
the free values: what the spec calls a draw, "a value the spec leaves unspecified" (R19). A free
value has no body, so no proof can rest on what it is. -/

namespace Sys2Proof.Config

/-- N_SQUARE: square capacity entries, indices 0 to 23 (R12). -/
abbrev nSquare : Nat := 24

/-- N_RECT: rectangular capacity entries, indices 24 to 29 (R12). -/
abbrev nRect : Nat := 6

/-- N_ENTRIES: all capacity entries (R12). -/
abbrev nEntries : Nat := 30

/-- DATA_MAX: the largest data-codeword capacity of a square entry (R12). -/
abbrev dataMax : Nat := 1558

/-- RECT_DATA_MAX: the largest data-codeword capacity of a rectangular entry (R12). -/
abbrev rectDataMax : Nat := 49

/-- CW_DEPTH: elements of the codeword buffer (R12, R122). -/
abbrev cwDepth : Nat := 2178

/-- TXT_DEPTH: elements of the text buffer (R12, R120). -/
abbrev txtDepth : Nat := 3116

/-- E_MAX: the largest number of error codewords of one block (R12, R551). -/
abbrev eMax : Nat := 68

/-- GEN_DEPTH: elements of the generator-coefficient buffer (R12, R123). -/
abbrev genDepth : Nat := 69

/-- MAP_STRIDE: the row stride of the BM and ASG windows (R12, R203). -/
abbrev mapStride : Nat := 132

/-- Cells of BM and of ASG: MAP_STRIDE rows of MAP_STRIDE cells (R125, R126). -/
abbrev mapDepth : Nat := 17424

/-- The constant of register ID (R103). -/
abbrev idValue : Word := 0x42470001#32

/-- FREE VALUE: the draws of 8 bits (R452, R802), one for each number (log entry 2). -/
opaque freeByte : Nat → Byte

/-- FREE VALUE: the draws of 1 bit (R616, R802), one for each number. -/
opaque freeBit : Nat → BitVec 1

/-- FREE VALUE: the draws of 32 bits that a host read returns while BUSY = 1 (R215), one for each
number. -/
opaque freeWord : Nat → Word

end Sys2Proof.Config
end

