-- ==== Sys2Proof/Syntax.lean ====
section
/-! DEFINITION. The commands of the core: one constructor for each row of the opcode table, with the
operand fields of its format (R301 to R309). An operand has exactly the width of its field, so every
term is the meaning of some command word. -/

namespace Sys2Proof

/-- A decoded command (R309). -/
inductive Instr where
  /-- GFADD, format G: the field elements A and B (R500). -/
  | gfadd (a b : Byte)
  /-- GFMUL, format G: the field elements A and B (R510). -/
  | gfmul (a b : Byte)
  /-- GFSCL, format G: the field element A and the exponent B (R520). -/
  | gfscl (a b : Byte)
  /-- SEL, format L: the shape (true is rectangular) and the data length LEN (R400). -/
  | sel (rect : Bool) (len : BitVec 12)
  /-- SELI, format I: the capacity-table index IDX (R410). -/
  | seli (idx : BitVec 5)
  /-- AENC, format N (R450). -/
  | aenc
  /-- PAD, format N (R460). -/
  | pad
  /-- RSGEN, format E: the degree E of the generator (R550). -/
  | rsgen (e : Byte)
  /-- RSENC, format N (R560). -/
  | rsenc
  /-- PLACE, format N (R600). -/
  | place
  /-- ENC, format S: the shape (true is rectangular) (R650). -/
  | enc (rect : Bool)
  deriving DecidableEq, Repr

/-- The mnemonic of a command's row in the opcode table (R309). -/
def Instr.mnemonic : Instr → String
  | .gfadd _ _ => "GFADD"
  | .gfmul _ _ => "GFMUL"
  | .gfscl _ _ => "GFSCL"
  | .sel _ _ => "SEL"
  | .seli _ => "SELI"
  | .aenc => "AENC"
  | .pad => "PAD"
  | .rsgen _ => "RSGEN"
  | .rsenc => "RSENC"
  | .place => "PLACE"
  | .enc _ => "ENC"

end Sys2Proof
end

