-- ==== Sys2Proof/WellFormed.lean ====
section
/-! DEFINITION. Which commands are well formed. Every term of Instr has an encoding, since each
operand has the width of its field; what is left to check is R311: the operand value lies in the
range its command accepts. A command outside it still decodes and runs: it completes with
RANGE_ERROR, so no statement about decoding or execution leaves it out. -/

namespace Sys2Proof

/-- The operand values a command accepts (R311): SELI an index below N_ENTRIES, RSGEN a degree from
1 to E_MAX; every other operand value is accepted. -/
def Instr.wellFormed : Instr → Bool
  | .gfadd _ _ => true
  | .gfmul _ _ => true
  | .gfscl _ _ => true
  | .sel _ _ => true
  | .seli idx => decide (idx.toNat < Config.nEntries)
  | .aenc => true
  | .pad => true
  | .rsgen e => decide (1 ≤ e.toNat ∧ e.toNat ≤ Config.eMax)
  | .rsenc => true
  | .place => true
  | .enc _ => true

end Sys2Proof
end

