-- ==== Sys2Proof/Decode.lean ====
section
/-! DEFINITION. Decoding a command word (R300 to R312, R703) and encoding a command. Decoding reads
the word alone, is total, and names why a word is illegal. -/

namespace Sys2Proof

/-- One row of the opcode map: a word w spells the command when w &&& mask = value (R309). -/
structure OpcodeRow where
  mnemonic : String
  value : Word
  mask : Word
  deriving DecidableEq, Repr

/-- The opcode map of R309, row by row. -/
def opcodeTable : List OpcodeRow :=
  [ { mnemonic := "GFADD", value := 0x01000000#32, mask := 0xFF0000FF#32 },
    { mnemonic := "GFMUL", value := 0x02000000#32, mask := 0xFF0000FF#32 },
    { mnemonic := "GFSCL", value := 0x03000000#32, mask := 0xFF0000FF#32 },
    { mnemonic := "SEL", value := 0x10000000#32, mask := 0xFF7FF000#32 },
    { mnemonic := "SELI", value := 0x11000000#32, mask := 0xFFFFFFE0#32 },
    { mnemonic := "AENC", value := 0x20000000#32, mask := 0xFFFFFFFF#32 },
    { mnemonic := "PAD", value := 0x21000000#32, mask := 0xFFFFFFFF#32 },
    { mnemonic := "RSGEN", value := 0x30000000#32, mask := 0xFFFFFF00#32 },
    { mnemonic := "RSENC", value := 0x31000000#32, mask := 0xFFFFFFFF#32 },
    { mnemonic := "PLACE", value := 0x40000000#32, mask := 0xFFFFFFFF#32 },
    { mnemonic := "ENC", value := 0x50000000#32, mask := 0xFF7FFFFF#32 } ]

/-- The word w spells the command of row r (R309). -/
def OpcodeRow.fits (r : OpcodeRow) (w : Word) : Bool := w &&& r.mask == r.value

/-- A word is legal when it matches a row of the opcode map (R310). -/
def legalWord (w : Word) : Bool := opcodeTable.any (fun r => r.fits w)

/-- OP = cmd[31:24], the opcode field (R301). -/
def opField (w : Word) : Byte := w.extractLsb' 24 8

/-- A = cmd[23:16] (R308). -/
def aField (w : Word) : Byte := w.extractLsb' 16 8

/-- B = cmd[15:8] (R308). -/
def bField (w : Word) : Byte := w.extractLsb' 8 8

/-- RECT = cmd[23], 1 is rectangular (R308). -/
def rectField (w : Word) : Bool := w.getLsbD 23

/-- LEN = cmd[11:0] (R308). -/
def lenField (w : Word) : BitVec 12 := w.extractLsb' 0 12

/-- IDX = cmd[4:0] (R308). -/
def idxField (w : Word) : BitVec 5 := w.extractLsb' 0 5

/-- E = cmd[7:0] (R308). -/
def eField (w : Word) : Byte := w.extractLsb' 0 8

/-- Why a word is illegal (R310). -/
inductive IllegalWord where
  /-- OP is no opcode of R309. -/
  | unassignedOpcode (op : Byte)
  /-- OP is an opcode of R309 and a bit its format requires to be 0 is 1. -/
  | reservedBitSet (op : Byte)
  deriving DecidableEq, Repr

/-- What a word decodes to: a command, or an illegal word with the reason (R703, R310). -/
inductive Decoded where
  | command (i : Instr)
  | illegal (why : IllegalWord)
  deriving DecidableEq, Repr

/-- The reason for a word that matches no row. -/
def illegalReason (w : Word) : IllegalWord :=
  if opcodeTable.any (fun r => r.value.extractLsb' 24 8 == opField w) then
    .reservedBitSet (opField w)
  else
    .unassignedOpcode (opField w)

/-- Decode a command word (R703): the command whose row the word matches. The rows are disjoint, so
the order of the tests is of no account. -/
def decode (w : Word) : Decoded :=
  if w &&& 0xFF0000FF#32 = 0x01000000#32 then .command (.gfadd (aField w) (bField w))
  else if w &&& 0xFF0000FF#32 = 0x02000000#32 then .command (.gfmul (aField w) (bField w))
  else if w &&& 0xFF0000FF#32 = 0x03000000#32 then .command (.gfscl (aField w) (bField w))
  else if w &&& 0xFF7FF000#32 = 0x10000000#32 then .command (.sel (rectField w) (lenField w))
  else if w &&& 0xFFFFFFE0#32 = 0x11000000#32 then .command (.seli (idxField w))
  else if w &&& 0xFFFFFFFF#32 = 0x20000000#32 then .command .aenc
  else if w &&& 0xFFFFFFFF#32 = 0x21000000#32 then .command .pad
  else if w &&& 0xFFFFFF00#32 = 0x30000000#32 then .command (.rsgen (eField w))
  else if w &&& 0xFFFFFFFF#32 = 0x31000000#32 then .command .rsenc
  else if w &&& 0xFFFFFFFF#32 = 0x40000000#32 then .command .place
  else if w &&& 0xFF7FFFFF#32 = 0x50000000#32 then .command (.enc (rectField w))
  else .illegal (illegalReason w)

/-- An operand field of k bits at bit lo of a command word, zeros elsewhere (R308). -/
def fieldAt {k : Nat} (v : BitVec k) (lo : Nat) : Word := v.setWidth 32 <<< lo

/-- The word of a command: its opcode and its operand fields, every other bit 0 (R302 to R307,
R309). -/
def encode : Instr → Word
  | .gfadd a b => 0x01000000#32 ||| fieldAt a 16 ||| fieldAt b 8
  | .gfmul a b => 0x02000000#32 ||| fieldAt a 16 ||| fieldAt b 8
  | .gfscl a b => 0x03000000#32 ||| fieldAt a 16 ||| fieldAt b 8
  | .sel rect len => 0x10000000#32 ||| fieldAt (BitVec.ofBool rect) 23 ||| fieldAt len 0
  | .seli idx => 0x11000000#32 ||| fieldAt idx 0
  | .aenc => 0x20000000#32
  | .pad => 0x21000000#32
  | .rsgen e => 0x30000000#32 ||| fieldAt e 0
  | .rsenc => 0x31000000#32
  | .place => 0x40000000#32
  | .enc rect => 0x50000000#32 ||| fieldAt (BitVec.ofBool rect) 23

/-- The command a decoded word holds, if it is legal. -/
def Decoded.command? : Decoded → Option Instr
  | .command i => some i
  | .illegal _ => none

/-- The command word whose bits, numbered as the opcode table numbers them, are the low nbits bits
of w: a command is one 32-bit word (R300), so every bit above nbits is 0. -/
def tableWord (nbits w : Nat) : Word := BitVec.ofNat 32 (w % 2 ^ nbits)

/-- The command the decoder reads from a table row's word. -/
def decodeTableWord (nbits w : Nat) : Option Instr := (decode (tableWord nbits w)).command?

end Sys2Proof
end

