-- ==== Sys2Proof/Machine/State.lean ====
section
/-! DEFINITION. The state of the core (R100): the register file, the memories, the sequencer's
pending command, and three fields of the model's own (the count of draws taken, the host's coming
accesses, the word the bus last returned). The constant tables are in Machine/Tables.lean. -/

namespace Sys2Proof.Machine

/-- A memory of elements of w bits: pairs of an index and the element there, indices strictly
rising, no element 0; an index that is not listed reads as 0. -/
abbrev Memory (w : Nat) := List (Nat × BitVec w)

/-- The kinds of error a completion records (R711). -/
inductive CmdError where
  /-- Code 1, the source's CapacityExceeded (R713). -/
  | capacityExceeded
  /-- Code 2, the source's InternalPlacementInconsistency (R716). -/
  | placementInconsistency
  /-- Code 3: the word matches no row of the opcode map (R712). -/
  | illegalCommand
  /-- Code 4: a precondition on earlier commands fails (R714). -/
  | sequenceError
  /-- Code 5: an operand or a length register is out of range (R715). -/
  | rangeError
  deriving DecidableEq, Repr

/-- The size of a host access (R210). -/
inductive AccessSize where
  /-- All 32 bits. -/
  | word
  /-- Any other size, or a 32-bit access with a byte enable off. -/
  | other
  deriving DecidableEq, Repr

/-- One access of the host on the bus interface (R210 to R217). -/
inductive HostAccess where
  | read (size : AccessSize) (addr : Addr)
  | write (size : AccessSize) (addr : Addr) (value : Word)
  deriving DecidableEq, Repr

/-- What happens next at the core's boundary: a host access, or a turn of the sequencer (R700). A
list of them is one interleaving of the two agents; every interleaving is some list (R721). -/
inductive HostEvent where
  | access (a : HostAccess)
  | sequencerTurn
  deriving DecidableEq, Repr

/-- The state of the core. -/
structure State where
  /-- CTRL bit 0, IE: interrupt enable (R104). -/
  ie : Bool
  /-- STATUS bit 1, DONE (R105). -/
  done : Bool
  /-- STATUS bit 2, ERR (R105). -/
  err : Bool
  /-- STATUS bits 7:4, ERRCODE (R105, R711). -/
  errCode : BitVec 4
  /-- STATUS bit 8, CMDLOST (R105). -/
  cmdLost : Bool
  /-- STATUS bit 9, WRLOST (R105). -/
  wrLost : Bool
  /-- STATUS bit 10, BUSERR (R105). -/
  busErr : Bool
  /-- STATUS bit 16, SELV: a capacity entry is selected (R128). -/
  selv : Bool
  /-- STATUS bit 17, MVALID: BM and ASG hold a completed placement (R128). -/
  mvalid : Bool
  /-- The CMD read-back: the last command word the core accepted (R107). -/
  cmd : Word
  /-- RESULT bits 7:0 (R108). -/
  result : Byte
  /-- TXT_LEN bits 11:0 (R109). -/
  txtLen : BitVec 12
  /-- CW_COUNT bits 11:0 (R110). -/
  cwCount : BitVec 12
  /-- SEL bits 4:0, IDX, the index of the selected entry (R111); RECT is IDX >= 24. -/
  selIdx : Fin Config.nEntries
  /-- GEN_E bits 7:0 (R113). -/
  genE : Byte
  /-- PLACE_USED bits 11:0 (R114). -/
  placeUsed : BitVec 12
  /-- TXT, the text buffer (R120). -/
  txt : Memory 8
  /-- CW, the codeword buffer (R122). -/
  cw : Memory 8
  /-- GEN, the generator-coefficient buffer (R123). -/
  gen : Memory 8
  /-- ACC, the accumulator of the Reed-Solomon encoder (R124). -/
  acc : Memory 8
  /-- BM, the base matrix, cell (r, c) at index 132 r + c (R125, R203). -/
  bm : Memory 1
  /-- ASG, the assigned grid, indexed as BM (R126, R203). -/
  asg : Memory 1
  /-- The pending command word; STATUS bit 0, BUSY, is 1 exactly while there is one (R127). -/
  pending : Option Word
  /-- The model's own: how many draws have been taken, the number of the next free value. -/
  draws : Nat
  /-- The model's own: the coming events at the core's boundary, the next first. -/
  inputs : List HostEvent
  /-- The model's own: the word the last host read returned. -/
  readData : Word
  deriving DecidableEq, Repr

/-- The reasons the machine stops. There is none: every host access and every command word has a
defined outcome (R850, R312), so the type has no constructor (safe: the model stops nowhere). -/
inductive Fault where
  deriving DecidableEq, Repr

/-- The reasons the model gives no meaning. -/
inductive Refusal where
  /-- An arm of exec that has no meaning yet, by the row's mnemonic (safe: nothing is claimed of the
  instruction). No arm raises it in this model. -/
  | notModelled (mnemonic : String)
  deriving DecidableEq, Repr

/-- The state right after a power-on reset (R800, R801): every register at its reset value, no
command pending, and the memories with nothing listed. The spec leaves the memories' contents
unspecified; that they read as 0 is the model's DESIGN CHOICE (unsafe, log entry 1), and no
statement rests on it. -/
def State.reset : State where
  ie := false
  done := false
  err := false
  errCode := 0#4
  cmdLost := false
  wrLost := false
  busErr := false
  selv := false
  mvalid := false
  cmd := 0#32
  result := 0#8
  txtLen := 0#12
  cwCount := 0#12
  selIdx := ⟨0, by decide⟩
  genE := 0#8
  placeUsed := 0#12
  txt := []
  cw := []
  gen := []
  acc := []
  bm := []
  asg := []
  pending := none
  draws := 0
  inputs := []
  readData := 0#32

end Sys2Proof.Machine
end

