-- ==== Sys2Proof/Machine/Ops.lean ====
section
/-! DEFINITION. The named operations over the memories and the command protocol: reading and writing
elements, taking draws, raising an error, accepting and completing a command. The core has no trap
(R732): what an error does is recorded by complete, the one place that writes ERR and ERRCODE at a
completion. -/

namespace Sys2Proof.Machine

/-! ### Memories -/

/-- Element i of a memory; an index that is not listed reads as 0. -/
def Memory.read {w : Nat} : Memory w → Nat → BitVec w
  | [], _ => 0
  | (a, v) :: rest, i => if a < i then Memory.read rest i else if a = i then v else 0

/-- The entries of a memory with an index above i, once those below i are gone. -/
def Memory.above {w : Nat} (i : Nat) : Memory w → Memory w
  | [] => []
  | (a, v) :: rest => if a ≤ i then Memory.above i rest else (a, v) :: rest

/-- Put element v at index i in front of the entries above i; 0 is what an unlisted index reads as,
so it is not listed. -/
def Memory.put {w : Nat} (i : Nat) (v : BitVec w) (rest : Memory w) : Memory w :=
  if v = 0 then rest else (i, v) :: rest

/-- Store v as element i, keeping the canonical form. -/
def Memory.write {w : Nat} : Memory w → Nat → BitVec w → Memory w
  | [], i, v => Memory.put i v []
  | (a, x) :: rest, i, v =>
    if a < i then (a, x) :: Memory.write rest i v
    else Memory.put i v (Memory.above i ((a, x) :: rest))

/-- Store f(i) as element i for every i in base .. base+count-1. -/
def Memory.writeRange {w : Nat} (m : Memory w) (base : Nat) : Nat → (Nat → BitVec w) → Memory w
  | 0, _ => m
  | n + 1, f => (Memory.writeRange m base n f).write (base + n) (f (base + n))

/-- The memory whose element i is f(i) for i below depth, and that lists nothing else. -/
def Memory.tabulate {w : Nat} (depth : Nat) (f : Nat → BitVec w) : Memory w :=
  ((List.range depth).map (fun i => (i, f i))).filter (fun e => decide (e.2 ≠ 0))

/-- The indices of m are strictly rising and at least lo, no element listed is 0, and every index
lies below depth. -/
def Memory.wfFrom {w : Nat} (depth : Nat) : Nat → Memory w → Bool
  | _, [] => true
  | lo, (a, v) :: rest =>
    decide (lo ≤ a) && decide (a < depth) && decide (v ≠ 0) && Memory.wfFrom depth (a + 1) rest

/-- The canonical form of a memory of depth elements. -/
def Memory.wf {w : Nat} (depth : Nat) (m : Memory w) : Bool := Memory.wfFrom depth 0 m

/-! ### Commands: what a run leaves, errors, acceptance and completion -/

/-- STATUS.BUSY: a command is pending (R105, R127). -/
def State.busy (s : State) : Bool := s.pending.isSome

/-- What running a command's rule leaves: the state with the rule's writes, and the error it raised,
if it did (R710). -/
structure Run where
  state : State
  raised : Option CmdError
  deriving DecidableEq, Repr

/-- The rule ran to its end. -/
def Run.ok (s : State) : Run := ⟨s, none⟩

/-- raise E: the rule ends here with error e, and the writes made before it stand (R710). -/
def Run.raise (e : CmdError) (s : State) : Run := ⟨s, some e⟩

/-- The next step of a composite command, which a raise in the step before ends (R650, R710). -/
def Run.andThen (r : Run) (next : State → Run) : Run :=
  match r.raised with
  | none => next r.state
  | some _ => r

/-- The number of an error in ERRCODE (R711). -/
def errorCode : CmdError → BitVec 4
  | .capacityExceeded => 1
  | .placementInconsistency => 2
  | .illegalCommand => 3
  | .sequenceError => 4
  | .rangeError => 5

/-- Completion: BUSY <- 0, DONE <- 1, and the error, if one was raised, in ERR and ERRCODE (R702). -/
def complete (r : Run) : State :=
  match r.raised with
  | none => { r.state with pending := none, done := true }
  | some e => { r.state with pending := none, done := true, err := true, errCode := errorCode e }

/-- Acceptance of the command word v: the read-back, DONE, ERR and ERRCODE cleared, the command
pending (R701). -/
def accept (v : Word) (s : State) : State :=
  { s with cmd := v, done := false, err := false, errCode := 0#4, pending := some v }

/-- STATUS.MVALID <- 0, the first statement of every legal command other than GFADD, GFMUL and GFSCL
(R704). -/
def clearMvalid (s : State) : State := { s with mvalid := false }

end Sys2Proof.Machine
end

