-- ==== Sys2Proof/Machine/Flags.lean ====
section
/-! DEFINITION. The status register, the control register and the interrupt line: the STATUS word
from its fields (R105), write-one-to-clear (R106), CTRL (R104), IRQ (R730). -/

namespace Sys2Proof.Machine

/-- A flag as bit n of a word. -/
def flagBit (b : Bool) (n : Nat) : Word := if b then 1#32 <<< n else 0#32

/-- Register STATUS, every reserved bit 0 (R105). -/
def statusWord (s : State) : Word :=
  flagBit s.busy 0 ||| flagBit s.done 1 ||| flagBit s.err 2 ||| (s.errCode.setWidth 32 <<< 4) |||
  flagBit s.cmdLost 8 ||| flagBit s.wrLost 9 ||| flagBit s.busErr 10 |||
  flagBit s.selv 16 ||| flagBit s.mvalid 17

/-- Register CTRL: IE in bit 0; SRST reads 0 (R104). -/
def ctrlWord (s : State) : Word := flagBit s.ie 0

/-- A host write v to STATUS (R106). -/
def writeStatus (v : Word) (s : State) : State :=
  { s with
    done := s.done && !v.getLsbD 1
    err := s.err && !v.getLsbD 2
    errCode := if v.getLsbD 2 then 0#4 else s.errCode
    cmdLost := s.cmdLost && !v.getLsbD 8
    wrLost := s.wrLost && !v.getLsbD 9
    busErr := s.busErr && !v.getLsbD 10 }

/-- IRQ = CTRL.IE and STATUS.DONE, at every moment (R730). -/
def irq (s : State) : Bool := s.ie && s.done

/-- A refused access, or a write to a read-only location: STATUS.BUSERR <- 1 (R210 to R213). -/
def setBusErr (s : State) : State := { s with busErr := true }

/-- A CMD write dropped while BUSY = 1: STATUS.CMDLOST <- 1 (R214). -/
def setCmdLost (s : State) : State := { s with cmdLost := true }

/-- An input write dropped while BUSY = 1: STATUS.WRLOST <- 1 (R214). -/
def setWrLost (s : State) : State := { s with wrLost := true }

end Sys2Proof.Machine
end

