-- ==== Sys2Proof/Machine/Tables.lean ====
section
/-! DEFINITION. The constant tables of the core: the antilog and log tables of GF(256) (R130, R131)
and the capacity table (R140). No command and no host access writes them, and reset leaves them as
they are (R132). -/

namespace Sys2Proof.Machine

/-- ALOG[0] to ALOG[127] (R130). -/
def alogLow : List Byte :=
  [1, 2, 4, 8, 16, 32, 64, 128, 45, 90, 180, 69, 138, 57, 114, 228] ++
  [229, 231, 227, 235, 251, 219, 155, 27, 54, 108, 216, 157, 23, 46, 92, 184] ++
  [93, 186, 89, 178, 73, 146, 9, 18, 36, 72, 144, 13, 26, 52, 104, 208] ++
  [141, 55, 110, 220, 149, 7, 14, 28, 56, 112, 224, 237, 247, 195, 171, 123] ++
  [246, 193, 175, 115, 230, 225, 239, 243, 203, 187, 91, 182, 65, 130, 41, 82] ++
  [164, 101, 202, 185, 95, 190, 81, 162, 105, 210, 137, 63, 126, 252, 213, 135] ++
  [35, 70, 140, 53, 106, 212, 133, 39, 78, 156, 21, 42, 84, 168, 125, 250] ++
  [217, 159, 19, 38, 76, 152, 29, 58, 116, 232, 253, 215, 131, 43, 86, 172]

/-- ALOG[128] to ALOG[255] (R130); ALOG[255] = 1 is what a host read returns, and no command reads
it. -/
def alogHigh : List Byte :=
  [117, 234, 249, 223, 147, 11, 22, 44, 88, 176, 77, 154, 25, 50, 100, 200] ++
  [189, 87, 174, 113, 226, 233, 255, 211, 139, 59, 118, 236, 245, 199, 163, 107] ++
  [214, 129, 47, 94, 188, 85, 170, 121, 242, 201, 191, 83, 166, 97, 194, 169] ++
  [127, 254, 209, 143, 51, 102, 204, 181, 71, 142, 49, 98, 196, 165, 103, 206] ++
  [177, 79, 158, 17, 34, 68, 136, 61, 122, 244, 197, 167, 99, 198, 161, 111] ++
  [222, 145, 15, 30, 60, 120, 240, 205, 183, 67, 134, 33, 66, 132, 37, 74] ++
  [148, 5, 10, 20, 40, 80, 160, 109, 218, 153, 31, 62, 124, 248, 221, 151] ++
  [3, 6, 12, 24, 48, 96, 192, 173, 119, 238, 241, 207, 179, 75, 150, 1]

/-- LOG[0] to LOG[127] (R131); LOG[0] = 0 is what a host read returns, and no command reads it. -/
def logLow : List Byte :=
  [0, 0, 1, 240, 2, 225, 241, 53, 3, 38, 226, 133, 242, 43, 54, 210] ++
  [4, 195, 39, 114, 227, 106, 134, 28, 243, 140, 44, 23, 55, 118, 211, 234] ++
  [5, 219, 196, 96, 40, 222, 115, 103, 228, 78, 107, 125, 135, 8, 29, 162] ++
  [244, 186, 141, 180, 45, 99, 24, 49, 56, 13, 119, 153, 212, 199, 235, 91] ++
  [6, 76, 220, 217, 197, 11, 97, 184, 41, 36, 223, 253, 116, 138, 104, 193] ++
  [229, 86, 79, 171, 108, 165, 126, 145, 136, 34, 9, 74, 30, 32, 163, 84] ++
  [245, 173, 187, 204, 142, 81, 181, 190, 46, 88, 100, 159, 25, 231, 50, 207] ++
  [57, 147, 14, 67, 120, 128, 154, 248, 213, 167, 200, 63, 236, 110, 92, 176]

/-- LOG[128] to LOG[255] (R131). -/
def logHigh : List Byte :=
  [7, 161, 77, 124, 221, 102, 218, 95, 198, 90, 12, 152, 98, 48, 185, 179] ++
  [42, 209, 37, 132, 224, 52, 254, 239, 117, 233, 139, 22, 105, 27, 194, 113] ++
  [230, 206, 87, 158, 80, 189, 172, 203, 109, 175, 166, 62, 127, 247, 146, 66] ++
  [137, 192, 35, 252, 10, 183, 75, 216, 31, 83, 33, 73, 164, 144, 85, 170] ++
  [246, 65, 174, 61, 188, 202, 205, 157, 143, 169, 82, 72, 182, 215, 191, 251] ++
  [47, 178, 89, 151, 101, 94, 160, 123, 26, 112, 232, 21, 51, 238, 208, 131] ++
  [58, 69, 148, 18, 15, 16, 68, 17, 121, 149, 129, 19, 155, 59, 249, 70] ++
  [214, 250, 168, 71, 201, 156, 64, 60, 237, 130, 111, 20, 93, 122, 177, 150]

/-- ALOG[x] for 0 <= x <= 255 (R130). -/
def alogAt (x : Nat) : Byte :=
  if x < 128 then alogLow.getD x 0 else alogHigh.getD (x - 128) 0

/-- LOG[x] for 0 <= x <= 255 (R131). -/
def logAt (x : Nat) : Byte :=
  if x < 128 then logLow.getD x 0 else logHigh.getD (x - 128) 0

/-- One entry of the capacity table: the source's nine fields (R140). -/
structure CapEntry where
  symRows : Nat
  symCols : Nat
  dataCw : Nat
  errCw : Nat
  regRows : Nat
  regCols : Nat
  drRows : Nat
  drCols : Nat
  blocks : Nat
  deriving DecidableEq, Repr

/-- MAP_ROWS: rows of the base matrix (R121). -/
def CapEntry.mapRows (e : CapEntry) : Nat := e.regRows * e.drRows

/-- MAP_COLS: columns of the base matrix (R121). -/
def CapEntry.mapCols (e : CapEntry) : Nat := e.regCols * e.drCols

/-- E_BLK: error codewords of one block (R142). -/
def CapEntry.eBlk (e : CapEntry) : Nat := e.errCw / e.blocks

/-- T: the data and error codewords of the entry (R600). -/
def CapEntry.total (e : CapEntry) : Nat := e.dataCw + e.errCw

/-- CAP, indices 0 to 11 (R140), a row in the order of the table's columns. -/
def capSmall : List CapEntry :=
  [⟨10, 10, 3, 5, 1, 1, 8, 8, 1⟩, ⟨12, 12, 5, 7, 1, 1, 10, 10, 1⟩,
   ⟨14, 14, 8, 10, 1, 1, 12, 12, 1⟩, ⟨16, 16, 12, 12, 1, 1, 14, 14, 1⟩,
   ⟨18, 18, 18, 14, 1, 1, 16, 16, 1⟩, ⟨20, 20, 22, 18, 1, 1, 18, 18, 1⟩,
   ⟨22, 22, 30, 20, 1, 1, 20, 20, 1⟩, ⟨24, 24, 36, 24, 1, 1, 22, 22, 1⟩,
   ⟨26, 26, 44, 28, 1, 1, 24, 24, 1⟩, ⟨32, 32, 62, 36, 2, 2, 14, 14, 1⟩,
   ⟨36, 36, 86, 42, 2, 2, 16, 16, 1⟩, ⟨40, 40, 114, 48, 2, 2, 18, 18, 1⟩]

/-- CAP, indices 12 to 23 (R140). -/
def capLarge : List CapEntry :=
  [⟨44, 44, 144, 56, 2, 2, 20, 20, 1⟩, ⟨48, 48, 174, 68, 2, 2, 22, 22, 1⟩,
   ⟨52, 52, 204, 84, 2, 2, 24, 24, 2⟩, ⟨64, 64, 280, 112, 4, 4, 14, 14, 2⟩,
   ⟨72, 72, 368, 144, 4, 4, 16, 16, 4⟩, ⟨80, 80, 456, 192, 4, 4, 18, 18, 4⟩,
   ⟨88, 88, 576, 224, 4, 4, 20, 20, 4⟩, ⟨96, 96, 696, 272, 4, 4, 22, 22, 4⟩,
   ⟨104, 104, 816, 336, 4, 4, 24, 24, 6⟩, ⟨120, 120, 1050, 408, 6, 6, 18, 18, 6⟩,
   ⟨132, 132, 1304, 496, 6, 6, 20, 20, 8⟩, ⟨144, 144, 1558, 620, 6, 6, 22, 22, 10⟩]

/-- CAP, indices 24 to 29, the rectangular table (R140). -/
def capRect : List CapEntry :=
  [⟨8, 18, 5, 7, 1, 1, 6, 16, 1⟩, ⟨8, 32, 10, 11, 1, 2, 6, 14, 1⟩,
   ⟨12, 26, 16, 14, 1, 1, 10, 24, 1⟩, ⟨12, 36, 22, 18, 1, 2, 10, 16, 1⟩,
   ⟨16, 36, 32, 24, 1, 2, 14, 16, 1⟩, ⟨16, 48, 49, 28, 1, 2, 14, 22, 1⟩]

/-- CAP, the capacity table (R140). -/
def capTable : List CapEntry := capSmall ++ capLarge ++ capRect

/-- CAP[n] (R140). -/
def capEntry (n : Fin Config.nEntries) : CapEntry :=
  capTable.getD n.val ⟨10, 10, 3, 5, 1, 1, 8, 8, 1⟩

end Sys2Proof.Machine
end

