-- ==== Sys2Proof/Machine/Operands.lean ====
section
/-! DEFINITION. What a command reads besides its word's fields (R228, R308): the selected capacity
entry and its read-only views SEL and ENT0 to ENT3, the text, and the elements of the memories. The
fields of the command word are extracted in Decode.lean. -/

namespace Sys2Proof.Machine

/-- CAP[SEL.IDX], the selected entry (R111). -/
def selected (s : State) : CapEntry := capEntry s.selIdx

/-- The characters TXT[0] to TXT[TXT_LEN-1], first to last (R220, R450). -/
def textOf (s : State) : List Byte := (List.range s.txtLen.toNat).map (fun i => Memory.read s.txt i)

/-- The index of cell (r, c) in BM and ASG (R203). -/
def cellIndex (r c : Nat) : Nat := Config.mapStride * r + c

/-- SEL.RECT: the selected index belongs to the rectangular table (R111). -/
def selRect (s : State) : Bool := decide (Config.nSquare ≤ s.selIdx.val)

/-- Register SEL: IDX in bits 4:0 and RECT in bit 8; it reads 0 while SELV = 0 (R111). -/
def selWord (s : State) : Word :=
  if s.selv then BitVec.ofNat 32 (s.selIdx.val + if selRect s then 256 else 0) else 0#32

/-- Register ENT0 of an entry: DATA_CW and ERR_CW (R112). -/
def ent0Word (e : CapEntry) : Word := BitVec.ofNat 32 (e.dataCw + e.errCw * 2 ^ 16)

/-- Register ENT1 of an entry: SYM_ROWS, SYM_COLS, REG_ROWS, REG_COLS and BLOCKS (R112). -/
def ent1Word (e : CapEntry) : Word :=
  BitVec.ofNat 32 (e.symRows + e.symCols * 2 ^ 8 + e.regRows * 2 ^ 16 + e.regCols * 2 ^ 20
    + e.blocks * 2 ^ 24)

/-- Register ENT2 of an entry: DR_ROWS, DR_COLS, MAP_ROWS and MAP_COLS (R112). -/
def ent2Word (e : CapEntry) : Word :=
  BitVec.ofNat 32 (e.drRows + e.drCols * 2 ^ 8 + e.mapRows * 2 ^ 16 + e.mapCols * 2 ^ 24)

/-- Register ENT3 of an entry: E_BLK (R112). -/
def ent3Word (e : CapEntry) : Word := BitVec.ofNat 32 e.eBlk

/-- A register ENT0 to ENT3 reads the selected entry's word, and 0 while SELV = 0 (R112). -/
def entView (word : CapEntry → Word) (s : State) : Word :=
  if s.selv then word (selected s) else 0#32

end Sys2Proof.Machine
end

