-- ==== Sys2Proof/Machine/Bus.lean ====
section
/-! DEFINITION. The host interface: the address map (R201 to R204), what a host read returns, what a
host write does (R210 to R217, R227), and the soft reset (R802). -/

namespace Sys2Proof.Machine

/-- A location of the host address map (R201). -/
inductive Location where
  | id
  | ctrl
  | status
  | cmd
  | result
  | txtLen
  | cwCount
  | sel
  | ent0
  | ent1
  | ent2
  | ent3
  | genE
  | placeUsed
  | txt (i : Nat)
  | cw (i : Nat)
  | gen (i : Nat)
  | log (i : Nat)
  | alog (i : Nat)
  | bm (i : Nat)
  | asg (i : Nat)
  deriving DecidableEq, Repr

/-- The registers in the order of their offsets 0x000, 0x004, ..., 0x034 (R103 to R114). -/
def registerBlock : List Location :=
  [.id, .ctrl, .status, .cmd, .result, .txtLen, .cwCount, .sel, .ent0, .ent1, .ent2, .ent3, .genE,
   .placeUsed]

/-- The location at the byte address a, for an aligned address of the map; none for a misaligned or
an unmapped one (R201, R202, R203, R211, R213). -/
def locate (addr : Addr) : Option Location :=
  let a := addr.toNat
  if a % 4 ≠ 0 then none
  else if a < 0x38 then registerBlock[a / 4]?
  else if 0x4000 ≤ a ∧ a < 0x70B0 then some (.txt ((a - 0x4000) / 4))
  else if 0x8000 ≤ a ∧ a < 0xA208 then some (.cw ((a - 0x8000) / 4))
  else if 0xC000 ≤ a ∧ a < 0xC114 then some (.gen ((a - 0xC000) / 4))
  else if 0xD000 ≤ a ∧ a < 0xD400 then some (.log ((a - 0xD000) / 4))
  else if 0xD400 ≤ a ∧ a < 0xD800 then some (.alog ((a - 0xD400) / 4))
  else if 0x10000 ≤ a ∧ a < 0x21040 then some (.bm ((a - 0x10000) / 4))
  else if 0x30000 ≤ a ∧ a < 0x41040 then some (.asg ((a - 0x30000) / 4))
  else none

/-- The exact value of a location: a register, or a window's element zero-extended (R202). -/
def locationValue (s : State) : Location → Word
  | .id => Config.idValue
  | .ctrl => ctrlWord s
  | .status => statusWord s
  | .cmd => s.cmd
  | .result => s.result.setWidth 32
  | .txtLen => s.txtLen.setWidth 32
  | .cwCount => s.cwCount.setWidth 32
  | .sel => selWord s
  | .ent0 => entView ent0Word s
  | .ent1 => entView ent1Word s
  | .ent2 => entView ent2Word s
  | .ent3 => entView ent3Word s
  | .genE => s.genE.setWidth 32
  | .placeUsed => s.placeUsed.setWidth 32
  | .txt i => (Memory.read s.txt i).setWidth 32
  | .cw i => (Memory.read s.cw i).setWidth 32
  | .gen i => (Memory.read s.gen i).setWidth 32
  | .log i => (logAt i).setWidth 32
  | .alog i => (alogAt i).setWidth 32
  | .bm i => (Memory.read s.bm i).setWidth 32
  | .asg i => (Memory.read s.asg i).setWidth 32

/-- The locations whose reads return a draw while BUSY = 1, each with its bits that are not reserved
(R215, R112; log entry 7); the other locations read their exact values. -/
def drawMask : Location → Option Word
  | .id => none
  | .ctrl => none
  | .status => none
  | .cmd => none
  | .result => some 0x000000FF#32
  | .txtLen => none
  | .cwCount => some 0x00000FFF#32
  | .sel => some 0x0000011F#32
  | .ent0 => some 0x07FF07FF#32
  | .ent1 => some 0x0FFFFFFF#32
  | .ent2 => some 0xFFFFFFFF#32
  | .ent3 => some 0x000000FF#32
  | .genE => some 0x000000FF#32
  | .placeUsed => some 0x00000FFF#32
  | .txt _ => none
  | .cw _ => some 0x000000FF#32
  | .gen _ => some 0x000000FF#32
  | .log _ => none
  | .alog _ => none
  | .bm _ => some 0x00000001#32
  | .asg _ => some 0x00000001#32

/-- The word a host read returns: set in the model's own field readData. -/
def returnWord (v : Word) (s : State) : State := { s with readData := v }

/-- A refused access: a read returns 0, and STATUS.BUSERR <- 1 (R210, R211, R213). -/
def refuseRead (s : State) : State := returnWord 0#32 (setBusErr s)

/-- A host read of a draw: a fresh free value, its reserved bits 0 (R215). -/
def returnDraw (mask : Word) (s : State) : State :=
  { returnWord (Config.freeWord s.draws &&& mask) s with draws := s.draws + 1 }

/-- A host read of a mapped, aligned location (R215, R216). -/
def readLocation (l : Location) (s : State) : State :=
  match drawMask l with
  | some mask => if s.busy then returnDraw mask s else returnWord (locationValue s l) s
  | none => returnWord (locationValue s l) s

/-- MemRead(a, 4) of R227, and a read of any other size (R210). -/
def busRead (size : AccessSize) (addr : Addr) (s : State) : State :=
  match size with
  | .other => refuseRead s
  | .word =>
    match locate addr with
    | some l => readLocation l s
    | none => refuseRead s

/-- Every register and flag at its reset value (R800); the memories, ACC among
them (log entry 10), and the model's own fields, as they are. -/
def resetRegisters (s : State) : State :=
  { State.reset with
    txt := s.txt, cw := s.cw, gen := s.gen, acc := s.acc, bm := s.bm, asg := s.asg
    draws := s.draws, inputs := s.inputs, readData := s.readData }

/-- Every element of CW, GEN, BM and ASG <- a draw (R802). -/
def drawMemories (s : State) : State :=
  { s with
    cw := Memory.tabulate Config.cwDepth (fun i => Config.freeByte (s.draws + i))
    gen := Memory.tabulate Config.genDepth
      (fun i => Config.freeByte (s.draws + Config.cwDepth + i))
    bm := Memory.tabulate Config.mapDepth (fun i => Config.freeBit (s.draws + i))
    asg := Memory.tabulate Config.mapDepth
      (fun i => Config.freeBit (s.draws + Config.mapDepth + i))
    draws := s.draws + 2 * Config.mapDepth }

/-- The soft reset (R802): a pending command is abandoned, and the memories a command may have been
writing become draws. -/
def softReset (s : State) : State :=
  if s.busy then resetRegisters (drawMemories s) else resetRegisters s

/-- A host write v to CTRL (R104): SRST, else IE. -/
def writeCtrl (v : Word) (s : State) : State :=
  if v.getLsbD 1 then softReset s else { s with ie := v.getLsbD 0 }

/-- A host write v to CMD (R701, R214): accepted, or dropped while a command is pending. -/
def writeCmd (v : Word) (s : State) : State := if s.busy then setCmdLost s else accept v s

/-- A host write to an input, TXT_LEN, CW_COUNT, TXT or CW: dropped while BUSY = 1 (R214). -/
def writeInput (store : State → State) (s : State) : State := if s.busy then setWrLost s else store s

/-- A host write v to a mapped, aligned location (R227). -/
def writeLocation (l : Location) (v : Word) (s : State) : State :=
  match l with
  | .ctrl => writeCtrl v s
  | .status => writeStatus v s
  | .cmd => writeCmd v s
  | .txtLen => writeInput (fun t => { t with txtLen := v.setWidth 12 }) s
  | .cwCount => writeInput (fun t => { t with cwCount := v.setWidth 12 }) s
  | .txt i => writeInput (fun t => { t with txt := Memory.write t.txt i (v.setWidth 8) }) s
  | .cw i => writeInput (fun t => { t with cw := Memory.write t.cw i (v.setWidth 8) }) s
  | .id => setBusErr s
  | .result => setBusErr s
  | .sel => setBusErr s
  | .ent0 => setBusErr s
  | .ent1 => setBusErr s
  | .ent2 => setBusErr s
  | .ent3 => setBusErr s
  | .genE => setBusErr s
  | .placeUsed => setBusErr s
  | .gen _ => setBusErr s
  | .log _ => setBusErr s
  | .alog _ => setBusErr s
  | .bm _ => setBusErr s
  | .asg _ => setBusErr s

/-- MemWrite(a, 4, v) of R227, and a write of any other size (R210). -/
def busWrite (size : AccessSize) (addr : Addr) (v : Word) (s : State) : State :=
  match size with
  | .other => setBusErr s
  | .word =>
    match locate addr with
    | some l => writeLocation l v s
    | none => setBusErr s

/-- One host access, whole and at once (R217, R223). -/
def hostAccess (a : HostAccess) (s : State) : State :=
  match a with
  | .read size addr => busRead size addr s
  | .write size addr v => busWrite size addr v s

end Sys2Proof.Machine
end

