-- ==== Sys2Proof/Machine/Ascii.lean ====
section
/-! DEFINITION. The ASCII codeword encoder AENC (R450 to R457) and padding PAD (R460 to R466). -/

namespace Sys2Proof.Machine

/-- is_digit: the codes 48 to 57 (R450). -/
def isDigit (c : Byte) : Bool := decide (48 ≤ c.toNat) && decide (c.toNat ≤ 57)

/-- The codewords of a text, first to last (R450). The extended case comes first (R453), then the
digit pair (R454), then the single character (R455). -/
def asciiCodewords : List Byte → List Byte
  | [] => []
  | [c] => if 127 < c.toNat then [235, c - 127] else [c + 1]
  | c :: d :: rest =>
    if 127 < c.toNat then 235 :: (c - 127) :: asciiCodewords (d :: rest)
    else if isDigit c && isDigit d then
      BitVec.ofNat 8 (130 + 10 * (c.toNat - 48) + (d.toNat - 48)) :: asciiCodewords rest
    else (c + 1) :: asciiCodewords (d :: rest)

/-- CW[0 .. n-1] <- the codewords, CW_COUNT <- n (R450). -/
def storeCodewords (codewords : List Byte) (s : State) : State :=
  { s with
    cw := Memory.writeRange s.cw 0 codewords.length (fun i => codewords.getD i 0)
    cwCount := BitVec.ofNat 12 codewords.length }

/-- fail_overflow: CW_COUNT <- 0 and CW[0 .. DATA_MAX-1] <- draws (R450, R452). -/
def overflowCodewords (s : State) : State :=
  { s with
    cw := Memory.writeRange s.cw 0 Config.dataMax (fun i => Config.freeByte (s.draws + i))
    cwCount := 0#12
    draws := s.draws + Config.dataMax }

/-- AENC after MVALID is cleared (R450): RANGE_ERROR on a text longer than the buffer,
CAPACITY_EXCEEDED when the text needs more than DATA_MAX codewords (R452). -/
def encodeText (s : State) : Run :=
  if Config.txtDepth < s.txtLen.toNat then Run.raise .rangeError s
  else if Config.dataMax < (asciiCodewords (textOf s)).length then
    Run.raise .capacityExceeded (overflowCodewords s)
  else Run.ok (storeCodewords (asciiCodewords (textOf s)) s)

/-- AENC (R450). -/
def runAenc (s : State) : Run := encodeText (clearMvalid s)

/-- The pad codeword of position i after the first (R463): exact arithmetic on natural numbers, i
being the index in CW itself (R464). -/
def padValue (i : Nat) : Byte := BitVec.ofNat 8 ((129 + (149 * (i + 1)) % 253 + 1) % 254)

/-- The codeword PAD writes at position i when n codewords stand before the padding: 129 at n, the
formula after it (R462, R463). -/
def padCodeword (n i : Nat) : Byte := if i = n then 129 else padValue i

/-- CW[n .. C-1] <- pad codewords, CW_COUNT <- C (R460). -/
def storePadding (n c : Nat) (s : State) : State :=
  { s with
    cw := Memory.writeRange s.cw n (c - n) (padCodeword n)
    cwCount := BitVec.ofNat 12 c }

/-- PAD after MVALID is cleared (R460): SEQUENCE_ERROR without a selection, RANGE_ERROR when there
are more codewords than the entry holds. -/
def padSelected (s : State) : Run :=
  if s.selv = false then Run.raise .sequenceError s
  else if (selected s).dataCw < s.cwCount.toNat then Run.raise .rangeError s
  else Run.ok (storePadding s.cwCount.toNat (selected s).dataCw s)

/-- PAD (R460). -/
def runPad (s : State) : Run := padSelected (clearMvalid s)

/-- The completion step of AENC (R450, R702). -/
def execAenc (s : State) : Host.Outcome State Fault Refusal := .next (complete (runAenc s))

/-- The completion step of PAD (R460, R702). -/
def execPad (s : State) : Host.Outcome State Fault Refusal := .next (complete (runPad s))

end Sys2Proof.Machine
end

