-- ==== Sys2Proof/Machine/Placement.lean ====
section
/-! DEFINITION. The bit-placement engine PLACE (R600 to R622). Coordinates are integers that may be
negative before a module wraps (R607). -/

namespace Sys2Proof.Machine

/-- The sizes a placement works with: R = MAP_ROWS, C = MAP_COLS and T codewords (R600). -/
structure Mapping where
  rows : Nat
  cols : Nat
  total : Nat
  deriving DecidableEq, Repr

/-- The sizes of a capacity entry (R121, R600). -/
def mappingOf (e : CapEntry) : Mapping := ⟨e.mapRows, e.mapCols, e.total⟩

/-- The state of a running placement: BM, ASG and chr, the index of the next codeword (R603). -/
structure Placer where
  bm : Memory 1
  asg : Memory 1
  chr : Nat
  deriving DecidableEq, Repr

/-- Element f(i) at the index i of every cell of the mapping area. -/
def fillArea (g : Mapping) (f : Nat → BitVec 1) (m : Memory 1) : Memory 1 :=
  (List.range g.rows).foldl (fun m r => Memory.writeRange m (cellIndex r 0) g.cols f) m

/-- BM and ASG cleared over the mapping area (R601), chr at 0. -/
def clearedPlacer (g : Mapping) (s : State) : Placer :=
  ⟨fillArea g (fun _ => 0) s.bm, fillArea g (fun _ => 0) s.asg, 0⟩

/-- Cell (r, c) is already written (R126). -/
def assigned (r c : Nat) (p : Placer) : Bool := Memory.read p.asg (cellIndex r c) == 1

/-- BM[r][c] <- bit, ASG[r][c] <- 1 (R607). -/
def assign (r c : Nat) (bit : BitVec 1) (p : Placer) : Placer :=
  { p with bm := Memory.write p.bm (cellIndex r c) bit, asg := Memory.write p.asg (cellIndex r c) 1 }

/-- BM[r][c] <- bit unless the cell is already assigned: the first writer wins (R608). -/
def assignFirst (r c : Nat) (bit : BitVec 1) (p : Placer) : Placer :=
  if assigned r c p then p else assign r c bit p

/-- corner_fill: the bottom-right 2x2 block, two cells dark and two light (R605). -/
def cornerFill (g : Mapping) (p : Placer) : Placer :=
  assign (g.rows - 2) (g.cols - 1) 0 (assign (g.rows - 1) (g.cols - 2) 0
    (assign (g.rows - 2) (g.cols - 2) 1 (assign (g.rows - 1) (g.cols - 1) 1 p)))

/-- The row step of the wrap (R607). -/
def wrapRow (g : Mapping) (rc : Int × Int) : Int × Int :=
  if rc.1 < 0 then (rc.1 + g.rows, rc.2 + 4 - ((g.rows + 4) % 8 : Nat)) else rc

/-- The column step of the wrap (R607). -/
def wrapCol (g : Mapping) (rc : Int × Int) : Int × Int :=
  if rc.2 < 0 then (rc.1 + 4 - ((g.cols + 4) % 8 : Nat), rc.2 + g.cols) else rc

/-- The coordinates lie in the matrix. -/
def inMatrix (g : Mapping) (rc : Int × Int) : Bool :=
  decide (0 ≤ rc.1) && decide (rc.1 < g.rows) && decide (0 ≤ rc.2) && decide (rc.2 < g.cols)

/-- module(r, c, bit): one module with wrap-around; none is fail_place, outside the matrix after
both steps (R607, R609). -/
def placeModule (g : Mapping) (bit : BitVec 1) (rc : Int × Int) (p : Placer) : Option Placer :=
  let at_ := wrapCol g (wrapRow g rc)
  if inMatrix g at_ then some (assignFirst at_.1.toNat at_.2.toNat bit p) else none

/-- Bit b of a codeword's expansion, most significant first (R219, R602). -/
def codewordBit (w : Byte) (b : Nat) : BitVec 1 := w.extractLsb' (7 - b) 1

/-- The modules b, b+1, ... of a pattern, from codeword w (R604). -/
def placeModules (g : Mapping) (w : Byte) : Nat → List (Int × Int) → Placer → Option Placer
  | _, [], p => some p
  | b, rc :: rest, p =>
    match placeModule g (codewordBit w b) rc p with
    | none => none
    | some q => placeModules g w (b + 1) rest q

/-- take(), then the modules of a pattern: none is fail_place on codeword exhaustion (R615) or from
a module (R609). -/
def placePattern (g : Mapping) (cw : Memory 8) (shape : List (Int × Int)) (p : Placer) :
    Option Placer :=
  if p.chr = g.total then none
  else placeModules g (Memory.read cw p.chr) 0 shape { p with chr := p.chr + 1 }

/-- utah(row, col): the eight modules of the generic pattern (R610). -/
def utahShape (row col : Int) : List (Int × Int) :=
  [(row - 2, col - 2), (row - 2, col - 1), (row - 1, col - 2), (row - 1, col - 1),
   (row - 1, col), (row, col - 2), (row, col - 1), (row, col)]

/-- corner1 (R611). -/
def corner1Shape (r c : Int) : List (Int × Int) :=
  [(r - 1, 0), (r - 1, 1), (r - 1, 2), (0, c - 2), (0, c - 1), (1, c - 1), (2, c - 1), (3, c - 1)]

/-- corner2 (R612). -/
def corner2Shape (r c : Int) : List (Int × Int) :=
  [(r - 3, 0), (r - 2, 0), (r - 1, 0), (0, c - 4), (0, c - 3), (0, c - 2), (0, c - 1), (1, c - 1)]

/-- corner3 (R613). -/
def corner3Shape (r c : Int) : List (Int × Int) :=
  [(r - 3, 0), (r - 2, 0), (r - 1, 0), (0, c - 2), (0, c - 1), (1, c - 1), (2, c - 1), (3, c - 1)]

/-- corner4 (R614). -/
def corner4Shape (r c : Int) : List (Int × Int) :=
  [(r - 1, 0), (r - 1, c - 1), (0, c - 3), (0, c - 2), (0, c - 1), (1, c - 3), (1, c - 2), (1, c - 1)]

/-- The corner pattern the anchor (row, col) takes, if any (R600, R611 to R614). -/
def cornerShape (g : Mapping) (row col : Int) : Option (List (Int × Int)) :=
  if row = g.rows ∧ col = 0 then some (corner1Shape g.rows g.cols)
  else if row = g.rows - 2 ∧ col = 0 ∧ g.cols % 4 ≠ 0 then some (corner2Shape g.rows g.cols)
  else if row = g.rows - 2 ∧ col = 0 ∧ g.cols % 8 = 4 then some (corner3Shape g.rows g.cols)
  else if row = g.rows + 4 ∧ col = 2 ∧ g.cols % 8 = 0 then some (corner4Shape g.rows g.cols)
  else none

/-- The corner pattern of the anchor, placed (R600). -/
def placeCorner (g : Mapping) (cw : Memory 8) (row col : Int) (p : Placer) : Option Placer :=
  match cornerShape g row col with
  | some shape => placePattern g cw shape p
  | none => some p

/-- The generic pattern at the anchor, if it lies in the matrix and is not yet assigned (R600). -/
def visit (g : Mapping) (cw : Memory 8) (row col : Int) (p : Placer) : Option Placer :=
  if inMatrix g (row, col) && !assigned row.toNat col.toNat p then
    placePattern g cw (utahShape row col) p
  else some p

/-- The up-right pass from an anchor (R600): where it ends and what it leaves. The number bounds its
steps; that it runs out is fail_place, and it never does (log entry 5). -/
def upRight (g : Mapping) (cw : Memory 8) : Nat → Int → Int → Placer → Option (Int × Int × Placer)
  | 0, _, _, _ => none
  | n + 1, row, col, p =>
    match visit g cw row col p with
    | none => none
    | some q =>
      if row - 2 ≥ 0 ∧ col + 2 < g.cols then upRight g cw n (row - 2) (col + 2) q
      else some (row - 2, col + 2, q)

/-- The down-left pass from an anchor (R600), as upRight. -/
def downLeft (g : Mapping) (cw : Memory 8) : Nat → Int → Int → Placer → Option (Int × Int × Placer)
  | 0, _, _, _ => none
  | n + 1, row, col, p =>
    match visit g cw row col p with
    | none => none
    | some q =>
      if row + 2 < g.rows ∧ col - 2 ≥ 0 then downLeft g cw n (row + 2) (col - 2) q
      else some (row + 2, col - 2, q)

/-- The outer loop of R600 from an anchor: a corner pattern, the up-right pass, the down-left pass,
until row and column are both out of the matrix (R603). -/
def traverse (g : Mapping) (cw : Memory 8) : Nat → Int → Int → Placer → Option Placer
  | 0, _, _, _ => none
  | n + 1, row, col, p =>
    match placeCorner g cw row col p with
    | none => none
    | some q =>
      match upRight g cw Config.mapStride row col q with
      | none => none
      | some (row1, col1, q1) =>
        match downLeft g cw Config.mapStride (row1 + 1) (col1 + 3) q1 with
        | none => none
        | some (row2, col2, q2) =>
          if row2 + 3 < g.rows ∨ col2 + 1 < g.cols then traverse g cw n (row2 + 3) (col2 + 1) q2
          else some q2

/-- Every cell of the mapping area is assigned (R600, R616). -/
def allAssigned (g : Mapping) (asg : Memory 1) : Bool :=
  (List.range g.rows).all fun r =>
    (List.range g.cols).all fun c => Memory.read asg (cellIndex r c) == 1

/-- The whole placement of R600 from the cleared grids: none is fail_place (R616). -/
def placeAll (g : Mapping) (cw : Memory 8) (p : Placer) : Option Placer :=
  let start := if (g.rows * g.cols) % 8 = 4 then cornerFill g p else p
  match traverse g cw Config.mapStride 4 0 start with
  | none => none
  | some q => if allAssigned g q.asg then some q else none

/-- BM, ASG and PLACE_USED after a placement, MVALID <- 1 (R600, R620). -/
def storePlacement (p : Placer) (s : State) : State :=
  { s with bm := p.bm, asg := p.asg, placeUsed := BitVec.ofNat 12 p.chr, mvalid := true }

/-- fail_place: BM and ASG hold draws over the mapping area, PLACE_USED <- 0, MVALID <- 0 (R616). -/
def failPlacement (g : Mapping) (s : State) : State :=
  { s with
    bm := fillArea g (fun i => Config.freeBit (s.draws + i)) s.bm
    asg := fillArea g (fun i => Config.freeBit (s.draws + Config.mapDepth + i)) s.asg
    placeUsed := 0#12
    mvalid := false
    draws := s.draws + 2 * Config.mapDepth }

/-- PLACE after MVALID is cleared (R600): SEQUENCE_ERROR without a selection. -/
def placeSelected (s : State) : Run :=
  if s.selv = false then Run.raise .sequenceError s
  else
    match placeAll (mappingOf (selected s)) s.cw (clearedPlacer (mappingOf (selected s)) s) with
    | some p => Run.ok (storePlacement p s)
    | none => Run.raise .placementInconsistency (failPlacement (mappingOf (selected s)) s)

/-- PLACE (R600). -/
def runPlace (s : State) : Run := placeSelected (clearMvalid s)

/-- The completion step of PLACE (R600, R702). -/
def execPlace (s : State) : Host.Outcome State Fault Refusal := .next (complete (runPlace s))

end Sys2Proof.Machine
end

