-- ==== Sys2Proof/Machine/Gf.lean ====
section
/-! DEFINITION. The GF(256) arithmetic unit: the field functions of R499 and the commands GFADD,
GFMUL and GFSCL. These three commands leave MVALID unchanged (R704). -/

namespace Sys2Proof.Machine

/-- gf_add (R499). -/
def gfAdd (a b : Byte) : Byte := a ^^^ b

/-- gf_mul (R499): the tests on zero come first, so LOG[0] is never read. -/
def gfMul (a b : Byte) : Byte :=
  if a = 0 ∨ b = 0 then 0 else alogAt (((logAt a.toNat).toNat + (logAt b.toNat).toNat) % 255)

/-- gf_scl (R499): a times alpha to the b, with b an exponent. -/
def gfScl (a : Byte) (b : Nat) : Byte :=
  if a = 0 then 0 else if b = 0 then a else alogAt (((logAt a.toNat).toNat + b) % 255)

/-- RESULT <- v (R108). -/
def setResult (v : Byte) (s : State) : State := { s with result := v }

/-- GFADD A, B: RESULT <- gf_add(A, B) (R500). -/
def runGfadd (a b : Byte) (s : State) : Run := Run.ok (setResult (gfAdd a b) s)

/-- GFMUL A, B: RESULT <- gf_mul(A, B) (R510). -/
def runGfmul (a b : Byte) (s : State) : Run := Run.ok (setResult (gfMul a b) s)

/-- GFSCL A, B: RESULT <- gf_scl(A, B) (R520). -/
def runGfscl (a b : Byte) (s : State) : Run := Run.ok (setResult (gfScl a b.toNat) s)

/-- The completion step of GFADD (R500, R702). -/
def execGfadd (a b : Byte) (s : State) : Host.Outcome State Fault Refusal :=
  .next (complete (runGfadd a b s))

/-- The completion step of GFMUL (R510, R702). -/
def execGfmul (a b : Byte) (s : State) : Host.Outcome State Fault Refusal :=
  .next (complete (runGfmul a b s))

/-- The completion step of GFSCL (R520, R702). -/
def execGfscl (a b : Byte) (s : State) : Host.Outcome State Fault Refusal :=
  .next (complete (runGfscl a b s))

end Sys2Proof.Machine
end

