-- ==== Sys2Proof/Machine/ReedSolomon.lean ====
section
/-! DEFINITION. The Reed-Solomon encoder: the generator polynomial RSGEN (R550 to R553) and the
block-interleaved error codewords RSENC (R560 to R567). -/

namespace Sys2Proof.Machine

/-! ### RSGEN -/

/-- The assignments of R550 to g[j] in pass i: scale by alpha to the i, then add g[j-1]. -/
def genCell (i j : Nat) (g : List Byte) : List Byte :=
  g.set j (if 0 < j then gfAdd (gfScl (g.getD j 0) i) (g.getD (j - 1) 0) else gfScl (g.getD j 0) i)

/-- The inner loop of R550, for j in n-1 downto 0. -/
def genCells (i : Nat) : Nat → List Byte → List Byte
  | 0, g => g
  | n + 1, g => genCells i n (genCell i n g)

/-- The outer loop of R550, for i in 1 .. n, on a list of e+1 ones. -/
def genPasses (e : Nat) : Nat → List Byte
  | 0 => List.replicate (e + 1) 1
  | i + 1 => genCells (i + 1) (i + 1) (genPasses e i)

/-- The coefficients g[0] to g[e] of the generator polynomial of degree e (R550). -/
def generator (e : Nat) : List Byte := genPasses e e

/-- GEN[0 .. E] <- the generator, GEN_E <- E (R550). -/
def storeGenerator (e : Nat) (s : State) : State :=
  { s with
    gen := Memory.writeRange s.gen 0 (e + 1) (fun j => (generator e).getD j 0)
    genE := BitVec.ofNat 8 e }

/-- RSGEN after MVALID is cleared (R550): RANGE_ERROR outside 1 .. E_MAX (R551). -/
def buildGenerator (e : Nat) (s : State) : Run :=
  if e = 0 ∨ Config.eMax < e then Run.raise .rangeError s else Run.ok (storeGenerator e s)

/-- RSGEN E (R550). -/
def runRsgen (e : Byte) (s : State) : Run := buildGenerator e.toNat (clearMvalid s)

/-! ### RSENC -/

/-- The assignments of R560 to ACC[j] for a feedback value fb. -/
def accCell (gen : Memory 8) (fb : Byte) (j : Nat) (acc : List Byte) : List Byte :=
  let product := if fb = 0 then 0 else gfMul fb (Memory.read gen j)
  acc.set j (if 0 < j then gfAdd (acc.getD (j - 1) 0) product else product)

/-- The loop of R560 over ACC, for j in n-1 downto 0. -/
def accCells (gen : Memory 8) (fb : Byte) : Nat → List Byte → List Byte
  | 0, acc => acc
  | n + 1, acc => accCells gen fb n (accCell gen fb n acc)

/-- One data codeword d into the accumulator of e registers (R560). -/
def accStep (gen : Memory 8) (e : Nat) (acc : List Byte) (d : Byte) : List Byte :=
  accCells gen (gfAdd d (acc.getD (e - 1) 0)) e acc

/-- The positions k, k+N, k+2N, ... below D of the data codewords of block k (R560, R566). -/
def blockPositions (d n k : Nat) : List Nat := List.range' k ((d - k + (n - 1)) / n) n

/-- ACC after the data codewords of block k, from all zeros (R560, R561). -/
def blockAcc (gen cw : Memory 8) (d n e k : Nat) : List Byte :=
  ((blockPositions d n k).map (fun p => Memory.read cw p)).foldl (accStep gen e)
    (List.replicate e 0)

/-- CW[D + k + mN] <- ACC[E-1-m] for m in 0 .. count-1 (R562). -/
def writeBlock (d n e k : Nat) (acc : List Byte) : Nat → Memory 8 → Memory 8
  | 0, cw => cw
  | m + 1, cw =>
    Memory.write (writeBlock d n e k acc m cw) (d + k + m * n) (acc.getD (e - 1 - m) 0)

/-- The blocks 0 .. count-1, each from the data codewords of CW into its error codewords (R560). -/
def writeBlocks (gen : Memory 8) (d n e : Nat) : Nat → Memory 8 → Memory 8
  | 0, cw => cw
  | k + 1, cw =>
    let before := writeBlocks gen d n e k cw
    writeBlock d n e k (blockAcc gen before d n e k) e before

/-- The writes of RSENC for the selected entry: the error codewords in CW, and in ACC the
accumulator of the last block, N - 1 (R560, R124; log entry 10). -/
def storeErrorCodewords (s : State) : State :=
  let entry := selected s
  { s with
    cw := writeBlocks s.gen entry.dataCw entry.blocks entry.eBlk entry.blocks s.cw
    acc := Memory.writeRange s.acc 0 entry.eBlk
      (fun j => (blockAcc s.gen s.cw entry.dataCw entry.blocks entry.eBlk (entry.blocks - 1)).getD j 0) }

/-- RSENC after MVALID is cleared (R560): the three SEQUENCE_ERROR checks in order (R563, R564),
before any write. -/
def encodeBlocks (s : State) : Run :=
  if s.selv = false then Run.raise .sequenceError s
  else if s.genE.toNat ≠ (selected s).eBlk then Run.raise .sequenceError s
  else if s.cwCount.toNat ≠ (selected s).dataCw then Run.raise .sequenceError s
  else Run.ok (storeErrorCodewords s)

/-- RSENC (R560). -/
def runRsenc (s : State) : Run := encodeBlocks (clearMvalid s)

/-- The completion step of RSGEN (R550, R702). -/
def execRsgen (e : Byte) (s : State) : Host.Outcome State Fault Refusal :=
  .next (complete (runRsgen e s))

/-- The completion step of RSENC (R560, R702). -/
def execRsenc (s : State) : Host.Outcome State Fault Refusal := .next (complete (runRsenc s))

end Sys2Proof.Machine
end

