-- ==== Sys2Proof/Machine/Select.lean ====
section
/-! DEFINITION. The capacity-table selector: SEL by data length and SELI by index (R400 to R411). -/

namespace Sys2Proof.Machine

/-- The indices of the table a shape selects from, in the order SEL tries them: 24 to 29 for a
rectangular shape, else 0 to 23 (R400). -/
def shapeIndices (rect : Bool) : List (Fin Config.nEntries) :=
  (List.finRange Config.nEntries).filter (fun n => decide (Config.nSquare ≤ n.val) == rect)

/-- The first entry of the shape that holds len data codewords (R400). -/
def smallestEntry (rect : Bool) (len : Nat) : Option (Fin Config.nEntries) :=
  (shapeIndices rect).find? (fun n => decide (len ≤ (capEntry n).dataCw))

/-- SEL.IDX <- n, SELV <- 1 (R400, R410). -/
def setSelection (n : Fin Config.nEntries) (s : State) : State := { s with selIdx := n, selv := true }

/-- No selection: SELV <- 0, SEL.IDX <- 0 (R401). -/
def dropSelection (s : State) : State := { s with selIdx := ⟨0, by decide⟩, selv := false }

/-- SEL after MVALID is cleared: the smallest entry, or CAPACITY_EXCEEDED with no selection left
(R400, R401). -/
def selectByLength (rect : Bool) (len : Nat) (s : State) : Run :=
  match smallestEntry rect len with
  | some n => Run.ok (setSelection n s)
  | none => Run.raise .capacityExceeded (dropSelection s)

/-- SEL LEN, shape (R400). -/
def runSel (rect : Bool) (len : BitVec 12) (s : State) : Run :=
  selectByLength rect len.toNat (clearMvalid s)

/-- SELI IDX (R410): an index of 30 or 31 is a RANGE_ERROR and leaves the selection (R411). -/
def runSeli (idx : BitVec 5) (s : State) : Run :=
  if h : idx.toNat < Config.nEntries then Run.ok (setSelection ⟨idx.toNat, h⟩ (clearMvalid s))
  else Run.raise .rangeError (clearMvalid s)

/-- The completion step of SEL (R400, R702). -/
def execSel (rect : Bool) (len : BitVec 12) (s : State) : Host.Outcome State Fault Refusal :=
  .next (complete (runSel rect len s))

/-- The completion step of SELI (R410, R702). -/
def execSeli (idx : BitVec 5) (s : State) : Host.Outcome State Fault Refusal :=
  .next (complete (runSeli idx s))

end Sys2Proof.Machine
end

