-- ==== Sys2Proof/Machine/Encode.lean ====
section
/-! DEFINITION. The composite command ENC: the component commands in order, ended by the first that
raises (R650 to R656). -/

namespace Sys2Proof.Machine

/-- The SEL step of ENC: LEN is the CW_COUNT the AENC step left (R650). -/
def runSelCount (rect : Bool) (s : State) : Run := runSel rect s.cwCount s

/-- The RSGEN step of ENC: E is E_BLK of the entry the SEL step chose (R650). -/
def runRsgenSelected (s : State) : Run := runRsgen (BitVec.ofNat 8 (selected s).eBlk) s

/-- ENC shape (R650). -/
def runEnc (rect : Bool) (s : State) : Run :=
  ((((((Run.ok (clearMvalid s)).andThen runAenc).andThen (runSelCount rect)).andThen runPad).andThen
    runRsgenSelected).andThen runRsenc).andThen runPlace

/-- The completion step of ENC (R650, R702). -/
def execEnc (rect : Bool) (s : State) : Host.Outcome State Fault Refusal :=
  .next (complete (runEnc rect s))

end Sys2Proof.Machine
end

