-- ==== Sys2Proof/Machine/Dispatch.lean ====
section
/-! DEFINITION. The meaning of every command: one arm for each constructor of Instr, each one call of
that command's completion step. -/

namespace Sys2Proof.Machine

def exec (i : Instr) (s : State) : Host.Outcome State Fault Refusal :=
  match i with
  | .gfadd a b => Sys2Proof.Machine.execGfadd a b s
  | .gfmul a b => Sys2Proof.Machine.execGfmul a b s
  | .gfscl a b => Sys2Proof.Machine.execGfscl a b s
  | .sel rect len => Sys2Proof.Machine.execSel rect len s
  | .seli idx => Sys2Proof.Machine.execSeli idx s
  | .aenc => Sys2Proof.Machine.execAenc s
  | .pad => Sys2Proof.Machine.execPad s
  | .rsgen e => Sys2Proof.Machine.execRsgen e s
  | .rsenc => Sys2Proof.Machine.execRsenc s
  | .place => Sys2Proof.Machine.execPlace s
  | .enc rect => Sys2Proof.Machine.execEnc rect s

end Sys2Proof.Machine
end

