-- ==== Sys2Proof/Machine/Sequencer.lean ====
section
/-! DEFINITION. The sequencer's turn (R702) and the events at the core's boundary (R700). -/

namespace Sys2Proof.Machine

/-- A turn of the sequencer (R702): the pending word is decoded and runs; an illegal word completes
with ILLEGAL_COMMAND and nothing else (R712); with nothing pending the core is idle and keeps all
its state (R754). -/
def sequencerTurn (s : State) : Host.Outcome State Fault Refusal :=
  match s.pending with
  | none => .next s
  | some w =>
    match decode w with
    | .command i => exec i s
    | .illegal _ => .next (complete (Run.raise .illegalCommand s))

/-- One event: a host access, or a turn of the sequencer (R700). -/
def runEvent (e : HostEvent) (s : State) : Host.Outcome State Fault Refusal :=
  match e with
  | .access a => .next (hostAccess a s)
  | .sequencerTurn => sequencerTurn s

/-- The state after the host has written the command word w and the sequencer has the next turn:
acceptance (R701), whatever was pending before. -/
def issue (w : Word) (s : State) : State :=
  { accept w s with inputs := .sequencerTurn :: s.inputs }

end Sys2Proof.Machine
end

