-- ==== Sys2Proof/Machine/Step.lean ====
section
/-! DEFINITION. One step of the core: the next event of the list of coming events (R700, R721). When
the list is empty the sequencer has every turn, so an accepted command completes (R840; log entry 3). -/

namespace Sys2Proof.Machine

/-- One step. -/
def step (s : State) : Host.Outcome State Fault Refusal :=
  match s.inputs with
  | e :: rest => runEvent e { s with inputs := rest }
  | [] => sequencerTurn s

/-- The command word of a table row, accepted from the host (R701), with the sequencer's turn next:
the next step decodes and runs it. -/
def State.withFetchWord (s : State) (nbits w : Nat) : State := issue (tableWord nbits w) s

end Sys2Proof.Machine
end

