-- ==== Sys2Proof/Safety.lean ====
section
/-! DEFINITION. What the claims are stated in: the state after a completion without and with an
error, the invariants of the machine, the two states that agree on what a command reads, and what a
safe step is. -/

namespace Sys2Proof.Machine

/-! ### Completions -/

/-- The state s after its command completes without error: BUSY <- 0, DONE <- 1 (R702). -/
def finished (s : State) : State := { s with pending := none, done := true }

/-- The state s after its command completes with the error code: BUSY <- 0, DONE <- 1, ERR <- 1,
ERRCODE <- code (R702, R711). -/
def failed (code : BitVec 4) (s : State) : State :=
  { s with pending := none, done := true, err := true, errCode := code }

/-- A step is safe when it neither faults nor refuses. -/
def SafeOutcome (o : Host.Outcome State Fault Refusal) : Prop := ∃ t, o = .next t

/-! ### Invariants -/

/-- Every memory is in canonical form and lists no element outside its depth (R120 to R126). -/
def MemoriesCanonical (s : State) : Prop :=
  Memory.wf Config.txtDepth s.txt = true ∧ Memory.wf Config.cwDepth s.cw = true ∧
  Memory.wf Config.genDepth s.gen = true ∧ Memory.wf Config.eMax s.acc = true ∧
  Memory.wf Config.mapDepth s.bm = true ∧ Memory.wf Config.mapDepth s.asg = true

/-- ERRCODE is 0 when ERR = 0 and one of the codes 1 to 5 when ERR = 1; while BUSY = 1, DONE and ERR
are 0 (R105, R711, R215). -/
def StatusConsistent (s : State) : Prop :=
  (s.err = false → s.errCode = 0#4) ∧
  (s.err = true → 1 ≤ s.errCode.toNat ∧ s.errCode.toNat ≤ 5) ∧
  (s.busy = true → s.done = false ∧ s.err = false)

/-- While a command is pending, CMD reads back its word (R107, R701). -/
def PendingIsReadBack (s : State) : Prop := ∀ w, s.pending = some w → s.cmd = w

/-- SEL.IDX is 0 while SELV = 0, and MVALID = 1 only while an entry is selected (R111, R128). -/
def SelectionConsistent (s : State) : Prop :=
  (s.selv = false → s.selIdx.val = 0) ∧ (s.mvalid = true → s.selv = true)

/-- GEN holds the generator polynomial of degree GEN_E when GEN_E is not 0, and GEN_E is at most
E_MAX (R113, R123, R551). -/
def GeneratorHeld (s : State) : Prop :=
  s.genE.toNat ≤ Config.eMax ∧
  (s.genE ≠ 0#8 → ∀ j, j ≤ s.genE.toNat →
    Memory.read s.gen j = (generator s.genE.toNat).getD j 0)

/-- While MVALID = 1, every cell of the selected entry's mapping area is assigned and PLACE_USED is
the entry's number of codewords (R128, R616, R622). -/
def PlacementHeld (s : State) : Prop :=
  s.mvalid = true →
    s.placeUsed.toNat = (selected s).total ∧
    ∀ r c, r < (selected s).mapRows → c < (selected s).mapCols →
      Memory.read s.asg (cellIndex r c) = 1#1

/-! ### What a command reads and writes -/

/-- The largest data-codeword capacity of a shape (R400). -/
def shapeMax (rect : Bool) : Nat := if rect then Config.rectDataMax else Config.dataMax

/-- Entry n is of the shape (R400). -/
def OfShape (rect : Bool) (n : Fin Config.nEntries) : Prop := Config.nSquare ≤ n.val ↔ rect = true

/-- n is the smallest entry of the shape that holds len data codewords (R400). -/
def Smallest (rect : Bool) (len : Nat) (n : Fin Config.nEntries) : Prop :=
  OfShape rect n ∧ len ≤ (capEntry n).dataCw ∧
  ∀ m : Fin Config.nEntries, OfShape rect m → m < n → (capEntry m).dataCw < len

/-- Cell j lies in the mapping area of entry n (R121, R203). -/
def InMapping (n : Fin Config.nEntries) (j : Nat) : Prop :=
  ∃ r c, r < (capEntry n).mapRows ∧ c < (capEntry n).mapCols ∧ j = cellIndex r c

/-! ### Where a pattern of PLACE puts its bits -/

/-- The coordinates a module reaches: the row wrap, then the column wrap, which sees the coordinates
the row wrap leaves (R607). -/
def wrapped (g : Mapping) (rc : Int × Int) : Int × Int :=
  let r : Int := if rc.1 < 0 then rc.1 + g.rows else rc.1
  let c : Int := if rc.1 < 0 then rc.2 + (4 - (((g.rows + 4) % 8 : Nat) : Int)) else rc.2
  if c < 0 then (r + (4 - (((g.cols + 4) % 8 : Nat) : Int)), c + g.cols) else (r, c)

/-- The coordinates lie in the matrix (R609). -/
abbrev InsideMatrix (g : Mapping) (rc : Int × Int) : Prop :=
  0 ≤ rc.1 ∧ rc.1 < g.rows ∧ 0 ≤ rc.2 ∧ rc.2 < g.cols

/-- The index in BM and ASG of the cell at coordinates in the matrix (R203). -/
def gridCell (rc : Int × Int) : Nat := 132 * rc.1.toNat + rc.2.toNat

/-- Module b of the pattern is its first module that reaches cell j. -/
def FirstModuleAt (g : Mapping) (shape : List (Int × Int)) (j b : Nat) : Prop :=
  (shape[b]?.map fun rc => gridCell (wrapped g rc)) = some j ∧
  ∀ b', b' < b → (shape[b']?.map fun rc => gridCell (wrapped g rc)) ≠ some j

/-- What a pattern with the codeword w leaves of p: the next codeword is due, a cell not yet assigned
that a module reaches holds w[7-b] of its first module b and is assigned, and every other cell is as it
was (R602, R604, R607, R608). -/
def PatternLeaves (g : Mapping) (w : Byte) (shape : List (Int × Int)) (p q : Placer) : Prop :=
  q.chr = p.chr + 1 ∧
  ∀ j,
    (∀ b, FirstModuleAt g shape j b → Memory.read p.asg j = 0#1 →
      Memory.read q.bm j = BitVec.ofBool (w.getLsbD (7 - b)) ∧ Memory.read q.asg j = 1#1) ∧
    (Memory.read p.asg j = 1#1 ∨ (∀ rc ∈ shape, gridCell (wrapped g rc) ≠ j) →
      Memory.read q.bm j = Memory.read p.bm j ∧ Memory.read q.asg j = Memory.read p.asg j)

/-- What the traversal starts from: no codeword placed, every cell of the mapping area cleared and not
assigned, but for the bottom-right 2x2 block where R x C mod 8 = 4, assigned with its two dark and two
light cells (R601, R603, R605). -/
def TraversalStart (g : Mapping) (p : Placer) : Prop :=
  p.chr = 0 ∧
  ∀ r c, r < g.rows → c < g.cols →
    if (g.rows * g.cols) % 8 = 4 ∧ g.rows ≤ r + 2 ∧ g.cols ≤ c + 2 then
      Memory.read p.asg (cellIndex r c) = 1#1 ∧
      (Memory.read p.bm (cellIndex r c) = 1#1 ↔ (r + 1 = g.rows ↔ c + 1 = g.cols))
    else Memory.read p.asg (cellIndex r c) = 0#1 ∧ Memory.read p.bm (cellIndex r c) = 0#1

/-! ### What a text encodes to -/

/-- The codewords of the text now in TXT (R450). -/
def textCodewords (s : State) : List Byte := asciiCodewords (textOf s)

/-- The rules of the ASCII encoder as a relation between a text and its codewords: an extended
character (R453), a pair of digits (R454), any other character (R455), each tried in this order. -/
inductive AsciiRules : List Byte → List Byte → Prop where
  | done : AsciiRules [] []
  | extended (c : Byte) (rest out : List Byte) :
      127 < c.toNat → AsciiRules rest out → AsciiRules (c :: rest) (235 :: (c - 127) :: out)
  | pair (c d : Byte) (rest out : List Byte) :
      48 ≤ c.toNat → c.toNat ≤ 57 → 48 ≤ d.toNat → d.toNat ≤ 57 → AsciiRules rest out →
      AsciiRules (c :: d :: rest)
        (BitVec.ofNat 8 (130 + 10 * (c.toNat - 48) + (d.toNat - 48)) :: out)
  | single (c : Byte) (rest out : List Byte) :
      c.toNat ≤ 127 →
      ¬ (48 ≤ c.toNat ∧ c.toNat ≤ 57 ∧ ∃ d tail, rest = d :: tail ∧ 48 ≤ d.toNat ∧ d.toNat ≤ 57) →
      AsciiRules rest out → AsciiRules (c :: rest) ((c + 1) :: out)

/-! ### The field GF(256), without its tables -/

/-- Twice a field element: shift, and reduce by 0x12D (R130). -/
def twice (a : Byte) : Byte := (a <<< 1) ^^^ (if a.getLsbD 7 then 0x2D#8 else 0#8)

/-- The product of the low n bits of a, as a polynomial over GF(2), with b, reduced modulo 0x12D:
shift and reduce (R531). -/
def productOfBits : Nat → Byte → Byte → Byte
  | 0, _, _ => 0#8
  | n + 1, a, b => (if a.getLsbD 0 then b else 0#8) ^^^ productOfBits n (a >>> 1) (twice b)

/-- The product of a and b as polynomials over GF(2), reduced modulo 0x12D (R531). -/
def fieldProduct (a b : Byte) : Byte := productOfBits 8 a b

/-- The coefficients, lowest first, of the polynomial p times (x + r) (R552). -/
def timesRoot (p : List Byte) (r : Byte) : List Byte :=
  List.zipWith gfAdd (0#8 :: p) (p.map (gfMul r) ++ [0#8])

/-- The coefficients, lowest first, of (x + alpha)(x + alpha^2) ... (x + alpha^e) (R552). -/
def rootProduct : Nat → List Byte
  | 0 => [1#8]
  | e + 1 => timesRoot (rootProduct e) (alogAt ((e + 1) % 255))

/-- The value at x of the polynomial with these coefficients, highest first (R567). -/
def evalAt (x : Byte) (coefficients : List Byte) : Byte :=
  coefficients.foldl (fun v c => gfAdd (gfMul v x) c) 0#8

/-- c_k of R567: the data codewords of block k followed by its error codewords, as they stand in the
codeword buffer, for the sizes of entry e. -/
def blockSequence (e : CapEntry) (cw : Memory 8) (k : Nat) : List Byte :=
  (List.range' k ((e.dataCw - k + (e.blocks - 1)) / e.blocks) e.blocks).map (fun p => Memory.read cw p)
  ++ (List.range e.eBlk).map (fun m => Memory.read cw (e.dataCw + k + m * e.blocks))

/-! ### Which commands write what -/

/-- GFADD, GFMUL and GFSCL. -/
def isGf : Instr → Bool
  | .gfadd _ _ => true
  | .gfmul _ _ => true
  | .gfscl _ _ => true
  | .sel _ _ => false
  | .seli _ => false
  | .aenc => false
  | .pad => false
  | .rsgen _ => false
  | .rsenc => false
  | .place => false
  | .enc _ => false

/-- SEL, SELI and ENC, which write SEL and SELV (R403, R704). -/
def writesSelection : Instr → Bool
  | .sel _ _ => true
  | .seli _ => true
  | .enc _ => true
  | .gfadd _ _ => false
  | .gfmul _ _ => false
  | .gfscl _ _ => false
  | .aenc => false
  | .pad => false
  | .rsgen _ => false
  | .rsenc => false
  | .place => false

/-- RSGEN and ENC, which write GEN and GEN_E (R113, R123). -/
def writesGenerator : Instr → Bool
  | .rsgen _ => true
  | .enc _ => true
  | .gfadd _ _ => false
  | .gfmul _ _ => false
  | .gfscl _ _ => false
  | .sel _ _ => false
  | .seli _ => false
  | .aenc => false
  | .pad => false
  | .rsenc => false
  | .place => false

/-- PLACE and ENC, which write BM, ASG and PLACE_USED and may set MVALID (R114, R125, R126, R128). -/
def writesPlacement : Instr → Bool
  | .place => true
  | .enc _ => true
  | .gfadd _ _ => false
  | .gfmul _ _ => false
  | .gfscl _ _ => false
  | .sel _ _ => false
  | .seli _ => false
  | .aenc => false
  | .pad => false
  | .rsgen _ => false
  | .rsenc => false

/-- AENC, PAD and ENC, which write CW_COUNT (R110). -/
def writesCount : Instr → Bool
  | .aenc => true
  | .pad => true
  | .enc _ => true
  | .gfadd _ _ => false
  | .gfmul _ _ => false
  | .gfscl _ _ => false
  | .sel _ _ => false
  | .seli _ => false
  | .rsgen _ => false
  | .rsenc => false
  | .place => false

/-- RSENC and ENC, which use ACC (R124). -/
def writesAccumulator : Instr → Bool
  | .rsenc => true
  | .enc _ => true
  | .gfadd _ _ => false
  | .gfmul _ _ => false
  | .gfscl _ _ => false
  | .sel _ _ => false
  | .seli _ => false
  | .aenc => false
  | .pad => false
  | .rsgen _ => false
  | .place => false

/-- AENC, PAD, RSENC and ENC, which write CW (R122). -/
def writesCodewords (i : Instr) : Bool := writesCount i || writesAccumulator i

/-! ### The host address map, as ranges of byte addresses -/

/-- The byte address is in a row of the address map (R201). -/
def Mapped (a : Nat) : Prop :=
  a ≤ 0x37 ∨ (0x4000 ≤ a ∧ a ≤ 0x70AF) ∨ (0x8000 ≤ a ∧ a ≤ 0xA207) ∨ (0xC000 ≤ a ∧ a ≤ 0xC113) ∨
  (0xD000 ≤ a ∧ a ≤ 0xD3FF) ∨ (0xD400 ≤ a ∧ a ≤ 0xD7FF) ∨ (0x10000 ≤ a ∧ a ≤ 0x2103F) ∨
  (0x30000 ≤ a ∧ a ≤ 0x4103F)

/-- The byte address is of a read-only location: ID, RESULT, SEL, ENT0 to ENT3, GEN_E, PLACE_USED,
and the GEN, LOG, ALOG, BM and ASG windows (R212). -/
def ReadOnly (a : Nat) : Prop :=
  a = 0x0 ∨ a = 0x10 ∨ (0x1C ≤ a ∧ a ≤ 0x37) ∨ (0xC000 ≤ a ∧ a ≤ 0xC113) ∨
  (0xD000 ≤ a ∧ a ≤ 0xD7FF) ∨ (0x10000 ≤ a ∧ a ≤ 0x2103F) ∨ (0x30000 ≤ a ∧ a ≤ 0x4103F)

/-- The byte address is of an input the host may store to: TXT_LEN, CW_COUNT, TXT or CW (R214). -/
def InputAddress (a : Nat) : Prop :=
  a = 0x14 ∨ a = 0x18 ∨ (0x4000 ≤ a ∧ a ≤ 0x70AF) ∨ (0x8000 ≤ a ∧ a ≤ 0xA207)

/-- The byte address is of a location whose reads return a draw while BUSY = 1 (R215). -/
def DrawAddress (a : Nat) : Prop :=
  a = 0x10 ∨ (0x18 ≤ a ∧ a ≤ 0x37) ∨ (0x8000 ≤ a ∧ a ≤ 0xA207) ∨ (0xC000 ≤ a ∧ a ≤ 0xC113) ∨
  (0x10000 ≤ a ∧ a ≤ 0x2103F) ∨ (0x30000 ≤ a ∧ a ≤ 0x4103F)

/-- The word the host's aligned 32-bit read of byte address a returns in state s. -/
def readAt (a : Nat) (s : State) : Word := (busRead .word (BitVec.ofNat 20 a) s).readData

/-! ### A command issued on the bus, to its completion -/

/-- The command i issued and completed: its word accepted (R701), then the completion step (R702);
none if the step stops. -/
def issueAndComplete (i : Instr) (s : State) : Option State :=
  match exec i (accept (encode i) s) with
  | .next t => some t
  | .fault _ => none
  | .refused _ => none

/-- The next command of a host sequence that stops at the first command that raises (R651). -/
def thenCommand (o : Option State) (command : State → Instr) : Option State :=
  match o with
  | none => none
  | some s => if s.err then some s else issueAndComplete (command s) s

/-- The component commands of R651 in order, the state after the last one that ran. -/
def componentSequence (rect : Bool) (s : State) : Option State :=
  thenCommand (thenCommand (thenCommand (thenCommand (thenCommand
    (issueAndComplete .aenc s)
    (fun t => .sel rect t.cwCount))
    (fun _ => .pad))
    (fun t => .rsgen (BitVec.ofNat 8 (selected t).eBlk)))
    (fun _ => .rsenc))
    (fun _ => .place)

end Sys2Proof.Machine
end

