-- ==== Sys2Proof/Certificates/Slice0/Obligations.lean ====
section
/-! DEFINITION. The statements for the provers, in the order of OBLIGATIONS.json. Each docstring
names the rules of spec/ the statement rests on. -/

open Sys2Proof Sys2Proof.Machine

/-! ### Encoding and decoding -/

/-- Decoding the word of any command gives the command back, every operand at every value its field
admits (R308, R309, R703). -/
def Obligations.DecodeOfEncode : Prop := ∀ i : Instr, decode (encode i) = .command i

/-- A legal word is the word of the command it decodes to: no bit of it is dropped (R302 to R309). -/
def Obligations.EncodeOfDecode : Prop :=
  ∀ (w : Word) (i : Instr), decode w = .command i → encode i = w

/-- A word is legal exactly when it matches one row of the opcode map; every word with an unassigned
OP, or with a listed OP that matches no row, is illegal; an illegal word completes with
ILLEGAL_COMMAND (3) and changes no state other than STATUS; the CMD read-back keeps the word; the
all-zero word is illegal (R310, R712). -/
def Obligations.IllegalWordsComplete : Prop :=
  (∀ w : Word, (∃ i, decode w = .command i) ↔
    ∃ r ∈ opcodeTable, r.fits w = true ∧ ∀ r' ∈ opcodeTable, r'.fits w = true → r' = r) ∧
  (∀ w : Word, opField w ∉ [0x01#8, 0x02#8, 0x03#8, 0x10#8, 0x11#8, 0x20#8, 0x21#8, 0x30#8, 0x31#8,
    0x40#8, 0x50#8] → ∃ why, decode w = .illegal why) ∧
  (∃ why, decode 0#32 = .illegal why) ∧
  (∀ (w : Word) (why : IllegalWord) (s : State), decode w = .illegal why → s.pending = some w →
    sequencerTurn s = .next { s with pending := none, done := true, err := true, errCode := 3#4 }) ∧
  (∀ (w : Word) (why : IllegalWord) (s : State), decode w = .illegal why →
    ∃ t, sequencerTurn (accept w s) = .next t ∧ t.cmd = w)

/-- Words written out from the bit patterns of R309 decode to the commands they stand for: one for
each row of the opcode map. -/
def Obligations.SpecWordsDecode : Prop :=
  decode 0b00000001010100111100101000000000#32 = .command (.gfadd 83 202) ∧
  decode 0b00000010000000101000000000000000#32 = .command (.gfmul 2 128) ∧
  decode 0b00000011000000010000010100000000#32 = .command (.gfscl 1 5) ∧
  decode 0b00010000100000000000000000110001#32 = .command (.sel true 49) ∧
  decode 0b00010001000000000000000000011000#32 = .command (.seli 24) ∧
  decode 0b00100000000000000000000000000000#32 = .command .aenc ∧
  decode 0b00100001000000000000000000000000#32 = .command .pad ∧
  decode 0b00110000000000000000000000000101#32 = .command (.rsgen 5) ∧
  decode 0b00110001000000000000000000000000#32 = .command .rsenc ∧
  decode 0b01000000000000000000000000000000#32 = .command .place ∧
  decode 0b01010000100000000000000000000000#32 = .command (.enc true)

/-! ### Steps -/

/-- When the pending word decodes to a command and the sequencer has the turn, the step is exec of
that command, less the turn itself; and the word that withFetchWord issues is what the next step
runs, from the state its acceptance leaves (R701, R702, R703). What stands in s.inputs is the model's
choice (log entry 3, DESIGN CHOICE): the spec leaves the order of host accesses and completions open,
an empty list gives the sequencer the turn, and withFetchWord stands for a CMD write to an idle core:
on a busy one it replaces the pending word, where R701 and R214 would drop the write. -/
def Obligations.StepRunsDecodedCommand : Prop :=
  (∀ (s : State) (w : Word) (i : Instr), s.pending = some w → decode w = .command i →
    (s.inputs = [] → step s = exec i s) ∧
    (∀ rest, s.inputs = .sequencerTurn :: rest → step s = exec i { s with inputs := rest })) ∧
  (∀ (s : State) (n : Nat) (i : Instr), decode (tableWord 32 n) = .command i →
    step (s.withFetchWord 32 n) = exec i (accept (tableWord 32 n) s))

/-- Every step has a next state: no host access and no command word is refused, and none faults (R312,
R850). The other clauses are the model's choice of what a step is (log entry 3, DESIGN CHOICE; R700,
R702 and R754 leave the order of events open): the event listed first in s.inputs is the step, an
empty list is a turn of the sequencer; a host access is done as hostAccess does it; a turn is
sequencerTurn of the state less the turn, whatever is pending, a legal or an illegal word or none;
with no command pending a turn changes nothing. -/
def Obligations.EveryStepIsDefined : Prop :=
  (∀ s : State, SafeOutcome (step s)) ∧
  (∀ (s : State) (a : HostAccess) (rest : List HostEvent), s.inputs = .access a :: rest →
    step s = .next (hostAccess a { s with inputs := rest })) ∧
  (∀ s : State, (s.inputs = [] → step s = sequencerTurn s) ∧
    (∀ rest, s.inputs = .sequencerTurn :: rest →
      step s = sequencerTurn { s with inputs := rest })) ∧
  (∀ s : State, s.pending = none →
    (s.inputs = [] → step s = .next s) ∧
    (∀ rest, s.inputs = .sequencerTurn :: rest → step s = .next { s with inputs := rest }))

/-- Every command completes, from every state: BUSY <- 0, DONE <- 1, and either no error, with ERR
and ERRCODE as they were, or ERR = 1 with one of the codes 1 to 5. No command writes CTRL, CMD,
TXT_LEN, TXT, the sticky bits, the host's coming accesses or the returned word (R702, R711, R104,
R109, R120). -/
def Obligations.EveryCommandCompletes : Prop :=
  ∀ (i : Instr) (s : State), ∃ t, exec i s = .next t ∧
    t.pending = none ∧ t.done = true ∧
    ((t.err = s.err ∧ t.errCode = s.errCode) ∨
      (t.err = true ∧ 1 ≤ t.errCode.toNat ∧ t.errCode.toNat ≤ 5)) ∧
    t.ie = s.ie ∧ t.cmd = s.cmd ∧ t.txtLen = s.txtLen ∧ t.txt = s.txt ∧ t.cmdLost = s.cmdLost ∧
    t.wrLost = s.wrLost ∧ t.busErr = s.busErr ∧ t.inputs = s.inputs ∧ t.readData = s.readData

/-- Each register and memory is written only by the commands the spec names for it: RESULT by the GF
commands, CW_COUNT by AENC, PAD and ENC, SEL and SELV by SEL, SELI and ENC, GEN and GEN_E by RSGEN
and ENC, PLACE_USED, BM and ASG by PLACE and ENC, CW by AENC, PAD, RSENC and ENC, ACC by RSENC and
ENC (R108, R110, R111, R113, R114, R122 to R126, R403). -/
def Obligations.CommandsWriteOnlyTheirOwn : Prop :=
  ∀ (i : Instr) (s t : State), exec i s = .next t →
    (isGf i = false → t.result = s.result) ∧
    (writesCount i = false → t.cwCount = s.cwCount) ∧
    (writesSelection i = false → t.selIdx = s.selIdx ∧ t.selv = s.selv) ∧
    (writesGenerator i = false → t.gen = s.gen ∧ t.genE = s.genE) ∧
    (writesPlacement i = false → t.placeUsed = s.placeUsed ∧ t.bm = s.bm ∧ t.asg = s.asg) ∧
    (writesCodewords i = false → t.cw = s.cw) ∧
    (writesAccumulator i = false → t.acc = s.acc)

/-- The first effect of every legal command other than GFADD, GFMUL and GFSCL is MVALID <- 0: what it
leaves does not depend on the MVALID before it; only PLACE and ENC leave it 1. The GF commands leave
MVALID as it was, and an illegal word changes neither MVALID nor SELV. SELV is written by no other
command than SEL, SELI and ENC, and by no host access but a soft reset, which clears it (R704). -/
def Obligations.MvalidAndSelvRule : Prop :=
  (∀ (i : Instr) (s : State), isGf i = false → exec i s = exec i { s with mvalid := false }) ∧
  (∀ (i : Instr) (s t : State), exec i s = .next t → isGf i = false → writesPlacement i = false →
    t.mvalid = false) ∧
  (∀ (i : Instr) (s t : State), exec i s = .next t → isGf i = true → t.mvalid = s.mvalid) ∧
  (∀ (i : Instr) (s t : State), exec i s = .next t → writesSelection i = false → t.selv = s.selv) ∧
  (∀ (w : Word) (why : IllegalWord) (s t : State), s.pending = some w → decode w = .illegal why →
    sequencerTurn s = .next t → t.mvalid = s.mvalid ∧ t.selv = s.selv) ∧
  (∀ (a : HostAccess) (s : State), (hostAccess a s).selv = s.selv ∨
    ((hostAccess a s).selv = false ∧
      ∃ v : Word, a = .write .word 0x00004#20 v ∧ v.getLsbD 1 = true))

/-! ### The host interface -/

/-- A CMD write while BUSY = 0 is accepted at once and changes only the read-back, DONE, ERR, ERRCODE
and the pending command; while BUSY = 1 it is dropped and sets CMDLOST, and nothing else (R701). -/
def Obligations.CommandAcceptance : Prop :=
  ∀ (s : State) (v : Word),
    (s.pending = none → hostAccess (.write .word 0x0000C#20 v) s =
      { s with cmd := v, done := false, err := false, errCode := 0#4, pending := some v }) ∧
    (∀ w, s.pending = some w → hostAccess (.write .word 0x0000C#20 v) s = { s with cmdLost := true })

/-- A STATUS write clears DONE by bit 1, ERR and ERRCODE by bit 2, CMDLOST by bit 8, WRLOST by bit 9
and BUSERR by bit 10, and changes nothing else, whether or not a command is pending (R106). -/
def Obligations.StatusWriteOneToClear : Prop :=
  ∀ (s : State) (v : Word), hostAccess (.write .word 0x00008#20 v) s =
    { s with
      done := if v.getLsbD 1 then false else s.done
      err := if v.getLsbD 2 then false else s.err
      errCode := if v.getLsbD 2 then 0#4 else s.errCode
      cmdLost := if v.getLsbD 8 then false else s.cmdLost
      wrLost := if v.getLsbD 9 then false else s.wrLost
      busErr := if v.getLsbD 10 then false else s.busErr }

/-- CTRL: a write without SRST sets IE from bit 0 and nothing else, while BUSY = 1 as well; a write
with SRST is a soft reset, whatever its bit 0; a read gives IE in bit 0 and zeros above; the reset
value of IE is 0; no command writes it (R104). -/
def Obligations.ControlRegister : Prop :=
  (∀ (s : State) (v : Word), v.getLsbD 1 = false →
    hostAccess (.write .word 0x00004#20 v) s = { s with ie := v.getLsbD 0 }) ∧
  (∀ (s : State) (v : Word), v.getLsbD 1 = true →
    hostAccess (.write .word 0x00004#20 v) s = softReset s ∧ (softReset s).ie = false) ∧
  (∀ s : State, readAt 0x00004 s = if s.ie then 1#32 else 0#32) ∧
  State.reset.ie = false ∧
  (∀ (i : Instr) (s t : State), exec i s = .next t → t.ie = s.ie)

/-- A soft reset gives every register and flag its reset value, abandons a pending command without
DONE or ERR, and keeps TXT; on an idle core it keeps CW, GEN, BM and ASG too, on a busy one every
element of those four becomes a draw (R802; the draws are the model's free values, log entry 2). -/
def Obligations.SoftResetEffect : Prop :=
  ∀ (s : State) (v : Word), v.getLsbD 1 = true →
    let t := hostAccess (.write .word 0x00004#20 v) s
    (t.ie = false ∧ t.pending = none ∧ t.done = false ∧ t.err = false ∧ t.errCode = 0#4 ∧
      t.cmdLost = false ∧ t.wrLost = false ∧ t.busErr = false ∧ t.selv = false ∧ t.mvalid = false ∧
      t.cmd = 0#32 ∧ t.result = 0#8 ∧ t.txtLen = 0#12 ∧ t.cwCount = 0#12 ∧ t.selIdx.val = 0 ∧
      t.genE = 0#8 ∧ t.placeUsed = 0#12 ∧ t.txt = s.txt) ∧
    (s.pending = none → t.cw = s.cw ∧ t.gen = s.gen ∧ t.bm = s.bm ∧ t.asg = s.asg ∧
      t.draws = s.draws) ∧
    (∀ w, s.pending = some w →
      (∀ j, j < 2178 → Memory.read t.cw j = Config.freeByte (s.draws + j)) ∧
      (∀ j, j < 69 → Memory.read t.gen j = Config.freeByte (s.draws + 2178 + j)) ∧
      (∀ j, j < 17424 → Memory.read t.bm j = Config.freeBit (s.draws + j)) ∧
      (∀ j, j < 17424 → Memory.read t.asg j = Config.freeBit (s.draws + 17424 + j)) ∧
      s.draws + 17424 + 17424 ≤ t.draws)

/-- The reset values of R800, as the host reads them right after a power-on reset and after any soft
reset: ID, then 0 in each of the other thirteen registers; no command is pending and IRQ is 0; the
tables LOG and ALOG read the same in every state. -/
def Obligations.ResetValues : Prop :=
  (∀ s : State, s = State.reset ∨
      (∃ u : State, ∃ v : Word, v.getLsbD 1 = true ∧
        s = hostAccess (.write .word 0x00004#20 v) u) →
    [0x00, 0x04, 0x08, 0x0C, 0x10, 0x14, 0x18, 0x1C, 0x20, 0x24, 0x28, 0x2C, 0x30, 0x34].map
      (fun a => readAt a s) = 0x42470001#32 :: List.replicate 13 0#32 ∧
    s.pending = none ∧ irq s = false ∧ s.selIdx.val = 0) ∧
  (∀ (s : State) (x : Nat), x < 256 →
    readAt (0xD000 + 4 * x) s = (logAt x).setWidth 32 ∧
    readAt (0xD400 + 4 * x) s = (alogAt x).setWidth 32)

/-- Refused accesses: of any size but 32 bits, misaligned, or unmapped: a read returns 0, a write
changes nothing, and BUSERR is set; a write to a read-only location changes nothing and sets BUSERR.
All of it whether or not a command is pending (R210, R211, R212, R213). -/
def Obligations.RefusedAccesses : Prop :=
  ∀ (s : State) (addr : Addr) (v : Word),
    (hostAccess (.read .other addr) s = { s with busErr := true, readData := 0#32 } ∧
      hostAccess (.write .other addr v) s = { s with busErr := true }) ∧
    (addr.toNat % 4 ≠ 0 ∨ ¬ Mapped addr.toNat →
      hostAccess (.read .word addr) s = { s with busErr := true, readData := 0#32 } ∧
      hostAccess (.write .word addr v) s = { s with busErr := true }) ∧
    (addr.toNat % 4 = 0 → ReadOnly addr.toNat →
      hostAccess (.write .word addr v) s = { s with busErr := true })

/-- While BUSY = 0 a read of an aligned mapped address changes nothing but the word the bus returns,
and a second read returns the same word (R216). -/
def Obligations.IdleReadsHaveNoSideEffect : Prop :=
  ∀ (s : State) (addr : Addr), s.pending = none → addr.toNat % 4 = 0 → Mapped addr.toNat →
    ∃ v, hostAccess (.read .word addr) s = { s with readData := v } ∧
      hostAccess (.read .word addr) { s with readData := v } = { s with readData := v }

/-- The windows and the special registers while BUSY = 0. Element i of TXT, CW, GEN, LOG or ALOG is
the word at base + 4 i and reads zero-extended; a write to TXT or CW stores bits 7:0 into that element,
ignoring the bits above, and changes no other element and nothing else; LOG[0] reads 0 and ALOG[255]
reads 1 (R202). CMD reads its 32 bits, RESULT and GEN_E their 8 bits, TXT_LEN, CW_COUNT and PLACE_USED
their 12 bits, zeros above; a write of v to TXT_LEN or CW_COUNT stores v[11:0], whatever its value, and
changes nothing else (R107 to R110, R113, R114). A host read of a mapped word returns that value and
changes nothing but the word the bus returns (R227). -/
def Obligations.WindowElements : Prop :=
  ∀ s : State, s.pending = none →
    (∀ addr : Addr, addr.toNat % 4 = 0 → Mapped addr.toNat →
      hostAccess (.read .word addr) s = { s with readData := readAt addr.toNat s }) ∧
    (readAt 0x0C s = s.cmd ∧ readAt 0x10 s = s.result.setWidth 32 ∧
      readAt 0x14 s = s.txtLen.setWidth 32 ∧ readAt 0x18 s = s.cwCount.setWidth 32 ∧
      readAt 0x30 s = s.genE.setWidth 32 ∧ readAt 0x34 s = s.placeUsed.setWidth 32) ∧
    (∀ v : Word,
      hostAccess (.write .word 0x00014#20 v) s = { s with txtLen := v.extractLsb' 0 12 } ∧
      hostAccess (.write .word 0x00018#20 v) s = { s with cwCount := v.extractLsb' 0 12 }) ∧
    (∀ i, i < 3116 → readAt (0x4000 + 4 * i) s = (Memory.read s.txt i).setWidth 32) ∧
    (∀ i, i < 2178 → readAt (0x8000 + 4 * i) s = (Memory.read s.cw i).setWidth 32) ∧
    (∀ i, i < 69 → readAt (0xC000 + 4 * i) s = (Memory.read s.gen i).setWidth 32) ∧
    (∀ i, i < 256 → readAt (0xD000 + 4 * i) s = (logAt i).setWidth 32) ∧
    (∀ i, i < 256 → readAt (0xD400 + 4 * i) s = (alogAt i).setWidth 32) ∧
    readAt 0xD000 s = 0#32 ∧ readAt 0xD7FC s = 1#32 ∧
    (∀ (i : Nat) (v : Word), i < 3116 →
      ∃ m, hostAccess (.write .word (BitVec.ofNat 20 (0x4000 + 4 * i)) v) s = { s with txt := m } ∧
        ∀ j, Memory.read m j = if j = i then v.setWidth 8 else Memory.read s.txt j) ∧
    (∀ (i : Nat) (v : Word), i < 2178 →
      ∃ m, hostAccess (.write .word (BitVec.ofNat 20 (0x8000 + 4 * i)) v) s = { s with cw := m } ∧
        ∀ j, Memory.read m j = if j = i then v.setWidth 8 else Memory.read s.cw j)

/-- BM and ASG are addressed row-major with the stride 132, whatever entry is selected; a read of a
cell, while BUSY = 0, returns its bit in bit 0 and zeros above (R203). -/
def Obligations.GridCellAddresses : Prop :=
  ∀ (s : State) (r c : Nat), s.pending = none → r < 132 → c < 132 →
    readAt (0x10000 + 4 * (132 * r + c)) s = (Memory.read s.bm (132 * r + c)).setWidth 32 ∧
    readAt (0x30000 + 4 * (132 * r + c)) s = (Memory.read s.asg (132 * r + c)).setWidth 32

/-- While BUSY = 1: a CMD write sets CMDLOST and a write to TXT_LEN, CW_COUNT, TXT or CW sets WRLOST,
and neither changes anything else; a write to CTRL or STATUS takes effect as on an idle core; a write
to a read-only or unmapped location sets BUSERR (R214). -/
def Obligations.WritesWhileBusy : Prop :=
  ∀ (s : State) (w v : Word), s.pending = some w →
    hostAccess (.write .word 0x0000C#20 v) s = { s with cmdLost := true } ∧
    (∀ addr : Addr, addr.toNat % 4 = 0 → InputAddress addr.toNat →
      hostAccess (.write .word addr v) s = { s with wrLost := true }) ∧
    (v.getLsbD 1 = false → hostAccess (.write .word 0x00004#20 v) s = { s with ie := v.getLsbD 0 }) ∧
    (v.getLsbD 1 = true → hostAccess (.write .word 0x00004#20 v) s = softReset s) ∧
    hostAccess (.write .word 0x00008#20 v) s =
      { s with
        done := s.done && !v.getLsbD 1
        err := s.err && !v.getLsbD 2
        errCode := if v.getLsbD 2 then 0#4 else s.errCode
        cmdLost := s.cmdLost && !v.getLsbD 8
        wrLost := s.wrLost && !v.getLsbD 9
        busErr := s.busErr && !v.getLsbD 10 } ∧
    (∀ addr : Addr, ReadOnly addr.toNat ∨ ¬ Mapped addr.toNat →
      hostAccess (.write .word addr v) s = { s with busErr := true })

/-- While BUSY = 1: ID, CTRL, CMD, TXT_LEN and the TXT, LOG and ALOG windows read as they would on the
idle core, without side effect; STATUS reads BUSY = 1, DONE = 0, ERR = 0, ERRCODE = 0 and the exact
sticky bits, SELV and MVALID; every other mapped location reads a draw, the next free value with the
location's reserved bits 0, and consumes it (R215; the draw is the model's free value, log entry 2).
Which bits of a draw are reserved R215 does not list: for a register the mask takes the fields of R108
to R114, and that the bits above the element of a CW, GEN, BM or ASG window read 0 is the model's own
deduction (log entry 7, DEDUCED, unsafe). -/
def Obligations.ReadsWhileBusy : Prop :=
  ∀ (s : State) (w : Word), s.pending = some w →
    (∀ addr : Addr, addr.toNat % 4 = 0 → Mapped addr.toNat → ¬ DrawAddress addr.toNat →
      addr.toNat ≠ 8 →
      hostAccess (.read .word addr) s =
        { s with readData := readAt addr.toNat { s with pending := none } }) ∧
    (StatusConsistent s →
      hostAccess (.read .word 0x00008#20) s = { s with readData := readAt 8 s } ∧
      (readAt 8 s).toNat = 1 + (if s.cmdLost then 2 ^ 8 else 0) + (if s.wrLost then 2 ^ 9 else 0) +
        (if s.busErr then 2 ^ 10 else 0) + (if s.selv then 2 ^ 16 else 0) +
        (if s.mvalid then 2 ^ 17 else 0)) ∧
    (∀ addr : Addr, addr.toNat % 4 = 0 → DrawAddress addr.toNat →
      ∃ mask : Word, hostAccess (.read .word addr) s =
          { s with readData := Config.freeWord s.draws &&& mask, draws := s.draws + 1 } ∧
        (addr.toNat = 0x10 ∨ addr.toNat = 0x2C ∨ addr.toNat = 0x30 ∨
          (0x8000 ≤ addr.toNat ∧ addr.toNat ≤ 0xC113) → mask = 0xFF#32) ∧
        (addr.toNat = 0x18 ∨ addr.toNat = 0x34 → mask = 0xFFF#32) ∧
        (addr.toNat = 0x1C → mask = 0x11F#32) ∧ (addr.toNat = 0x20 → mask = 0x07FF07FF#32) ∧
        (addr.toNat = 0x24 → mask = 0x0FFFFFFF#32) ∧ (addr.toNat = 0x28 → mask = 0xFFFFFFFF#32) ∧
        (0x10000 ≤ addr.toNat → mask = 1#32))

/-- STATUS holds its fields at the bits of R105, and every other bit of it reads 0. -/
def Obligations.StatusLayout : Prop :=
  ∀ s : State, (readAt 8 s).toNat = (if s.pending.isSome then 1 else 0) + (if s.done then 2 else 0) +
    (if s.err then 4 else 0) + s.errCode.toNat * 2 ^ 4 + (if s.cmdLost then 2 ^ 8 else 0) +
    (if s.wrLost then 2 ^ 9 else 0) + (if s.busErr then 2 ^ 10 else 0) +
    (if s.selv then 2 ^ 16 else 0) + (if s.mvalid then 2 ^ 17 else 0)

/-- SEL and ENT0 to ENT3 while BUSY = 0: with an entry selected SEL reads its index and, from index 24
on, RECT in bit 8, and the ENT registers read the entry's fields in the layout of R112 and zeros
elsewhere; without a selection all five read 0 (R111, R112). -/
def Obligations.SelectionViews : Prop :=
  ∀ s : State, s.pending = none →
    (s.selv = false → ∀ a ∈ [0x1C, 0x20, 0x24, 0x28, 0x2C], readAt a s = 0#32) ∧
    (s.selv = true →
      let e := capEntry s.selIdx
      (readAt 0x1C s).toNat = s.selIdx.val + (if 24 ≤ s.selIdx.val then 2 ^ 8 else 0) ∧
      (readAt 0x20 s).toNat = e.dataCw + e.errCw * 2 ^ 16 ∧
      e.dataCw < 2 ^ 11 ∧ e.errCw < 2 ^ 11 ∧
      (readAt 0x24 s).toNat = e.symRows + e.symCols * 2 ^ 8 + e.regRows * 2 ^ 16 +
        e.regCols * 2 ^ 20 + e.blocks * 2 ^ 24 ∧
      e.symRows < 2 ^ 8 ∧ e.symCols < 2 ^ 8 ∧ e.regRows < 2 ^ 4 ∧ e.regCols < 2 ^ 4 ∧
      e.blocks < 2 ^ 4 ∧
      (readAt 0x28 s).toNat = e.drRows + e.drCols * 2 ^ 8 + e.mapRows * 2 ^ 16 +
        e.mapCols * 2 ^ 24 ∧
      e.drRows < 2 ^ 8 ∧ e.drCols < 2 ^ 8 ∧ e.mapRows < 2 ^ 8 ∧ e.mapCols < 2 ^ 8 ∧
      (readAt 0x2C s).toNat = e.errCw / e.blocks ∧ e.errCw / e.blocks < 2 ^ 8)

/-- Host accesses other than a soft reset write no result: SEL, SELV, MVALID, RESULT, GEN, GEN_E,
PLACE_USED, BM, ASG and ACC are as they were. SEL, SELV and MVALID: R111, R128, so MVALID stays 1
after a write to CW or TXT; RESULT, GEN_E and PLACE_USED, which only commands write: R108, R113, R114;
GEN: R123; BM and ASG: R125, R126, R824; ACC, which no address reaches: R124; reads of an idle core
have no side effect: R216. -/
def Obligations.HostAccessesKeepResults : Prop :=
  ∀ (a : HostAccess) (s : State),
    (∀ v : Word, a = .write .word 0x00004#20 v → v.getLsbD 1 = false) →
    let t := hostAccess a s
    t.selIdx = s.selIdx ∧ t.selv = s.selv ∧ t.mvalid = s.mvalid ∧ t.result = s.result ∧
    t.gen = s.gen ∧ t.genE = s.genE ∧ t.placeUsed = s.placeUsed ∧ t.bm = s.bm ∧ t.asg = s.asg ∧
    t.acc = s.acc

/-- IRQ = CTRL.IE and STATUS.DONE at every moment: every completion, with or without error, asserts it
while IE = 1; a STATUS write with bit 1, the acceptance of a command, a CTRL write with IE = 0 and a
reset deassert it (R730). -/
def Obligations.InterruptLevel : Prop :=
  (∀ s : State, irq s = (s.ie && s.done)) ∧
  (∀ (s t : State) (w : Word), s.pending = some w → sequencerTurn s = .next t → irq t = s.ie) ∧
  (∀ (s : State) (v : Word), v.getLsbD 1 = true →
    irq (hostAccess (.write .word 0x00008#20 v) s) = false) ∧
  (∀ (s : State) (v : Word), s.pending = none →
    irq (hostAccess (.write .word 0x0000C#20 v) s) = false) ∧
  (∀ (s : State) (v : Word), v.getLsbD 0 = false →
    irq (hostAccess (.write .word 0x00004#20 v) s) = false) ∧
  (∀ (s : State) (v : Word), v.getLsbD 1 = true →
    irq (hostAccess (.write .word 0x00004#20 v) s) = false) ∧
  irq State.reset = false

/-! ### GF(256) arithmetic -/

/-- GFADD, its encoding and its operands A = cmd[23:16] and B = cmd[15:8]: RESULT <- A xor B, nothing
else is written, and no error is raised (R500). -/
def Obligations.GfaddResult : Prop :=
  (∀ w : Word, w &&& 0xFF0000FF#32 = 0x01000000#32 →
    decode w = .command (.gfadd (w.extractLsb' 16 8) (w.extractLsb' 8 8))) ∧
  (∀ (a b : Byte) (s : State), exec (.gfadd a b) s = .next (finished { s with result := a ^^^ b }))

/-- GFMUL, its encoding and its operands A = cmd[23:16] and B = cmd[15:8]: RESULT <- gf_mul(A, B), the
zero tests first, then the tables; nothing else is written, and no error is raised (R510). -/
def Obligations.GfmulResult : Prop :=
  (∀ w : Word, w &&& 0xFF0000FF#32 = 0x02000000#32 →
    decode w = .command (.gfmul (w.extractLsb' 16 8) (w.extractLsb' 8 8))) ∧
  (∀ (a b : Byte) (s : State), exec (.gfmul a b) s = .next (finished { s with
    result := if a = 0#8 ∨ b = 0#8 then 0#8
      else alogAt (((logAt a.toNat).toNat + (logAt b.toNat).toNat) % 255) }))

/-- GFSCL, its encoding, its operand A = cmd[23:16] and its exponent B = cmd[15:8]: RESULT <- gf_scl(A,
B); nothing else is written, and no error is raised (R520). -/
def Obligations.GfsclResult : Prop :=
  (∀ w : Word, w &&& 0xFF0000FF#32 = 0x03000000#32 →
    decode w = .command (.gfscl (w.extractLsb' 16 8) (w.extractLsb' 8 8))) ∧
  (∀ (a b : Byte) (s : State), exec (.gfscl a b) s = .next (finished { s with
    result := if a = 0#8 then 0#8 else if b = 0#8 then a
      else alogAt (((logAt a.toNat).toNat + b.toNat) % 255) }))

/-- The antilog table is the powers of alpha = 2 modulo 0x12D, the log table its inverse, and the two
entries no rule reads are ALOG[255] = 1 and LOG[0] = 0 (R130, R131). -/
def Obligations.TablesAreThePowersOfAlpha : Prop :=
  alogAt 0 = 1#8 ∧
  (∀ x, x < 254 → (alogAt (x + 1)).toNat =
    if 256 ≤ 2 * (alogAt x).toNat then (2 * (alogAt x).toNat) ^^^ 0x12D else 2 * (alogAt x).toNat) ∧
  (∀ a, 1 ≤ a → a ≤ 255 → (logAt a).toNat ≤ 254 ∧ (alogAt (logAt a).toNat).toNat = a) ∧
  (∀ x, x ≤ 254 → (logAt (alogAt x).toNat).toNat = x) ∧
  alogAt 255 = 1#8 ∧ logAt 0 = 0#8

/-- gf_mul is the product of polynomials over GF(2) reduced modulo x^8 + x^5 + x^3 + x^2 + 1, for
every pair of operands; so the shift-and-reduce multiplication and the tables agree, and GFMUL writes
it (R531). -/
def Obligations.GfMulIsTheFieldProduct : Prop :=
  (∀ a b : Byte, gfMul a b = fieldProduct a b) ∧
  (∀ (a b : Byte) (s : State),
    exec (.gfmul a b) s = .next (finished { s with result := fieldProduct a b }))

/-- The field laws of R532: gf_add and gf_mul are commutative and associative with identities 0 and 1,
gf_mul distributes over gf_add, every element but 0 has the inverse R532 names, and gf_scl is
multiplication by a power of alpha. -/
def Obligations.FieldLaws : Prop :=
  (∀ a b : Byte, gfAdd a b = gfAdd b a ∧ gfMul a b = gfMul b a) ∧
  (∀ a b c : Byte, gfAdd (gfAdd a b) c = gfAdd a (gfAdd b c) ∧
    gfMul (gfMul a b) c = gfMul a (gfMul b c)) ∧
  (∀ a : Byte, gfAdd a 0#8 = a ∧ gfMul a 1#8 = a) ∧
  (∀ a b c : Byte, gfMul a (gfAdd b c) = gfAdd (gfMul a b) (gfMul a c)) ∧
  (∀ a : Byte, a ≠ 0#8 → gfMul a (alogAt ((255 - (logAt a.toNat).toNat) % 255)) = 1#8) ∧
  (∀ (a : Byte) (b : Nat), gfScl a b = gfMul a (alogAt (b % 255)))

/-! ### Selection -/

/-- The capacity table, row by row as R140 lists it (SYM_ROWS, SYM_COLS, DATA_CW, ERR_CW, REG_ROWS,
REG_COLS, DR_ROWS, DR_COLS, BLOCKS, MAP_ROWS, MAP_COLS, E_BLK), and the relations every entry
satisfies (R141). -/
def Obligations.CapacityTable : Prop :=
  (List.finRange Config.nEntries).map (fun n =>
    let e := capEntry n
    [e.symRows, e.symCols, e.dataCw, e.errCw, e.regRows, e.regCols, e.drRows, e.drCols, e.blocks,
     e.mapRows, e.mapCols, e.eBlk]) =
    [[10, 10, 3, 5, 1, 1, 8, 8, 1, 8, 8, 5], [12, 12, 5, 7, 1, 1, 10, 10, 1, 10, 10, 7],
     [14, 14, 8, 10, 1, 1, 12, 12, 1, 12, 12, 10], [16, 16, 12, 12, 1, 1, 14, 14, 1, 14, 14, 12],
     [18, 18, 18, 14, 1, 1, 16, 16, 1, 16, 16, 14], [20, 20, 22, 18, 1, 1, 18, 18, 1, 18, 18, 18],
     [22, 22, 30, 20, 1, 1, 20, 20, 1, 20, 20, 20], [24, 24, 36, 24, 1, 1, 22, 22, 1, 22, 22, 24],
     [26, 26, 44, 28, 1, 1, 24, 24, 1, 24, 24, 28], [32, 32, 62, 36, 2, 2, 14, 14, 1, 28, 28, 36],
     [36, 36, 86, 42, 2, 2, 16, 16, 1, 32, 32, 42], [40, 40, 114, 48, 2, 2, 18, 18, 1, 36, 36, 48],
     [44, 44, 144, 56, 2, 2, 20, 20, 1, 40, 40, 56],
     [48, 48, 174, 68, 2, 2, 22, 22, 1, 44, 44, 68],
     [52, 52, 204, 84, 2, 2, 24, 24, 2, 48, 48, 42],
     [64, 64, 280, 112, 4, 4, 14, 14, 2, 56, 56, 56],
     [72, 72, 368, 144, 4, 4, 16, 16, 4, 64, 64, 36],
     [80, 80, 456, 192, 4, 4, 18, 18, 4, 72, 72, 48],
     [88, 88, 576, 224, 4, 4, 20, 20, 4, 80, 80, 56],
     [96, 96, 696, 272, 4, 4, 22, 22, 4, 88, 88, 68],
     [104, 104, 816, 336, 4, 4, 24, 24, 6, 96, 96, 56],
     [120, 120, 1050, 408, 6, 6, 18, 18, 6, 108, 108, 68],
     [132, 132, 1304, 496, 6, 6, 20, 20, 8, 120, 120, 62],
     [144, 144, 1558, 620, 6, 6, 22, 22, 10, 132, 132, 62],
     [8, 18, 5, 7, 1, 1, 6, 16, 1, 6, 16, 7], [8, 32, 10, 11, 1, 2, 6, 14, 1, 6, 28, 11],
     [12, 26, 16, 14, 1, 1, 10, 24, 1, 10, 24, 14], [12, 36, 22, 18, 1, 2, 10, 16, 1, 10, 32, 18],
     [16, 36, 32, 24, 1, 2, 14, 16, 1, 14, 32, 24], [16, 48, 49, 28, 1, 2, 14, 22, 1, 14, 44, 28]] ∧
  ∀ n : Fin Config.nEntries,
    let e := capEntry n
    e.symRows = e.regRows * (e.drRows + 2) ∧ e.symCols = e.regCols * (e.drCols + 2) ∧
    e.mapRows * e.mapCols =
      8 * (e.dataCw + e.errCw) + (if (e.mapRows * e.mapCols) % 8 = 4 then 4 else 0) ∧
    e.errCw % e.blocks = 0 ∧
    ((e.mapRows * e.mapCols) % 8 = 4 ↔ n.val = 1 ∨ n.val = 3 ∨ n.val = 5 ∨ n.val = 7)

/-- SEL, its encoding, RECT = cmd[23] and LEN = cmd[11:0]: with LEN at most the shape's largest capacity the smallest entry of the shape that holds LEN
codewords is selected; with a greater LEN, CAPACITY_EXCEEDED (1) and no selection is left. Nothing
but SEL.IDX, SELV and MVALID is written (R400). -/
def Obligations.SelOutcome : Prop :=
  (∀ w : Word, w &&& 0xFF7FF000#32 = 0x10000000#32 →
    decode w = .command (.sel (w.getLsbD 23) (w.extractLsb' 0 12))) ∧
  ∀ (rect : Bool) (len : BitVec 12) (s : State),
    (len.toNat ≤ (if rect then 49 else 1558) → ∃ n, Smallest rect len.toNat n ∧
      exec (.sel rect len) s =
        .next (finished { s with mvalid := false, selIdx := n, selv := true })) ∧
    ((if rect then 49 else 1558) < len.toNat → ∃ zero : Fin Config.nEntries, zero.val = 0 ∧
      exec (.sel rect len) s =
        .next (failed 1#4 { s with mvalid := false, selIdx := zero, selv := false }))

/-- The entry SEL selects for every LEN of either shape, range by range, with the size of its symbol,
and the lengths it refuses (R402). -/
def Obligations.SelLengthTable : Prop :=
  ∀ row ∈ ([(false, 0, 3, 0, 10, 10), (false, 4, 5, 1, 12, 12), (false, 6, 8, 2, 14, 14),
      (false, 9, 12, 3, 16, 16), (false, 13, 18, 4, 18, 18), (false, 19, 22, 5, 20, 20),
      (false, 23, 30, 6, 22, 22), (false, 31, 36, 7, 24, 24), (false, 37, 44, 8, 26, 26),
      (false, 45, 62, 9, 32, 32), (false, 63, 86, 10, 36, 36), (false, 87, 114, 11, 40, 40),
      (false, 115, 144, 12, 44, 44), (false, 145, 174, 13, 48, 48), (false, 175, 204, 14, 52, 52),
      (false, 205, 280, 15, 64, 64), (false, 281, 368, 16, 72, 72), (false, 369, 456, 17, 80, 80),
      (false, 457, 576, 18, 88, 88), (false, 577, 696, 19, 96, 96),
      (false, 697, 816, 20, 104, 104), (false, 817, 1050, 21, 120, 120),
      (false, 1051, 1304, 22, 132, 132), (false, 1305, 1558, 23, 144, 144),
      (true, 0, 5, 24, 8, 18), (true, 6, 10, 25, 8, 32), (true, 11, 16, 26, 12, 26),
      (true, 17, 22, 27, 12, 36), (true, 23, 32, 28, 16, 36), (true, 33, 49, 29, 16, 48)] :
      List (Bool × Nat × Nat × Nat × Nat × Nat)),
    ∀ (len : BitVec 12) (s : State), row.2.1 ≤ len.toNat → len.toNat ≤ row.2.2.1 →
      ∃ n : Fin Config.nEntries, n.val = row.2.2.2.1 ∧ (capEntry n).symRows = row.2.2.2.2.1 ∧
        (capEntry n).symCols = row.2.2.2.2.2 ∧
        exec (.sel row.1 len) s =
          .next (finished { s with mvalid := false, selIdx := n, selv := true }) ∧
        (∀ (long : BitVec 12), (if row.1 then 50 else 1559) ≤ long.toNat →
          ∃ t, exec (.sel row.1 long) s = .next t ∧ t.err = true ∧ t.errCode = 1#4)

/-- SELI, its encoding and IDX = cmd[4:0]: an index below 30 is selected; 30 and 31 are a RANGE_ERROR (5) that leaves the selection as
it was. MVALID is cleared either way and nothing else is written (R410, R411). -/
def Obligations.SeliOutcome : Prop :=
  (∀ w : Word, w &&& 0xFFFFFFE0#32 = 0x11000000#32 →
    decode w = .command (.seli (w.extractLsb' 0 5))) ∧
  ∀ (idx : BitVec 5) (s : State),
    (idx.toNat < 30 → ∃ n : Fin Config.nEntries, n.val = idx.toNat ∧
      exec (.seli idx) s = .next (finished { s with mvalid := false, selIdx := n, selv := true })) ∧
    (30 ≤ idx.toNat → exec (.seli idx) s = .next (failed 5#4 { s with mvalid := false }))

/-! ### ASCII encoding and padding -/

/-- AENC: with TXT_LEN at most 3116 and a text of at most 1558 codewords, CW[0 .. n-1] are the text's
codewords, CW_COUNT is n, and nothing else but MVALID is written; a longer TXT_LEN is a RANGE_ERROR
(5) that writes only MVALID; a text of more codewords is CAPACITY_EXCEEDED (1), with CW_COUNT = 0 and
draws in CW[0 .. 1557] only (R450, R452; the draws are the model's free values, log entry 2). -/
def Obligations.AencOutcome : Prop :=
  ∀ s : State,
    (s.txtLen.toNat ≤ 3116 → (textCodewords s).length ≤ 1558 →
      ∃ m, exec .aenc s = .next (finished { s with
          mvalid := false, cw := m, cwCount := BitVec.ofNat 12 (textCodewords s).length }) ∧
        ∀ j, Memory.read m j =
          if j < (textCodewords s).length then (textCodewords s).getD j 0 else Memory.read s.cw j) ∧
    (3116 < s.txtLen.toNat → exec .aenc s = .next (failed 5#4 { s with mvalid := false })) ∧
    (s.txtLen.toNat ≤ 3116 → 1558 < (textCodewords s).length →
      ∃ m, exec .aenc s = .next (failed 1#4 { s with
          mvalid := false, cw := m, cwCount := 0#12, draws := s.draws + 1558 }) ∧
        ∀ j, Memory.read m j =
          if j < 1558 then Config.freeByte (s.draws + j) else Memory.read s.cw j)

/-- The codewords AENC writes are those of the three rules of the encoder, and the rules give a text no
other codewords; the codewords of each rule lie in the range it names (R453, R454, R455). -/
def Obligations.AsciiCodewordsFollowTheRules : Prop :=
  (∀ text : List Byte, AsciiRules text (asciiCodewords text) ∧
    ∀ out, AsciiRules text out → out = asciiCodewords text) ∧
  (∀ c : Byte, 127 < c.toNat → (c - 127).toNat = c.toNat - 127 ∧ c.toNat - 127 ≤ 128) ∧
  (∀ c d : Nat, 48 ≤ c → c ≤ 57 → 48 ≤ d → d ≤ 57 →
    130 ≤ 130 + 10 * (c - 48) + (d - 48) ∧ 130 + 10 * (c - 48) + (d - 48) ≤ 229) ∧
  (∀ c : Byte, c.toNat ≤ 127 → (c + 1).toNat = c.toNat + 1)

/-- Every codeword AENC writes lies in 1 .. 229 or equals 235, and none is 129 (R456). -/
def Obligations.AsciiCodewordRange : Prop :=
  ∀ text : List Byte, ∀ c ∈ asciiCodewords text,
    ((1 ≤ c.toNat ∧ c.toNat ≤ 229) ∨ c.toNat = 235) ∧ c.toNat ≠ 129

/-- Two texts with the same codewords are the same text: each character is consumed exactly once and
no two texts are encoded alike (R451, R453, R454, R455). -/
def Obligations.AsciiCodewordsDetermineTheText : Prop :=
  ∀ text text' : List Byte, asciiCodewords text = asciiCodewords text' → text = text'

/-- PAD and its encoding: without a selection a SEQUENCE_ERROR (4), with more codewords than the entry holds a
RANGE_ERROR (5), each writing only MVALID; otherwise CW[n] is 129, each later position i below the
capacity C holds the formula of R463 for i, CW_COUNT is C, and nothing else but MVALID is written
(R460, R462, R463, R464). -/
def Obligations.PadOutcome : Prop :=
  decode 0x21000000#32 = .command .pad ∧
  ∀ s : State,
    (s.selv = false → exec .pad s = .next (failed 4#4 { s with mvalid := false })) ∧
    (s.selv = true → (selected s).dataCw < s.cwCount.toNat →
      exec .pad s = .next (failed 5#4 { s with mvalid := false })) ∧
    (s.selv = true → s.cwCount.toNat ≤ (selected s).dataCw →
      ∃ m, exec .pad s = .next (finished { s with
          mvalid := false, cw := m, cwCount := BitVec.ofNat 12 (selected s).dataCw }) ∧
        ∀ j, Memory.read m j =
          if s.cwCount.toNat ≤ j ∧ j < (selected s).dataCw then
            if j = s.cwCount.toNat then 129#8
            else BitVec.ofNat 8 ((129 + ((149 * (j + 1)) % 253) + 1) % 254)
          else Memory.read s.cw j)

/-- The later pad values are exactly 0 .. 128 and 130 .. 253, and they are 0 exactly at the positions
27, 280, 533, 786, 1039, 1292 and 1545 of the data region (R465, R466). -/
def Obligations.PadValueSet : Prop :=
  (∀ v : Byte, (∃ i, padValue i = v) ↔ v.toNat ≤ 253 ∧ v.toNat ≠ 129) ∧
  (∀ i, (padValue i = 0#8 ↔ (149 * (i + 1)) % 253 = 124) ∧
    (padValue i = 0#8 ↔ (i + 1) % 253 = 28) ∧
    (i < 1558 → (padValue i = 0#8 ↔ i ∈ [27, 280, 533, 786, 1039, 1292, 1545])))

/-! ### Reed-Solomon -/

/-- RSGEN, its encoding and E = cmd[7:0]: E = 0 or E > 68 is a RANGE_ERROR (5) that writes only MVALID; otherwise GEN[0 .. E] hold
the generator of degree E, GEN_E is E, and nothing else but MVALID is written (R550, R551). -/
def Obligations.RsgenOutcome : Prop :=
  (∀ w : Word, w &&& 0xFFFFFF00#32 = 0x30000000#32 →
    decode w = .command (.rsgen (w.extractLsb' 0 8))) ∧
  ∀ (e : Byte) (s : State),
    (e = 0#8 ∨ 68 < e.toNat → exec (.rsgen e) s = .next (failed 5#4 { s with mvalid := false })) ∧
    (1 ≤ e.toNat → e.toNat ≤ 68 →
      ∃ m, exec (.rsgen e) s = .next (finished { s with mvalid := false, gen := m, genE := e }) ∧
        ∀ j, Memory.read m j =
          if j ≤ e.toNat then (generator e.toNat).getD j 0 else Memory.read s.gen j)

/-- The generator of degree E has the coefficients of (x + alpha)(x + alpha^2) ... (x + alpha^E), E+1
of them, the leading one 1; RSGEN leaves them in GEN[0 .. E] (R552). -/
def Obligations.GeneratorIsTheRootProduct : Prop :=
  (∀ e, 1 ≤ e → e ≤ 68 → generator e = rootProduct e ∧ (generator e).length = e + 1) ∧
  (∀ (e : Byte) (s : State), 1 ≤ e.toNat → e.toNat ≤ 68 →
    ∃ t, exec (.rsgen e) s = .next t ∧ Memory.read t.gen e.toNat = 1#8 ∧
      ∀ j, j ≤ e.toNat → Memory.read t.gen j = (rootProduct e.toNat).getD j 0)

/-- The generators of every E_BLK value of the capacity table, coefficient by coefficient, GEN[0] first
(R553). -/
def Obligations.GeneratorsAsListed : Prop :=
  (generator 5).map BitVec.toNat = [228, 48, 15, 111, 62, 1] ∧
  (generator 7).map BitVec.toNat = [23, 68, 144, 134, 240, 92, 254, 1] ∧
  (generator 10).map BitVec.toNat = [28, 24, 185, 166, 223, 248, 116, 255, 110, 61, 1] ∧
  (generator 11).map BitVec.toNat = [175, 138, 205, 12, 194, 168, 39, 245, 60, 97, 120, 1] ∧
  (generator 12).map BitVec.toNat = [41, 153, 158, 91, 61, 42, 142, 213, 97, 178, 100, 242, 1] ∧
  (generator 14).map BitVec.toNat = [156, 97, 192, 252, 95, 9, 157, 119, 138, 45, 18, 186, 83, 185,
    1] ∧
  (generator 18).map BitVec.toNat = [83, 195, 100, 39, 188, 75, 66, 61, 241, 213, 109, 129, 94,
    254, 225, 48, 90, 188, 1] ∧
  (generator 20).map BitVec.toNat = [15, 195, 244, 9, 233, 71, 168, 2, 188, 160, 153, 145, 253, 79,
    108, 82, 27, 174, 186, 172, 1] ∧
  (generator 24).map BitVec.toNat = [52, 190, 88, 205, 109, 39, 176, 21, 155, 197, 251, 223, 155,
    21, 5, 172, 254, 124, 12, 181, 184, 96, 50, 193, 1] ∧
  (generator 28).map BitVec.toNat = [211, 231, 43, 97, 71, 96, 103, 174, 37, 151, 170, 53, 75, 34,
    249, 121, 17, 138, 110, 213, 141, 136, 120, 151, 233, 168, 93, 255, 1] ∧
  (generator 36).map BitVec.toNat = [245, 127, 242, 218, 130, 250, 162, 181, 102, 120, 84, 179,
    220, 251, 80, 182, 229, 18, 2, 4, 68, 33, 101, 137, 95, 119, 115, 44, 175, 184, 59, 25, 225,
    98, 81, 112, 1] ∧
  (generator 42).map BitVec.toNat = [77, 193, 137, 31, 19, 38, 22, 153, 247, 105, 122, 2, 245, 133,
    242, 8, 175, 95, 100, 9, 167, 105, 214, 111, 57, 121, 21, 1, 253, 57, 54, 101, 248, 202, 69,
    50, 150, 177, 226, 5, 9, 5, 1] ∧
  (generator 48).map BitVec.toNat = [245, 132, 172, 223, 96, 32, 117, 22, 238, 133, 238, 231, 205,
    188, 237, 87, 191, 106, 16, 147, 118, 23, 37, 90, 170, 205, 131, 88, 120, 100, 66, 138, 186,
    240, 82, 44, 176, 87, 187, 147, 160, 175, 69, 213, 92, 253, 225, 19, 1] ∧
  (generator 56).map BitVec.toNat = [175, 9, 223, 238, 12, 17, 220, 208, 100, 29, 175, 170, 230,
    192, 215, 235, 150, 159, 36, 223, 38, 200, 132, 54, 228, 146, 218, 234, 117, 203, 29, 232, 144,
    238, 22, 150, 201, 117, 62, 207, 164, 13, 137, 245, 127, 67, 247, 28, 155, 43, 203, 107, 233,
    53, 143, 46, 1] ∧
  (generator 62).map BitVec.toNat = [242, 93, 169, 50, 144, 210, 39, 118, 202, 188, 201, 189, 143,
    108, 196, 37, 185, 112, 134, 230, 245, 63, 197, 190, 250, 106, 185, 221, 175, 64, 114, 71, 161,
    44, 147, 6, 27, 218, 51, 63, 87, 10, 40, 130, 188, 17, 163, 31, 176, 170, 4, 107, 232, 7, 94,
    166, 224, 124, 86, 47, 11, 204, 1] ∧
  (generator 68).map BitVec.toNat = [220, 228, 173, 89, 251, 149, 159, 56, 89, 33, 147, 244, 154,
    36, 73, 127, 213, 136, 248, 180, 234, 197, 158, 177, 68, 122, 93, 213, 15, 160, 227, 236, 66,
    139, 153, 185, 202, 167, 179, 25, 220, 232, 96, 210, 231, 136, 223, 239, 181, 241, 59, 52, 172,
    25, 49, 232, 211, 189, 64, 54, 108, 153, 132, 63, 96, 103, 82, 186, 1]

/-- RSENC and its encoding: without a selection, with GEN_E other than E_BLK, or with CW_COUNT other than DATA_CW, a
SEQUENCE_ERROR (4) that writes only MVALID; otherwise error codeword m of block k is ACC[E-1-m] after
the block's data codewords and stands at CW[D + k + mN], and no other element of CW, and nothing else
but MVALID and the internal ACC, is written (R560). -/
def Obligations.RsencOutcome : Prop :=
  decode 0x31000000#32 = .command .rsenc ∧
  ∀ s : State,
    (s.selv = false ∨ s.genE.toNat ≠ (selected s).eBlk ∨ s.cwCount.toNat ≠ (selected s).dataCw →
      exec .rsenc s = .next (failed 4#4 { s with mvalid := false })) ∧
    (s.selv = true → s.genE.toNat = (selected s).eBlk → s.cwCount.toNat = (selected s).dataCw →
      ∃ m a, exec .rsenc s = .next (finished { s with mvalid := false, cw := m, acc := a }) ∧
        (∀ k i, k < (selected s).blocks → i < (selected s).eBlk →
          Memory.read m ((selected s).dataCw + k + i * (selected s).blocks) =
            (blockAcc s.gen s.cw (selected s).dataCw (selected s).blocks (selected s).eBlk k).getD
              ((selected s).eBlk - 1 - i) 0) ∧
        (∀ j, j < (selected s).dataCw ∨ (selected s).total ≤ j →
          Memory.read m j = Memory.read s.cw j))

/-- One data codeword d into the accumulator of E registers: with the feedback fb = d xor ACC[E-1],
register j becomes fb times GEN[j], plus for j > 0 the old register j-1; a feedback of 0 shifts the
accumulator (R560). The block starts from E zeros and takes its data codewords in order. -/
def Obligations.AccumulatorStep : Prop :=
  (∀ (gen : Memory 8) (e : Nat) (acc : List Byte) (d : Byte), acc.length = e → 1 ≤ e →
    (accStep gen e acc d).length = e ∧
    ∀ j, j < e → (accStep gen e acc d).getD j 0 =
      gfAdd (if 0 < j then acc.getD (j - 1) 0 else 0#8)
        (gfMul (gfAdd d (acc.getD (e - 1) 0)) (Memory.read gen j))) ∧
  (∀ (gen cw : Memory 8) (d n e k : Nat), 1 ≤ n → k < n →
    blockAcc gen cw d n e k =
      ((List.range d).filter (fun p => p % n == k)).foldl
        (fun acc p => accStep gen e acc (Memory.read cw p)) (List.replicate e 0#8))

/-- After RSENC with the entry's generator in GEN, every syndrome of every block is zero: the block's
data codewords followed by its error codewords, as a polynomial, has the roots alpha^1 to alpha^E
(R567). -/
def Obligations.SyndromesAreZero : Prop :=
  ∀ s : State, s.selv = true → s.genE.toNat = (selected s).eBlk →
    s.cwCount.toNat = (selected s).dataCw → GeneratorHeld s →
    ∃ t, exec .rsenc s = .next t ∧
      ∀ k i, k < (selected s).blocks → 1 ≤ i → i ≤ (selected s).eBlk →
        evalAt (alogAt (i % 255)) (blockSequence (selected s) t.cw k) = 0#8

/-! ### Placement -/

/-- PLACE: without a selection a SEQUENCE_ERROR (4) that writes only MVALID; with any entry of the
table selected, and whatever CW holds, it completes without error with PLACE_USED = T and MVALID = 1
and leaves every cell of the mapping area assigned; cells outside it, and everything else, are as they
were (R600, R622). -/
def Obligations.PlaceOutcome : Prop :=
  ∀ s : State,
    (s.selv = false → exec .place s = .next (failed 4#4 { s with mvalid := false })) ∧
    (s.selv = true →
      ∃ b a, exec .place s = .next (finished { s with
          bm := b, asg := a, placeUsed := BitVec.ofNat 12 (selected s).total, mvalid := true }) ∧
        (selected s).total < 2 ^ 12 ∧
        (∀ j, InMapping s.selIdx j → Memory.read a j = 1#1) ∧
        (∀ j, ¬ InMapping s.selIdx j →
          Memory.read a j = Memory.read s.asg j ∧ Memory.read b j = Memory.read s.bm j))

/-- What PLACE leaves in the mapping area is a function of the entry and of CW[0 .. T-1] alone: two
states that agree on these agree on it afterwards, and on PLACE_USED (R621). -/
def Obligations.PlacementDependsOnCodewordsAlone : Prop :=
  ∀ s s' t t' : State, s.selv = true → s'.selv = true → s.selIdx = s'.selIdx →
    (∀ j, j < (selected s).total → Memory.read s.cw j = Memory.read s'.cw j) →
    exec .place s = .next t → exec .place s' = .next t' →
    t.placeUsed = t'.placeUsed ∧ t.mvalid = t'.mvalid ∧
    ∀ j, InMapping s.selIdx j →
      Memory.read t.bm j = Memory.read t'.bm j ∧ Memory.read t.asg j = Memory.read t'.asg j

/-- Where PLACE puts each codeword bit. (1) For every entry one map from cells to codeword bits, the
same for all codewords: each cell of the mapping area holds bit w[7-b] of the codeword the map names,
different cells different bits; the cells the map leaves out are those of the fixed 2x2 block, which
the entries with R x C mod 8 = 4 have (R602, R605, R608). (2) Which cells, by the spec's offsets: a
pattern takes one codeword, and fails when none is left or a module stays outside the matrix (R609,
R615); module b goes to its coordinates after the row wrap, then the column wrap (R607), and puts
w[7-b] there unless the cell is assigned (R602, R604, R608). (3) The generic pattern, made at an anchor
of the matrix that is not assigned, and the four corner patterns, with their conditions, have the
modules of R610 to R614. (4) The two passes, the steps between them and their ends are those of R600
and R603. (5) PLACE leaves in BM, ASG and PLACE_USED what this traversal leaves from anchor (4, 0), the
mapping area cleared and the block pre-assigned (R600, R603, R605). The 132 steps that bound each loop
are the model's choice (log entry 5, DESIGN CHOICE), never reached by an entry of the table. -/
def Obligations.PlacementIsACodewordBitMap : Prop :=
  (∀ n : Fin Config.nEntries, ∃ source : Nat → Option (Nat × Nat),
    (∀ j k b, source j = some (k, b) → k < (capEntry n).total ∧ b < 8) ∧
    (∀ j j' kb, InMapping n j → InMapping n j' → source j = some kb → source j' = some kb → j = j') ∧
    ∀ s t : State, s.selv = true → s.selIdx = n → exec .place s = .next t →
      ∀ j, InMapping n j →
        (∀ k b, source j = some (k, b) →
          Memory.read t.bm j = BitVec.ofBool ((Memory.read s.cw k).getLsbD (7 - b))) ∧
        (source j = none →
          ((capEntry n).mapRows * (capEntry n).mapCols) % 8 = 4 ∧
          ∃ r c, (r = (capEntry n).mapRows - 1 ∨ r = (capEntry n).mapRows - 2) ∧
            (c = (capEntry n).mapCols - 1 ∨ c = (capEntry n).mapCols - 2) ∧ j = cellIndex r c ∧
            (Memory.read t.bm j = 1#1 ↔
              (r = (capEntry n).mapRows - 1 ↔ c = (capEntry n).mapCols - 1)))) ∧
  (∀ (g : Mapping) (cw : Memory 8) (shape : List (Int × Int)) (p : Placer),
    (∀ q, placePattern g cw shape p = some q → PatternLeaves g (Memory.read cw p.chr) shape p q) ∧
    (placePattern g cw shape p = none ↔
      p.chr = g.total ∨ ∃ rc ∈ shape, ¬ InsideMatrix g (wrapped g rc))) ∧
  (∀ (g : Mapping) (cw : Memory 8) (row col : Int) (p : Placer),
    (visit g cw row col p =
      if InsideMatrix g (row, col) ∧ Memory.read p.asg (gridCell (row, col)) = 0#1 then
        placePattern g cw [(row - 2, col - 2), (row - 2, col - 1), (row - 1, col - 2),
          (row - 1, col - 1), (row - 1, col), (row, col - 2), (row, col - 1), (row, col)] p
      else some p) ∧
    (placeCorner g cw row col p =
      let r : Int := g.rows
      let c : Int := g.cols
      if row = r ∧ col = 0 then
        placePattern g cw [(r - 1, 0), (r - 1, 1), (r - 1, 2), (0, c - 2), (0, c - 1), (1, c - 1),
          (2, c - 1), (3, c - 1)] p
      else if row = r - 2 ∧ col = 0 ∧ g.cols % 4 ≠ 0 then
        placePattern g cw [(r - 3, 0), (r - 2, 0), (r - 1, 0), (0, c - 4), (0, c - 3), (0, c - 2),
          (0, c - 1), (1, c - 1)] p
      else if row = r - 2 ∧ col = 0 ∧ g.cols % 8 = 4 then
        placePattern g cw [(r - 3, 0), (r - 2, 0), (r - 1, 0), (0, c - 2), (0, c - 1), (1, c - 1),
          (2, c - 1), (3, c - 1)] p
      else if row = r + 4 ∧ col = 2 ∧ g.cols % 8 = 0 then
        placePattern g cw [(r - 1, 0), (r - 1, c - 1), (0, c - 3), (0, c - 2), (0, c - 1), (1, c - 3),
          (1, c - 2), (1, c - 1)] p
      else some p)) ∧
  (∀ (g : Mapping) (cw : Memory 8) (n : Nat) (row col : Int) (p : Placer),
    (upRight g cw (n + 1) row col p = (visit g cw row col p).bind fun q =>
      if 0 ≤ row - 2 ∧ col + 2 < g.cols then upRight g cw n (row - 2) (col + 2) q
      else some (row - 2, col + 2, q)) ∧
    (downLeft g cw (n + 1) row col p = (visit g cw row col p).bind fun q =>
      if row + 2 < g.rows ∧ 0 ≤ col - 2 then downLeft g cw n (row + 2) (col - 2) q
      else some (row + 2, col - 2, q)) ∧
    (Machine.traverse g cw (n + 1) row col p = (placeCorner g cw row col p).bind fun q =>
      (upRight g cw 132 row col q).bind fun u =>
      (downLeft g cw 132 (u.1 + 1) (u.2.1 + 3) u.2.2).bind fun d =>
      if d.1 + 3 < g.rows ∨ d.2.1 + 1 < g.cols then Machine.traverse g cw n (d.1 + 3) (d.2.1 + 1) d.2.2
      else some d.2.2)) ∧
  (∀ s t : State, s.selv = true → exec .place s = .next t →
    ∃ p q, TraversalStart (mappingOf (selected s)) p ∧
      Machine.traverse (mappingOf (selected s)) s.cw 132 4 0 p = some q ∧
      t.bm = q.bm ∧ t.asg = q.asg ∧ t.placeUsed = BitVec.ofNat 12 q.chr)

/-! ### The composite command -/

/-- ENC of a text that fits the shape completes without error: the smallest fitting entry is selected,
CW holds the text's codewords, the padding and then the error codewords RSENC writes, GEN the entry's
generator, every cell of the mapping area is assigned and BM holds there what a PLACE of the codewords
now in CW leaves; RESULT, TXT, TXT_LEN, CTRL and whatever lies beyond the entry's sizes are as they
were (R650, R652, R653). -/
def Obligations.EncOutcome : Prop :=
  ∀ (rect : Bool) (s : State), s.txtLen.toNat ≤ 3116 →
    (textCodewords s).length ≤ (if rect then 49 else 1558) →
    ∃ n t, Smallest rect (textCodewords s).length n ∧ exec (.enc rect) s = .next t ∧
      t = finished { s with
        selIdx := n, selv := true, mvalid := true
        cwCount := BitVec.ofNat 12 (capEntry n).dataCw
        genE := BitVec.ofNat 8 (capEntry n).eBlk
        placeUsed := BitVec.ofNat 12 (capEntry n).total
        cw := t.cw, gen := t.gen, acc := t.acc, bm := t.bm, asg := t.asg } ∧
      (∀ j, j < (textCodewords s).length → Memory.read t.cw j = (textCodewords s).getD j 0) ∧
      (∀ j, (textCodewords s).length ≤ j → j < (capEntry n).dataCw →
        Memory.read t.cw j = padCodeword (textCodewords s).length j) ∧
      (∀ j, (capEntry n).total ≤ j → Memory.read t.cw j = Memory.read s.cw j) ∧
      (∀ j, j ≤ (capEntry n).eBlk →
        Memory.read t.gen j = (generator (capEntry n).eBlk).getD j 0) ∧
      (∀ j, (capEntry n).eBlk < j → Memory.read t.gen j = Memory.read s.gen j) ∧
      (∀ k i, k < (capEntry n).blocks → i < (capEntry n).eBlk →
        Memory.read t.cw ((capEntry n).dataCw + k + i * (capEntry n).blocks) =
          (blockAcc t.gen t.cw (capEntry n).dataCw (capEntry n).blocks (capEntry n).eBlk k).getD
            ((capEntry n).eBlk - 1 - i) 0) ∧
      (∀ j, InMapping n j → Memory.read t.asg j = 1#1) ∧
      (∃ u, exec .place t = .next u ∧
        ∀ j, InMapping n j → Memory.read t.bm j = Memory.read u.bm j) ∧
      (∀ j, ¬ InMapping n j →
        Memory.read t.asg j = Memory.read s.asg j ∧ Memory.read t.bm j = Memory.read s.bm j)

/-- ENC that cannot encode its text: a TXT_LEN above 3116 is a RANGE_ERROR (5) that writes only
MVALID; more than 1558 codewords are CAPACITY_EXCEEDED (1) from the AENC step, which leaves CW_COUNT =
0 and draws in CW[0 .. 1557]; more than the shape's largest capacity, from the SEL step, which leaves
the text's codewords and their count in CW and CW_COUNT and no selection (R650, R651, R654; the draws
are the model's free values, log entry 2). -/
def Obligations.EncFailures : Prop :=
  ∀ (rect : Bool) (s : State),
    (3116 < s.txtLen.toNat → exec (.enc rect) s = .next (failed 5#4 { s with mvalid := false })) ∧
    (s.txtLen.toNat ≤ 3116 → 1558 < (textCodewords s).length →
      ∃ m, exec (.enc rect) s = .next (failed 1#4 { s with
          mvalid := false, cw := m, cwCount := 0#12, draws := s.draws + 1558 }) ∧
        ∀ j, Memory.read m j =
          if j < 1558 then Config.freeByte (s.draws + j) else Memory.read s.cw j) ∧
    (s.txtLen.toNat ≤ 3116 → (if rect then 49 else 1558) < (textCodewords s).length →
      (textCodewords s).length ≤ 1558 →
      ∃ m, ∃ zero : Fin Config.nEntries, zero.val = 0 ∧
        exec (.enc rect) s = .next (failed 1#4 { s with
          mvalid := false, cw := m, cwCount := BitVec.ofNat 12 (textCodewords s).length
          selIdx := zero, selv := false }) ∧
        ∀ j, Memory.read m j =
          if j < (textCodewords s).length then (textCodewords s).getD j 0 else Memory.read s.cw j)

/-- ENC leaves, in every register and memory, what the component commands leave when each is issued and
completes before the next and the sequence stops at the first that raises; only the CMD read-back
differs (R651). -/
def Obligations.EncEqualsItsComponents : Prop :=
  ∀ (rect : Bool) (s : State), ∃ t t',
    issueAndComplete (.enc rect) s = some t ∧ componentSequence rect s = some t' ∧
    t.cmd = encode (.enc rect) ∧ t = { t' with cmd := t.cmd }

/-- The only error codes of ENC are RANGE_ERROR and CAPACITY_EXCEEDED: once its SEL step has selected
an entry no later step raises, and PLACEMENT_INCONSISTENCY is out of reach; PLACE alone never raises it
either, from any state (R652, R622). -/
def Obligations.EncErrorCodes : Prop :=
  (∀ (rect : Bool) (s t : State), issueAndComplete (.enc rect) s = some t →
    (t.err = false ∧ t.errCode = 0#4 ∧ t.selv = true ∧ t.mvalid = true) ∨
    (t.err = true ∧ (t.errCode = 1#4 ∨ t.errCode = 5#4) ∧ t.mvalid = false)) ∧
  (∀ s t : State, issueAndComplete .place s = some t → t.errCode = 0#4 ∨ t.errCode = 4#4)

/-- The outcome of ENC is a function of RECT, TXT_LEN and TXT[0 .. TXT_LEN-1]: two states that agree
on the text agree on the error code and, if there is none, on SEL, CW, GEN, BM, ASG and PLACE_USED of
the selected entry (R655). -/
def Obligations.EncDependsOnTheTextAlone : Prop :=
  ∀ (rect : Bool) (s s' t t' : State), s.txtLen = s'.txtLen →
    (∀ j, j < s.txtLen.toNat → Memory.read s.txt j = Memory.read s'.txt j) →
    issueAndComplete (.enc rect) s = some t → issueAndComplete (.enc rect) s' = some t' →
    t.err = t'.err ∧ t.errCode = t'.errCode ∧
    (t.err = false →
      t.selIdx = t'.selIdx ∧ t.cwCount = t'.cwCount ∧ t.genE = t'.genE ∧
      t.placeUsed = t'.placeUsed ∧
      (∀ j, j < (selected t).total → Memory.read t.cw j = Memory.read t'.cw j) ∧
      (∀ j, j ≤ (selected t).eBlk → Memory.read t.gen j = Memory.read t'.gen j) ∧
      (∀ j, InMapping t.selIdx j →
        Memory.read t.bm j = Memory.read t'.bm j ∧ Memory.read t.asg j = Memory.read t'.asg j))

/-! ### Invariants -/

/-- Every step keeps every memory in canonical form and inside its depth: no command and no host access
touches an element outside a memory (R228, R201). -/
def Obligations.StepKeepsMemoriesCanonical : Prop :=
  ∀ s t : State, MemoriesCanonical s → step s = .next t → MemoriesCanonical t

/-- Every step keeps ERR and ERRCODE consistent and DONE and ERR 0 while BUSY = 1, the pending word
equal to the CMD read-back, and SEL.IDX 0 without a selection and MVALID 0 without one (R105, R107,
R111, R128, R215). -/
def Obligations.StepKeepsStatusConsistent : Prop :=
  ∀ s t : State, StatusConsistent s ∧ PendingIsReadBack s ∧ SelectionConsistent s →
    step s = .next t → StatusConsistent t ∧ PendingIsReadBack t ∧ SelectionConsistent t

/-- Every step keeps GEN the generator of degree GEN_E when GEN_E is not 0, and GEN_E at most 68 (R113,
R123, R551). -/
def Obligations.StepKeepsGeneratorHeld : Prop :=
  ∀ s t : State, GeneratorHeld s → step s = .next t → GeneratorHeld t

/-- Every step keeps this: while MVALID = 1 every cell of the selected entry's mapping area is assigned
and PLACE_USED is the entry's number of codewords (R128, R616, R622). -/
def Obligations.StepKeepsPlacementHeld : Prop :=
  ∀ s t : State, PlacementHeld s → step s = .next t → PlacementHeld t

/-- The state after reset meets every invariant. -/
def Obligations.ResetMeetsTheInvariants : Prop :=
  MemoriesCanonical State.reset ∧ StatusConsistent State.reset ∧ PendingIsReadBack State.reset ∧
  SelectionConsistent State.reset ∧ GeneratorHeld State.reset ∧ PlacementHeld State.reset

/-- An invariant that holds after reset and that every step keeps holds after any number of steps from
a state like reset but for its memories and for the accesses the host is going to make: on every such
run, in whatever order host accesses and completions come, STATUS and the selection stay consistent,
GEN holds what GEN_E says and a valid placement is complete (R721, R801). That a list of inputs stands
for such an order, each step running its first event, is the model's choice (log entry 3, DESIGN
CHOICE). -/
def Obligations.RunsFromResetStayConsistent : Prop :=
  ∀ (txt cw gen acc : Memory 8) (bm asg : Memory 1) (inputs : List HostEvent) (n : Nat) (t : State),
    core.run n { State.reset with
      txt := txt, cw := cw, gen := gen, acc := acc, bm := bm, asg := asg, inputs := inputs } =
        .next t →
    StatusConsistent t ∧ PendingIsReadBack t ∧ SelectionConsistent t ∧ GeneratorHeld t ∧
    PlacementHeld t
end

