-- ==== Sys2Proof/Laws/Bus.lean ====
section
/-! SUPPORT. The host address map as a relation between locations and byte addresses: which
addresses locate answers, and which address each location has. -/

namespace Sys2Proof.Machine

/-- The byte address of a location (R103 to R114, R202, R203). -/
def addressOf : Location → Nat
  | .id => 0x00
  | .ctrl => 0x04
  | .status => 0x08
  | .cmd => 0x0C
  | .result => 0x10
  | .txtLen => 0x14
  | .cwCount => 0x18
  | .sel => 0x1C
  | .ent0 => 0x20
  | .ent1 => 0x24
  | .ent2 => 0x28
  | .ent3 => 0x2C
  | .genE => 0x30
  | .placeUsed => 0x34
  | .txt i => 0x4000 + 4 * i
  | .cw i => 0x8000 + 4 * i
  | .gen i => 0xC000 + 4 * i
  | .log i => 0xD000 + 4 * i
  | .alog i => 0xD400 + 4 * i
  | .bm i => 0x10000 + 4 * i
  | .asg i => 0x30000 + 4 * i

/-- The location exists: a window's element is below the window's depth (R201). -/
def inMap : Location → Bool
  | .txt i => decide (i < 3116)
  | .cw i => decide (i < 2178)
  | .gen i => decide (i < 69)
  | .log i => decide (i < 256)
  | .alog i => decide (i < 256)
  | .bm i => decide (i < 17424)
  | .asg i => decide (i < 17424)
  | .id | .ctrl | .status | .cmd | .result | .txtLen | .cwCount | .sel | .ent0 | .ent1 | .ent2
  | .ent3 | .genE | .placeUsed => true

/-- The register block answers the register at its offset (R103 to R114). -/
theorem locate_register {a : Nat} (h : a < 14) :
    ∃ l, registerBlock[a]? = some l ∧ addressOf l = 4 * a ∧ inMap l = true := by
  revert a
  decide

/-- The address of a located location is the address asked for, and the location exists. -/
theorem locate_some {addr : Addr} {l : Location} (h : locate addr = some l) :
    addressOf l = addr.toNat ∧ inMap l = true := by
  simp only [locate] at h
  split at h
  · cases h
  split at h
  · obtain ⟨l', hl', ha, hm⟩ := locate_register (a := addr.toNat / 4) (by omega)
    rw [hl'] at h
    cases h
    exact ⟨by omega, hm⟩
  all_goals
    repeat' split at h
    all_goals
      first
      | (cases h; done)
      | (cases h; refine ⟨?_, ?_⟩ <;> simp [addressOf, inMap] <;> omega)

/-- Every location that exists is found at its address. -/
theorem locate_addressOf {l : Location} (h : inMap l = true) :
    locate (BitVec.ofNat 20 (addressOf l)) = some l := by
  cases l
  case txt i | cw i | gen i | log i | alog i | bm i | asg i =>
    simp only [inMap, decide_eq_true_eq] at h
    simp only [locate, addressOf, BitVec.toNat_ofNat]
    rw [Nat.mod_eq_of_lt (b := 2 ^ 20) (by omega)]
    repeat rw [if_neg (by omega)]
    rw [if_pos (by omega)]
    congr 2
    omega
  all_goals decide

/-- An address is not located exactly when it is misaligned or outside the map (R211, R213). -/
theorem locate_eq_none_iff (addr : Addr) :
    locate addr = none ↔ addr.toNat % 4 ≠ 0 ∨ ¬ Mapped addr.toNat := by
  have hlt := addr.isLt
  constructor
  · intro h
    by_contra hc
    push Not at hc
    obtain ⟨h4, hm⟩ := hc
    simp only [locate] at h
    rw [if_neg (by omega)] at h
    unfold Mapped at hm
    split at h
    · obtain ⟨l', hl', -, -⟩ := locate_register (a := addr.toNat / 4) (by omega)
      rw [hl'] at h
      cases h
    · repeat' split at h
      all_goals first | (cases h; done) | omega
  · intro h
    cases hl : locate addr with
    | none => rfl
    | some l =>
      exfalso
      obtain ⟨ha, hm⟩ := locate_some hl
      unfold Mapped at h
      cases l <;> simp [addressOf, inMap] at ha hm <;> omega

/-- The word the host reads at a location's address is the one readLocation returns. -/
theorem readAt_addressOf {l : Location} (h : inMap l = true) (s : State) :
    readAt (addressOf l) s = (readLocation l s).readData := by
  rw [readAt, busRead, locate_addressOf h]

/-- While BUSY = 0 a location reads its exact value (R216). -/
theorem readLocation_idle (l : Location) (s : State) (h : s.pending = none) :
    readLocation l s = returnWord (locationValue s l) s := by
  simp only [readLocation, State.busy, h]
  cases drawMask l <;> rfl

/-- The result locations, whose reads are draws while BUSY = 1, are those of R215. -/
theorem drawMask_isSome {l : Location} (h : inMap l = true) :
    (drawMask l).isSome = true ↔ DrawAddress (addressOf l) := by
  unfold DrawAddress
  cases l <;> simp [drawMask, addressOf, inMap] at h ⊢ <;> omega

/-! ### What a host access can do -/

/-- What one host read leaves: the word returned, a draw returned while BUSY = 1, or a refusal. -/
inductive ReadOutcome (s : State) : State → Prop where
  | value (v : Word) : ReadOutcome s (returnWord v s)
  | draw (mask : Word) : s.busy = true → ReadOutcome s (returnDraw mask s)
  | refused : ReadOutcome s (refuseRead s)

/-- What one host write leaves (R214, R227). -/
inductive WriteOutcome (v : Word) (s : State) : State → Prop where
  | refused : WriteOutcome v s (setBusErr s)
  | ctrl : v.getLsbD 1 = false → WriteOutcome v s { s with ie := v.getLsbD 0 }
  | softReset : v.getLsbD 1 = true → WriteOutcome v s (softReset s)
  | status : WriteOutcome v s (writeStatus v s)
  | accept : s.busy = false → WriteOutcome v s (accept v s)
  | cmdLost : s.busy = true → WriteOutcome v s (setCmdLost s)
  | wrLost : s.busy = true → WriteOutcome v s (setWrLost s)
  | txtLen : s.busy = false → WriteOutcome v s { s with txtLen := v.setWidth 12 }
  | cwCount : s.busy = false → WriteOutcome v s { s with cwCount := v.setWidth 12 }
  | txt (i : Nat) : i < Config.txtDepth → s.busy = false →
      WriteOutcome v s { s with txt := Memory.write s.txt i (v.setWidth 8) }
  | cw (i : Nat) : i < Config.cwDepth → s.busy = false →
      WriteOutcome v s { s with cw := Memory.write s.cw i (v.setWidth 8) }

theorem readLocation_outcome (l : Location) (s : State) : ReadOutcome s (readLocation l s) := by
  unfold readLocation
  cases drawMask l with
  | none => exact .value _
  | some mask =>
    cases hb : s.busy
    · exact .value _
    · exact .draw mask hb

theorem busRead_outcome (size : AccessSize) (addr : Addr) (s : State) :
    ReadOutcome s (busRead size addr s) := by
  cases size with
  | other => exact .refused
  | word =>
    unfold busRead
    cases locate addr with
    | none => exact .refused
    | some l => exact readLocation_outcome l s

theorem writeInput_outcome {v : Word} {s : State} {store : State → State}
    (h : s.busy = false → WriteOutcome v s (store s)) : WriteOutcome v s (writeInput store s) := by
  unfold writeInput
  cases hb : s.busy
  · exact h hb
  · exact .wrLost hb

theorem writeLocation_outcome {l : Location} (h : inMap l = true) (v : Word) (s : State) :
    WriteOutcome v s (writeLocation l v s) := by
  cases l
  case ctrl =>
    simp only [writeLocation, writeCtrl]
    cases hv : v.getLsbD 1
    · exact .ctrl hv
    · exact .softReset hv
  case status => exact .status
  case cmd =>
    simp only [writeLocation, writeCmd]
    cases hb : s.busy
    · exact .accept hb
    · exact .cmdLost hb
  case txtLen => exact writeInput_outcome (store := fun t => { t with txtLen := v.setWidth 12 }) .txtLen
  case cwCount => exact writeInput_outcome (store := fun t => { t with cwCount := v.setWidth 12 }) .cwCount
  case txt i =>
    exact writeInput_outcome (store := fun t => { t with txt := Memory.write t.txt i (v.setWidth 8) })
      (.txt i (by simpa [inMap] using h))
  case cw i =>
    exact writeInput_outcome (store := fun t => { t with cw := Memory.write t.cw i (v.setWidth 8) })
      (.cw i (by simpa [inMap] using h))
  all_goals exact .refused

theorem busWrite_outcome (size : AccessSize) (addr : Addr) (v : Word) (s : State) :
    WriteOutcome v s (busWrite size addr v s) := by
  cases size with
  | other => exact .refused
  | word =>
    unfold busWrite
    cases hl : locate addr with
    | none => exact .refused
    | some l => exact writeLocation_outcome (locate_some hl).2 v s

/-- Only a write to CTRL with SRST = 1 is a soft reset (R104, R802). -/
theorem locate_ctrl {addr : Addr} (h : locate addr = some .ctrl) : addr = 0x00004#20 := by
  have ha := (locate_some h).1
  apply BitVec.eq_of_toNat_eq
  rw [← ha]
  rfl

end Sys2Proof.Machine
end

