-- ==== Sys2Proof/Laws/Memory.lean ====
section
/-! SUPPORT. The laws of the memories: what each operation reads as afterwards, that each keeps the
canonical form, and that equal memories are equal data. The reading laws hold of every list, in
canonical form or not. -/

namespace Sys2Proof.Machine

variable {w : Nat}

/-! ### Reading after an operation -/

@[simp] theorem Memory.read_nil (i : Nat) : Memory.read ([] : Memory w) i = 0 := rfl

theorem Memory.read_above_gt (m : Memory w) {i j : Nat} (h : i < j) :
    Memory.read (Memory.above i m) j = Memory.read m j := by
  induction m with
  | nil => rfl
  | cons e rest ih =>
    obtain ⟨a, v⟩ := e
    simp only [Memory.above]
    split
    · simp only [Memory.read]
      rw [ih, if_pos (by omega)]
    · rfl

theorem Memory.read_above_le (m : Memory w) {i j : Nat} (h : j ≤ i) :
    Memory.read (Memory.above i m) j = 0 := by
  induction m with
  | nil => rfl
  | cons e rest ih =>
    obtain ⟨a, v⟩ := e
    simp only [Memory.above]
    split
    · exact ih
    · simp only [Memory.read]
      rw [if_neg (by omega), if_neg (by omega)]

theorem Memory.read_put_above (m : Memory w) (i j : Nat) (v : BitVec w) :
    Memory.read (Memory.put i v (Memory.above i m)) j =
      if j = i then v else if j < i then 0 else Memory.read m j := by
  have above : j ≠ i → Memory.read (Memory.above i m) j = if j < i then 0 else Memory.read m j := by
    intro hne
    split
    · exact Memory.read_above_le m (by omega)
    · exact Memory.read_above_gt m (by omega)
  simp only [Memory.put]
  split
  · rename_i hv
    split
    · rename_i hj
      rw [hj, hv, Memory.read_above_le m (Nat.le_refl i)]
    · exact above ‹_›
  · simp only [Memory.read]
    by_cases hj : j = i
    · simp [hj]
    · rw [if_neg hj]
      by_cases hlt : i < j
      · rw [if_pos hlt, above hj]
      · rw [if_neg hlt, if_neg (by omega), if_pos (by omega)]

/-- A read after a write: the value written at that index, and elsewhere what it was. -/
theorem Memory.read_write (m : Memory w) (i j : Nat) (v : BitVec w) :
    Memory.read (Memory.write m i v) j = if j = i then v else Memory.read m j := by
  induction m with
  | nil =>
    have h := Memory.read_put_above ([] : Memory w) i j v
    simpa [Memory.above, Memory.write] using h
  | cons e rest ih =>
    obtain ⟨a, x⟩ := e
    simp only [Memory.write]
    split
    · simp only [Memory.read]
      by_cases haj : a < j
      · rw [if_pos haj, if_pos haj, ih]
      · rw [if_neg haj, if_neg haj, if_neg (by omega : ¬ j = i)]
    · rw [Memory.read_put_above]
      by_cases hji : j < i
      · have hne : j ≠ i := Nat.ne_of_lt hji
        simp only [Memory.read]
        rw [if_neg hne, if_neg hne, if_pos hji, if_neg (by omega), if_neg (by omega)]
      · rw [if_neg hji]

@[simp] theorem Memory.read_write_same (m : Memory w) (i : Nat) (v : BitVec w) :
    Memory.read (Memory.write m i v) i = v := by rw [Memory.read_write, if_pos rfl]

theorem Memory.read_write_ne (m : Memory w) {i j : Nat} (v : BitVec w) (h : j ≠ i) :
    Memory.read (Memory.write m i v) j = Memory.read m j := by rw [Memory.read_write, if_neg h]

theorem Memory.read_writeRange (m : Memory w) (base n : Nat) (f : Nat → BitVec w) (j : Nat) :
    Memory.read (Memory.writeRange m base n f) j =
      if base ≤ j ∧ j < base + n then f j else Memory.read m j := by
  induction n with
  | zero => rw [Memory.writeRange, if_neg (by omega)]
  | succ n ih =>
    rw [Memory.writeRange, Memory.read_write, ih]
    by_cases h : j = base + n
    · rw [if_pos h, if_pos (by omega), h]
    · rw [if_neg h]
      exact if_congr (by omega) rfl rfl

theorem Memory.read_tabulateFrom (lo n : Nat) (f : Nat → BitVec w) (j : Nat) :
    Memory.read ((((List.range' lo n).map (fun i => (i, f i))).filter
      (fun e => decide (e.2 ≠ 0))) : Memory w) j = if lo ≤ j ∧ j < lo + n then f j else 0 := by
  induction n generalizing lo with
  | zero => rw [if_neg (by omega)]; rfl
  | succ n ih =>
    rw [List.range'_succ, List.map_cons, List.filter_cons]
    by_cases hv : f lo = 0
    · rw [if_neg (by simpa using hv), ih]
      by_cases hj : j = lo
      · rw [if_neg (by omega), if_pos (by omega), hj, hv]
      · exact if_congr (by omega) rfl rfl
    · rw [if_pos (by simpa using hv)]
      simp only [Memory.read]
      rw [ih]
      by_cases hlt : lo < j
      · rw [if_pos hlt]
        exact if_congr (by omega) rfl rfl
      · rw [if_neg hlt]
        by_cases heq : lo = j
        · rw [if_pos heq, if_pos (by omega), heq]
        · rw [if_neg heq, if_neg (by omega)]

theorem Memory.read_tabulate (depth : Nat) (f : Nat → BitVec w) (j : Nat) :
    Memory.read (Memory.tabulate depth f) j = if j < depth then f j else 0 := by
  rw [Memory.tabulate, List.range_eq_range', Memory.read_tabulateFrom]
  exact if_congr (by omega) rfl rfl

/-! ### The canonical form -/

theorem Memory.wfFrom_cons (depth lo a : Nat) (v : BitVec w) (rest : Memory w) :
    Memory.wfFrom depth lo ((a, v) :: rest) = true ↔
      lo ≤ a ∧ a < depth ∧ v ≠ 0 ∧ Memory.wfFrom depth (a + 1) rest = true := by
  simp [Memory.wfFrom, and_assoc]

theorem Memory.wfFrom_mono {depth lo lo' : Nat} (h : lo' ≤ lo) {m : Memory w}
    (hm : Memory.wfFrom depth lo m = true) : Memory.wfFrom depth lo' m = true := by
  cases m with
  | nil => rfl
  | cons e rest =>
    rw [Memory.wfFrom_cons] at hm ⊢
    exact ⟨by omega, hm.2⟩

theorem Memory.wfFrom_above {depth lo : Nat} (i : Nat) {m : Memory w}
    (hm : Memory.wfFrom depth lo m = true) : Memory.wfFrom depth (i + 1) (Memory.above i m) = true := by
  induction m generalizing lo with
  | nil => rfl
  | cons e rest ih =>
    obtain ⟨a, v⟩ := e
    rw [Memory.wfFrom_cons] at hm
    simp only [Memory.above]
    split
    · exact ih hm.2.2.2
    · rw [Memory.wfFrom_cons]
      exact ⟨by omega, hm.2⟩

theorem Memory.wfFrom_put {depth lo i : Nat} {v : BitVec w} {m : Memory w} (hlo : lo ≤ i)
    (hi : i < depth) (hm : Memory.wfFrom depth (i + 1) m = true) :
    Memory.wfFrom depth lo (Memory.put i v m) = true := by
  simp only [Memory.put]
  split
  · exact Memory.wfFrom_mono (by omega) hm
  · rw [Memory.wfFrom_cons]
    exact ⟨hlo, hi, ‹_›, hm⟩

theorem Memory.wfFrom_write {depth lo i : Nat} (v : BitVec w) {m : Memory w} (hlo : lo ≤ i)
    (hi : i < depth) (hm : Memory.wfFrom depth lo m = true) :
    Memory.wfFrom depth lo (Memory.write m i v) = true := by
  induction m generalizing lo with
  | nil => exact Memory.wfFrom_put hlo hi rfl
  | cons e rest ih =>
    obtain ⟨a, x⟩ := e
    simp only [Memory.write]
    split
    · rw [Memory.wfFrom_cons] at hm ⊢
      exact ⟨hm.1, hm.2.1, hm.2.2.1, ih (by omega) hm.2.2.2⟩
    · exact Memory.wfFrom_put hlo hi (Memory.wfFrom_above i hm)

/-- A write inside the memory keeps its canonical form. -/
theorem Memory.wf_write {depth i : Nat} (v : BitVec w) {m : Memory w} (hi : i < depth)
    (hm : Memory.wf depth m = true) : Memory.wf depth (Memory.write m i v) = true :=
  Memory.wfFrom_write v (Nat.zero_le i) hi hm

theorem Memory.wf_writeRange {depth base n : Nat} (f : Nat → BitVec w) {m : Memory w}
    (h : base + n ≤ depth) (hm : Memory.wf depth m = true) :
    Memory.wf depth (Memory.writeRange m base n f) = true := by
  induction n with
  | zero => exact hm
  | succ n ih => exact Memory.wf_write _ (by omega) (ih (by omega))

theorem Memory.wfFrom_tabulateFrom (depth lo n : Nat) (f : Nat → BitVec w) (h : lo + n ≤ depth) :
    Memory.wfFrom depth lo ((((List.range' lo n).map (fun i => (i, f i))).filter
      (fun e => decide (e.2 ≠ 0))) : Memory w) = true := by
  induction n generalizing lo with
  | zero => rfl
  | succ n ih =>
    rw [List.range'_succ, List.map_cons, List.filter_cons]
    have tail := ih (lo + 1) (by omega)
    split
    · rw [Memory.wfFrom_cons]
      exact ⟨Nat.le_refl lo, by omega, by simpa using ‹decide (f lo ≠ 0) = true›, tail⟩
    · exact Memory.wfFrom_mono (by omega) tail

theorem Memory.wf_tabulate (depth : Nat) (f : Nat → BitVec w) :
    Memory.wf depth (Memory.tabulate depth f) = true := by
  rw [Memory.wf, Memory.tabulate, List.range_eq_range']
  exact Memory.wfFrom_tabulateFrom depth 0 depth f (by omega)

/-! ### Equal memories are equal data -/

theorem Memory.read_below {depth lo j : Nat} {m : Memory w} (hm : Memory.wfFrom depth lo m = true)
    (h : j < lo) : Memory.read m j = 0 := by
  cases m with
  | nil => rfl
  | cons e rest =>
    obtain ⟨a, v⟩ := e
    rw [Memory.wfFrom_cons] at hm
    simp only [Memory.read]
    rw [if_neg (by omega), if_neg (by omega)]

theorem Memory.read_beyond {depth lo j : Nat} {m : Memory w} (hm : Memory.wfFrom depth lo m = true)
    (h : depth ≤ j) : Memory.read m j = 0 := by
  induction m generalizing lo with
  | nil => rfl
  | cons e rest ih =>
    obtain ⟨a, v⟩ := e
    rw [Memory.wfFrom_cons] at hm
    simp only [Memory.read]
    rw [if_pos (by omega), ih hm.2.2.2]

theorem Memory.eq_of_read_from {depth lo : Nat} {m m' : Memory w}
    (hm : Memory.wfFrom depth lo m = true) (hm' : Memory.wfFrom depth lo m' = true)
    (h : ∀ j, Memory.read m j = Memory.read m' j) : m = m' := by
  induction m generalizing lo m' with
  | nil =>
    cases m' with
    | nil => rfl
    | cons e rest =>
      obtain ⟨a, v⟩ := e
      rw [Memory.wfFrom_cons] at hm'
      have := h a
      simp [Memory.read] at this
      exact absurd this.symm hm'.2.2.1
  | cons e rest ih =>
    obtain ⟨a, v⟩ := e
    have hc := (Memory.wfFrom_cons depth lo a v rest).1 hm
    cases m' with
    | nil =>
      have := h a
      simp [Memory.read] at this
      exact absurd this hc.2.2.1
    | cons e' rest' =>
      obtain ⟨a', v'⟩ := e'
      have hc' := (Memory.wfFrom_cons depth lo a' v' rest').1 hm'
      have haa : a = a' := by
        by_contra hne
        rcases Nat.lt_or_gt_of_ne hne with hlt | hgt
        · have := h a
          simp only [Memory.read] at this
          rw [if_neg (by omega), if_pos trivial, if_neg (by omega), if_neg (by omega)] at this
          exact hc.2.2.1 this
        · have := h a'
          simp only [Memory.read] at this
          rw [if_neg (by omega), if_neg (by omega), if_neg (by omega), if_pos trivial] at this
          exact hc'.2.2.1 this.symm
      subst haa
      have hv : v = v' := by
        have := h a
        simpa [Memory.read] using this
      subst hv
      have hrest : rest = rest' := by
        refine ih hc.2.2.2 hc'.2.2.2 (fun j => ?_)
        by_cases hj : a < j
        · have := h j
          simpa [Memory.read, hj] using this
        · rw [Memory.read_below hc.2.2.2 (by omega), Memory.read_below hc'.2.2.2 (by omega)]
      rw [hrest]

/-- Two memories in canonical form with the same elements are the same list. -/
theorem Memory.eq_of_read {depth : Nat} {m m' : Memory w} (hm : Memory.wf depth m = true)
    (hm' : Memory.wf depth m' = true) (h : ∀ j, j < depth → Memory.read m j = Memory.read m' j) :
    m = m' := by
  refine Memory.eq_of_read_from hm hm' (fun j => ?_)
  by_cases hj : j < depth
  · exact h j hj
  · rw [Memory.read_beyond hm (by omega), Memory.read_beyond hm' (by omega)]

end Sys2Proof.Machine
end

