-- ==== Sys2Proof/Laws/Placement.lean ====
section
/-! SUPPORT. The laws of the placement engine. First, what a placement can do at all: every change is
an assignment of a cell of the mapping area (placeAll_induct). Second, that it succeeds for every
entry of the capacity table (placeAll_succeeds): which cells are assigned does not depend on the
codewords, so a placement is followed by a number whose bits mark the assigned cells, and that number
is computed for the thirty entries. -/

namespace Sys2Proof.Machine

/-! ### What a placement can do -/

/-- Cell j belongs to the mapping area of g. -/
def InArea (g : Mapping) (j : Nat) : Prop := ∃ r c, r < g.rows ∧ c < g.cols ∧ j = cellIndex r c

theorem inMatrix_iff (g : Mapping) (rc : Int × Int) :
    inMatrix g rc = true ↔ 0 ≤ rc.1 ∧ rc.1 < g.rows ∧ 0 ≤ rc.2 ∧ rc.2 < g.cols := by
  simp [inMatrix, and_assoc]

section Induct

variable {g : Mapping} {P : Placer → Prop}
  (hassign : ∀ r c bit p, r < g.rows → c < g.cols → P p → P (assign r c bit p))
  (hchr : ∀ p n, P p → P { p with chr := n })

include hassign

theorem placeModule_induct {bit : BitVec 1} {rc : Int × Int} {p q : Placer} (hp : P p)
    (h : placeModule g bit rc p = some q) : P q := by
  simp only [placeModule] at h
  split at h
  · rename_i hin
    rw [inMatrix_iff] at hin
    simp only [Option.some.injEq] at h
    subst h
    simp only [assignFirst]
    split
    · exact hp
    · exact hassign _ _ _ _ (by omega) (by omega) hp
  · cases h

theorem placeModules_induct {w : Byte} {shape : List (Int × Int)} {b : Nat} {p q : Placer} (hp : P p)
    (h : placeModules g w b shape p = some q) : P q := by
  induction shape generalizing b p with
  | nil =>
    simp only [placeModules, Option.some.injEq] at h
    exact h ▸ hp
  | cons rc rest ih =>
    simp only [placeModules] at h
    split at h
    · cases h
    · exact ih (placeModule_induct hassign hp ‹_›) h

include hchr

theorem placePattern_induct {cw : Memory 8} {shape : List (Int × Int)} {p q : Placer} (hp : P p)
    (h : placePattern g cw shape p = some q) : P q := by
  simp only [placePattern] at h
  split at h
  · cases h
  · exact placeModules_induct hassign (hchr _ _ hp) h

theorem placeCorner_induct {cw : Memory 8} {row col : Int} {p q : Placer} (hp : P p)
    (h : placeCorner g cw row col p = some q) : P q := by
  simp only [placeCorner] at h
  split at h
  · exact placePattern_induct hassign hchr hp h
  · simp only [Option.some.injEq] at h
    exact h ▸ hp

theorem visit_induct {cw : Memory 8} {row col : Int} {p q : Placer} (hp : P p)
    (h : visit g cw row col p = some q) : P q := by
  simp only [visit] at h
  split at h
  · exact placePattern_induct hassign hchr hp h
  · simp only [Option.some.injEq] at h
    exact h ▸ hp

theorem upRight_induct {cw : Memory 8} {n : Nat} {row col row' col' : Int} {p q : Placer} (hp : P p)
    (h : upRight g cw n row col p = some (row', col', q)) : P q := by
  induction n generalizing row col p with
  | zero => cases h
  | succ n ih =>
    simp only [upRight] at h
    split at h
    · cases h
    · have hq := visit_induct hassign hchr hp ‹_›
      split at h
      · exact ih hq h
      · simp only [Option.some.injEq, Prod.mk.injEq] at h
        exact h.2.2 ▸ hq

theorem downLeft_induct {cw : Memory 8} {n : Nat} {row col row' col' : Int} {p q : Placer} (hp : P p)
    (h : downLeft g cw n row col p = some (row', col', q)) : P q := by
  induction n generalizing row col p with
  | zero => cases h
  | succ n ih =>
    simp only [downLeft] at h
    split at h
    · cases h
    · have hq := visit_induct hassign hchr hp ‹_›
      split at h
      · exact ih hq h
      · simp only [Option.some.injEq, Prod.mk.injEq] at h
        exact h.2.2 ▸ hq

theorem traverse_induct {cw : Memory 8} {n : Nat} {row col : Int} {p q : Placer} (hp : P p)
    (h : traverse g cw n row col p = some q) : P q := by
  induction n generalizing row col p with
  | zero => cases h
  | succ n ih =>
    simp only [traverse] at h
    split at h
    · cases h
    · have h0 := placeCorner_induct hassign hchr hp ‹_›
      split at h
      · cases h
      · have h1 := upRight_induct hassign hchr h0 ‹_›
        split at h
        · cases h
        · have h2 := downLeft_induct hassign hchr h1 ‹_›
          split at h
          · exact ih h2 h
          · simp only [Option.some.injEq] at h
            exact h ▸ h2

/-- A property that holds at the start, and that assigning a cell of the mapping area and counting a
codeword keep, holds of what a placement leaves. -/
theorem placeAll_induct (hrows : 2 ≤ g.rows) (hcols : 2 ≤ g.cols) {cw : Memory 8} {p q : Placer}
    (hp : P p) (h : placeAll g cw p = some q) : P q := by
  simp only [placeAll] at h
  split at h
  · cases h
  · rename_i htrav
    split at h
    · simp only [Option.some.injEq] at h
      subst h
      refine traverse_induct hassign hchr ?_ htrav
      split
      · simp only [cornerFill]
        exact hassign _ _ _ _ (by omega) (by omega) (hassign _ _ _ _ (by omega) (by omega)
          (hassign _ _ _ _ (by omega) (by omega) (hassign _ _ _ _ (by omega) (by omega) hp)))
      · exact hp
    · cases h

end Induct

/-- A placement that succeeds leaves every cell of the mapping area assigned (R616). -/
theorem placeAll_allAssigned {g : Mapping} {cw : Memory 8} {p q : Placer}
    (h : placeAll g cw p = some q) {r c : Nat} (hr : r < g.rows) (hc : c < g.cols) :
    Memory.read q.asg (cellIndex r c) = 1 := by
  simp only [placeAll] at h
  split at h
  · cases h
  · split at h
    · rename_i hall
      simp only [Option.some.injEq] at h
      subst h
      simp only [allAssigned, List.all_eq_true, List.mem_range, beq_iff_eq] at hall
      exact hall r hr c hc
    · cases h

/-- The sizes of every entry: even, at least 6, at most MAP_STRIDE (R140, R607). -/
theorem mappingOf_bounds (n : Fin Config.nEntries) :
    6 ≤ (mappingOf (capEntry n)).rows ∧ (mappingOf (capEntry n)).rows ≤ Config.mapStride ∧
    6 ≤ (mappingOf (capEntry n)).cols ∧ (mappingOf (capEntry n)).cols ≤ Config.mapStride ∧
    (mappingOf (capEntry n)).total ≤ Config.cwDepth := by
  revert n; decide +kernel

theorem cellIndex_lt {g : Mapping} (hrows : g.rows ≤ Config.mapStride)
    (hcols : g.cols ≤ Config.mapStride) {r c : Nat} (hr : r < g.rows) (hc : c < g.cols) :
    cellIndex r c < Config.mapDepth := by
  simp only [cellIndex, Config.mapStride, Config.mapDepth] at *
  omega

theorem cellIndex_inj {r c r' c' : Nat} (hc : c < Config.mapStride) (hc' : c' < Config.mapStride) :
    cellIndex r c = cellIndex r' c' ↔ r = r' ∧ c = c' := by
  simp only [cellIndex, Config.mapStride] at *
  omega

/-! ### Clearing and filling the mapping area -/

theorem read_fillArea {g : Mapping} (f : Nat → BitVec 1) (m : Memory 1) (j : Nat) :
    Memory.read (fillArea g f m) j =
      if ∃ r, r < g.rows ∧ cellIndex r 0 ≤ j ∧ j < cellIndex r 0 + g.cols then f j
      else Memory.read m j := by
  rw [fillArea]
  generalize g.rows = n
  induction n with
  | zero => simp
  | succ n ih =>
    rw [List.range_succ, List.foldl_append, List.foldl_cons, List.foldl_nil, Memory.read_writeRange,
      ih]
    by_cases hn : cellIndex n 0 ≤ j ∧ j < cellIndex n 0 + g.cols
    · rw [if_pos hn, if_pos ⟨n, by omega, hn⟩]
    · rw [if_neg hn]
      refine if_congr ⟨fun ⟨r, hr, h⟩ => ⟨r, by omega, h⟩, fun ⟨r, hr, h⟩ => ⟨r, ?_, h⟩⟩ rfl rfl
      rcases Nat.lt_or_eq_of_le (Nat.le_of_lt_succ hr) with h' | h'
      · exact h'
      · exact absurd (h' ▸ h) hn

theorem inArea_iff {g : Mapping} (j : Nat) :
    (∃ r, r < g.rows ∧ cellIndex r 0 ≤ j ∧ j < cellIndex r 0 + g.cols) ↔ InArea g j := by
  constructor
  · rintro ⟨r, hr, h1, h2⟩
    refine ⟨r, j - cellIndex r 0, hr, by omega, ?_⟩
    simp only [cellIndex] at *
    omega
  · rintro ⟨r, c, hr, hc, rfl⟩
    refine ⟨r, hr, ?_, ?_⟩ <;> simp only [cellIndex] <;> omega

theorem read_fillArea_cell {g : Mapping} (f : Nat → BitVec 1) (m : Memory 1) {r c : Nat}
    (hr : r < g.rows) (hc : c < g.cols) :
    Memory.read (fillArea g f m) (cellIndex r c) = f (cellIndex r c) := by
  rw [read_fillArea, if_pos ((inArea_iff _).2 ⟨r, c, hr, hc, rfl⟩)]

theorem read_fillArea_outside {g : Mapping} (f : Nat → BitVec 1) (m : Memory 1) {j : Nat}
    (h : ¬ InArea g j) : Memory.read (fillArea g f m) j = Memory.read m j := by
  rw [read_fillArea, if_neg (fun h' => h ((inArea_iff j).1 h'))]

theorem wf_fillArea {g : Mapping} (f : Nat → BitVec 1) {m : Memory 1}
    (hrows : g.rows ≤ Config.mapStride) (hcols : g.cols ≤ Config.mapStride)
    (hm : Memory.wf Config.mapDepth m = true) :
    Memory.wf Config.mapDepth (fillArea g f m) = true := by
  rw [fillArea]
  have key : ∀ n, n ≤ Config.mapStride → Memory.wf Config.mapDepth
      ((List.range n).foldl (fun m r => Memory.writeRange m (cellIndex r 0) g.cols f) m) = true := by
    intro n hn
    induction n with
    | zero => exact hm
    | succ n ih =>
      rw [List.range_succ, List.foldl_append, List.foldl_cons, List.foldl_nil]
      refine Memory.wf_writeRange f ?_ (ih (by omega))
      simp only [cellIndex, Config.mapStride, Config.mapDepth] at *
      omega
  exact key _ hrows

/-! ### What a successful placement leaves alone, and the canonical form -/

/-- Outside the mapping area a placement changes no cell of BM or ASG (R600). -/
theorem placeAll_outside {g : Mapping} (hrows : 2 ≤ g.rows) (hcols : 2 ≤ g.cols) {cw : Memory 8}
    {p q : Placer} (h : placeAll g cw p = some q) {j : Nat} (hj : ¬ InArea g j) :
    Memory.read q.bm j = Memory.read p.bm j ∧ Memory.read q.asg j = Memory.read p.asg j := by
  refine placeAll_induct (g := g)
    (P := fun q => Memory.read q.bm j = Memory.read p.bm j ∧ Memory.read q.asg j = Memory.read p.asg j)
    ?_ (fun _ _ hp => hp) hrows hcols ⟨rfl, rfl⟩ h
  intro r c bit q hr hc hq
  have hne : j ≠ cellIndex r c := fun e => hj ⟨r, c, hr, hc, e⟩
  simp only [assign]
  rw [Memory.read_write_ne _ _ hne, Memory.read_write_ne _ _ hne]
  exact hq

/-- A placement keeps the canonical form of BM and ASG. -/
theorem placeAll_wf {g : Mapping} (hrows : 2 ≤ g.rows) (hcols : 2 ≤ g.cols)
    (hrows' : g.rows ≤ Config.mapStride) (hcols' : g.cols ≤ Config.mapStride) {cw : Memory 8}
    {p q : Placer} (h : placeAll g cw p = some q) (hbm : Memory.wf Config.mapDepth p.bm = true)
    (hasg : Memory.wf Config.mapDepth p.asg = true) :
    Memory.wf Config.mapDepth q.bm = true ∧ Memory.wf Config.mapDepth q.asg = true := by
  refine placeAll_induct (g := g)
    (P := fun q => Memory.wf Config.mapDepth q.bm = true ∧ Memory.wf Config.mapDepth q.asg = true)
    ?_ (fun _ _ hp => hp) hrows hcols ⟨hbm, hasg⟩ h
  intro r c bit q hr hc hq
  exact ⟨Memory.wf_write _ (cellIndex_lt hrows' hcols' hr hc) hq.1,
    Memory.wf_write _ (cellIndex_lt hrows' hcols' hr hc) hq.2⟩

/-! ### The marks: which cells are assigned, without the codewords -/

/-- Mark cell (r, c). -/
def markCell (r c mask : Nat) : Nat := mask ||| (1 <<< cellIndex r c)

/-- The marks of placeModule. -/
def markModule (g : Mapping) (rc : Int × Int) (mask : Nat) : Option Nat :=
  let cell := wrapCol g (wrapRow g rc)
  if inMatrix g cell then some (markCell cell.1.toNat cell.2.toNat mask) else none

/-- The marks of placeModules. -/
def markModules (g : Mapping) : List (Int × Int) → Nat → Option Nat
  | [], mask => some mask
  | rc :: rest, mask =>
    match markModule g rc mask with
    | none => none
    | some mask' => markModules g rest mask'

/-- The marks of placePattern, with the count of codewords. -/
def markPattern (g : Mapping) (shape : List (Int × Int)) (p : Nat × Nat) : Option (Nat × Nat) :=
  if p.2 = g.total then none
  else
    match markModules g shape p.1 with
    | none => none
    | some mask => some (mask, p.2 + 1)

/-- The marks of placeCorner. -/
def markCorner (g : Mapping) (row col : Int) (p : Nat × Nat) : Option (Nat × Nat) :=
  match cornerShape g row col with
  | some shape => markPattern g shape p
  | none => some p

/-- The marks of visit. -/
def markEdge (g : Mapping) (row col : Int) (p : Nat × Nat) : Option (Nat × Nat) :=
  if inMatrix g (row, col) && !p.1.testBit (cellIndex row.toNat col.toNat) then
    markPattern g (utahShape row col) p
  else some p

/-- The marks of the generic pattern, relative to its first module. -/
def utahBits : Nat := 3 ||| (7 <<< 132) ||| (7 <<< 264)

/-- The marks of visit at the anchor (r - 8, c - 8): away from the edges the pattern does not wrap,
so that its eight marks are one shifted number. -/
def markVisit (g : Mapping) (r c mask chr : Nat) : Option (Nat × Nat) :=
  bif Nat.ble 10 r && Nat.ble 10 c && Nat.ble (r + 1) (g.rows + 8) && Nat.ble (c + 1) (g.cols + 8) then
    bif Nat.testBit mask (132 * (r - 8) + (c - 8)) then some (mask, chr)
    else bif Nat.beq chr g.total then none
    else some (mask ||| (utahBits <<< (132 * (r - 10) + (c - 10))), chr + 1)
  else markEdge g ((r : Int) - 8) ((c : Int) - 8) (mask, chr)

/-- The marks of upRight from the anchor (r - 8, c - 8). -/
def markUp (g : Mapping) : Nat → Nat → Nat → Nat → Nat → Option (Nat × Nat × Nat × Nat)
  | 0, _, _, _, _ => none
  | n + 1, r, c, mask, chr =>
    match markVisit g r c mask chr with
    | none => none
    | some (mask', chr') =>
      bif Nat.ble 10 r && Nat.ble (c + 3) (g.cols + 8) then markUp g n (r - 2) (c + 2) mask' chr'
      else bif Nat.ble 2 r then some (r - 2, c + 2, mask', chr') else none

/-- The marks of downLeft from the anchor (r - 8, c - 8). -/
def markDown (g : Mapping) : Nat → Nat → Nat → Nat → Nat → Option (Nat × Nat × Nat × Nat)
  | 0, _, _, _, _ => none
  | n + 1, r, c, mask, chr =>
    match markVisit g r c mask chr with
    | none => none
    | some (mask', chr') =>
      bif Nat.ble (r + 3) (g.rows + 8) && Nat.ble 10 c then markDown g n (r + 2) (c - 2) mask' chr'
      else bif Nat.ble 2 c then some (r + 2, c - 2, mask', chr') else none

/-- The marks of traverse from the anchor (r - 8, c - 8). -/
def markTraverse (g : Mapping) : Nat → Nat → Nat → Nat → Nat → Option (Nat × Nat)
  | 0, _, _, _, _ => none
  | n + 1, r, c, mask, chr =>
    match markCorner g ((r : Int) - 8) ((c : Int) - 8) (mask, chr) with
    | none => none
    | some (m0, h0) =>
      match markUp g Config.mapStride r c m0 h0 with
      | none => none
      | some (r1, c1, m1, h1) =>
        match markDown g Config.mapStride (r1 + 1) (c1 + 3) m1 h1 with
        | none => none
        | some (r2, c2, m2, h2) =>
          bif Nat.ble (r2 + 4) (g.rows + 8) || Nat.ble (c2 + 2) (g.cols + 8) then
            markTraverse g n (r2 + 3) (c2 + 1) m2 h2
          else some (m2, h2)

/-- The marks at the start of the traversal: none, or the 2x2 block (R605). -/
def markStart (g : Mapping) : Nat :=
  if (g.rows * g.cols) % 8 = 4 then
    markCell (g.rows - 2) (g.cols - 1) (markCell (g.rows - 1) (g.cols - 2)
      (markCell (g.rows - 2) (g.cols - 2) (markCell (g.rows - 1) (g.cols - 1) 0)))
  else 0

/-- The marks of every cell of the first n rows. -/
def markRows (cols : Nat) : Nat → Nat
  | 0 => 0
  | r + 1 => markRows cols r ||| ((2 ^ cols - 1) <<< (132 * r))

/-- The marks of a placement end with every cell of the mapping area, after T codewords. -/
def marksFill (g : Mapping) : Bool :=
  match markTraverse g Config.mapStride 12 8 (markStart g) 0 with
  | none => false
  | some (mask, chr) => Nat.beq chr g.total && Nat.beq mask (markRows g.cols g.rows)

/-! ### A placement follows its marks -/

/-- The bits of mask are the assigned cells of the mapping area. -/
def Marked (g : Mapping) (p : Placer) (mask : Nat) : Prop :=
  ∀ r c, r < g.rows → c < g.cols → assigned r c p = mask.testBit (cellIndex r c)

theorem testBit_markCell (r c mask j : Nat) :
    (markCell r c mask).testBit j = (mask.testBit j || decide (j = cellIndex r c)) := by
  rw [markCell, Nat.testBit_or, Nat.one_shiftLeft, Nat.testBit_two_pow]
  simp only [eq_comm]

theorem assigned_assign {r c r' c' : Nat} (bit : BitVec 1) (p : Placer) :
    assigned r c (assign r' c' bit p) =
      (assigned r c p || decide (cellIndex r c = cellIndex r' c')) := by
  simp only [assigned, assign, Memory.read_write]
  by_cases h : cellIndex r c = cellIndex r' c' <;> simp [h]

theorem Marked.assign {g : Mapping} {p : Placer} {mask : Nat} (h : Marked g p mask) (r c : Nat)
    (bit : BitVec 1) : Marked g (Machine.assign r c bit p) (markCell r c mask) := by
  intro r' c' hr hc
  rw [assigned_assign, testBit_markCell, h r' c' hr hc]

theorem Marked.assignFirst {g : Mapping} {p : Placer} {mask : Nat} (h : Marked g p mask) {r c : Nat}
    (hr : r < g.rows) (hc : c < g.cols) (bit : BitVec 1) :
    Marked g (Machine.assignFirst r c bit p) (markCell r c mask) := by
  rw [Machine.assignFirst]
  split
  · rename_i ha
    intro r' c' hr' hc'
    rw [testBit_markCell, h r' c' hr' hc']
    by_cases e : cellIndex r' c' = cellIndex r c
    · rw [e, ← h r c hr hc, ha]; rfl
    · simp [e]
  · exact h.assign r c bit

theorem Marked.module {g : Mapping} {p : Placer} {mask mask' : Nat} (h : Marked g p mask)
    (bit : BitVec 1) {rc : Int × Int} (hm : markModule g rc mask = some mask') :
    ∃ q, placeModule g bit rc p = some q ∧ Marked g q mask' ∧ q.chr = p.chr := by
  simp only [markModule] at hm
  split at hm
  · rename_i hin
    simp only [Option.some.injEq] at hm
    subst hm
    refine ⟨_, by simp only [placeModule]; rw [if_pos hin], ?_, ?_⟩
    · rw [inMatrix_iff] at hin
      exact h.assignFirst (by omega) (by omega) bit
    · simp only [Machine.assignFirst]
      split <;> rfl
  · cases hm

theorem Marked.modules {g : Mapping} {p : Placer} {mask mask' : Nat} (h : Marked g p mask) (w : Byte)
    (b : Nat) {shape : List (Int × Int)} (hm : markModules g shape mask = some mask') :
    ∃ q, placeModules g w b shape p = some q ∧ Marked g q mask' ∧ q.chr = p.chr := by
  induction shape generalizing p mask b with
  | nil =>
    simp only [markModules, Option.some.injEq] at hm
    exact ⟨p, rfl, hm ▸ h, rfl⟩
  | cons rc rest ih =>
    simp only [markModules] at hm
    split at hm
    · cases hm
    · obtain ⟨q, hq, hmq, hc⟩ := h.module (codewordBit w b) ‹_›
      obtain ⟨q', hq', hmq', hc'⟩ := ih hmq (b + 1) hm
      exact ⟨q', by simp only [placeModules]; rw [hq]; exact hq', hmq', hc'.trans hc⟩

/-- A placer with the marks and the codeword count p. -/
def Follows (g : Mapping) (p : Placer) (m : Nat × Nat) : Prop := Marked g p m.1 ∧ p.chr = m.2

theorem Follows.pattern {g : Mapping} {p : Placer} {m m' : Nat × Nat} (h : Follows g p m)
    (cw : Memory 8) {shape : List (Int × Int)} (hm : markPattern g shape m = some m') :
    ∃ q, placePattern g cw shape p = some q ∧ Follows g q m' := by
  simp only [markPattern] at hm
  split at hm
  · cases hm
  · rename_i hne
    split at hm
    · cases hm
    · rename_i mask hmask
      simp only [Option.some.injEq] at hm
      subst hm
      have h1 : Marked g { p with chr := p.chr + 1 } m.1 := h.1
      obtain ⟨q, hq, hmq, hc⟩ := h1.modules (Memory.read cw p.chr) 0 hmask
      refine ⟨q, ?_, hmq, ?_⟩
      · rw [placePattern, if_neg (h.2 ▸ hne)]
        exact hq
      · rw [hc, h.2]

theorem Follows.corner {g : Mapping} {p : Placer} {m m' : Nat × Nat} (h : Follows g p m)
    (cw : Memory 8) {row col : Int} (hm : markCorner g row col m = some m') :
    ∃ q, placeCorner g cw row col p = some q ∧ Follows g q m' := by
  unfold markCorner at hm
  unfold placeCorner
  cases hs : cornerShape g row col with
  | some shape =>
    rw [hs] at hm
    exact h.pattern cw hm
  | none =>
    rw [hs] at hm
    exact ⟨p, rfl, Option.some.inj hm ▸ h⟩

theorem Follows.edge {g : Mapping} {p : Placer} {m m' : Nat × Nat} (h : Follows g p m)
    (cw : Memory 8) {row col : Int} (hm : markEdge g row col m = some m') :
    ∃ q, visit g cw row col p = some q ∧ Follows g q m' := by
  simp only [markEdge] at hm
  simp only [visit]
  by_cases hin : inMatrix g (row, col) = true
  · have hin' := (inMatrix_iff g (row, col)).1 hin
    simp only at hin'
    have ha : assigned row.toNat col.toNat p = m.1.testBit (cellIndex row.toNat col.toNat) :=
      h.1 _ _ (by omega) (by omega)
    rw [ha]
    split at hm
    · rw [if_pos ‹_›]
      exact h.pattern cw hm
    · rw [if_neg ‹_›]
      simp only [Option.some.injEq] at hm
      exact ⟨p, rfl, hm ▸ h⟩
  · rw [if_neg (by simp [hin])] at hm ⊢
    simp only [Option.some.injEq] at hm
    exact ⟨p, rfl, hm ▸ h⟩

theorem markModule_inside {g : Mapping} {row col : Int} {r c : Nat} (mask : Nat) (hr : row = r)
    (hc : col = c) (hrows : r < g.rows) (hcols : c < g.cols) :
    markModule g (row, col) mask = some (markCell r c mask) := by
  subst hr hc
  have h1 : wrapRow g ((r : Int), (c : Int)) = ((r : Int), (c : Int)) := by
    rw [wrapRow, if_neg (by simp)]
  have h2 : wrapCol g ((r : Int), (c : Int)) = ((r : Int), (c : Int)) := by
    rw [wrapCol, if_neg (by simp)]
  simp only [markModule, h1, h2]
  rw [if_pos ((inMatrix_iff _ _).2 (by simp only; omega))]
  simp

theorem utahBits_eq : utahBits = (1 <<< 0) ||| (1 <<< 1) ||| (1 <<< 132) ||| (1 <<< 133) |||
    (1 <<< 134) ||| (1 <<< 264) ||| (1 <<< 265) ||| (1 <<< 266) := by decide +kernel

theorem markModules_utah {g : Mapping} {r c : Nat} (mask : Nat) (hr : r + 2 < g.rows)
    (hc : c + 2 < g.cols) :
    markModules g (utahShape ((r : Int) + 2) ((c : Int) + 2)) mask =
      some (mask ||| (utahBits <<< (132 * r + c))) := by
  simp only [utahShape, markModules]
  rw [markModule_inside (r := r) (c := c) mask (by omega) (by omega) (by omega) (by omega)]
  simp only []
  rw [markModule_inside (r := r) (c := c + 1) _ (by omega) (by omega) (by omega) (by omega)]
  simp only []
  rw [markModule_inside (r := r + 1) (c := c) _ (by omega) (by omega) (by omega) (by omega)]
  simp only []
  rw [markModule_inside (r := r + 1) (c := c + 1) _ (by omega) (by omega) (by omega) (by omega)]
  simp only []
  rw [markModule_inside (r := r + 1) (c := c + 2) _ (by omega) (by omega) (by omega) (by omega)]
  simp only []
  rw [markModule_inside (r := r + 2) (c := c) _ (by omega) (by omega) (by omega) (by omega)]
  simp only []
  rw [markModule_inside (r := r + 2) (c := c + 1) _ (by omega) (by omega) (by omega) (by omega)]
  simp only []
  rw [markModule_inside (r := r + 2) (c := c + 2) _ (by omega) (by omega) (by omega) (by omega)]
  simp only [Option.some.injEq, markCell, cellIndex, Config.mapStride, utahBits_eq,
    Nat.shiftLeft_or_distrib, ← Nat.shiftLeft_add, Nat.or_assoc]
  congr 1
  have e1 : 1 + (132 * r + c) = 132 * r + (c + 1) := by omega
  have e2 : 132 + (132 * r + c) = 132 * (r + 1) + c := by omega
  have e3 : 133 + (132 * r + c) = 132 * (r + 1) + (c + 1) := by omega
  have e4 : 134 + (132 * r + c) = 132 * (r + 1) + (c + 2) := by omega
  have e5 : 264 + (132 * r + c) = 132 * (r + 2) + c := by omega
  have e6 : 265 + (132 * r + c) = 132 * (r + 2) + (c + 1) := by omega
  have e7 : 266 + (132 * r + c) = 132 * (r + 2) + (c + 2) := by omega
  rw [e1, e2, e3, e4, e5, e6, e7, Nat.zero_add]

theorem markVisit_edge {g : Mapping} {r c mask chr : Nat} {m' : Nat × Nat}
    (h : markVisit g r c mask chr = some m') :
    markEdge g ((r : Int) - 8) ((c : Int) - 8) (mask, chr) = some m' := by
  simp only [markVisit] at h
  cases hin : (Nat.ble 10 r && Nat.ble 10 c && Nat.ble (r + 1) (g.rows + 8) &&
      Nat.ble (c + 1) (g.cols + 8)) with
  | false => rw [hin] at h; exact h
  | true =>
    rw [hin, cond_true] at h
    simp only [Bool.and_eq_true, Nat.ble_eq] at hin
    obtain ⟨⟨⟨h1, h2⟩, h3⟩, h4⟩ := hin
    obtain ⟨r', rfl⟩ : ∃ r', r = r' + 10 := ⟨r - 10, by omega⟩
    obtain ⟨c', rfl⟩ : ∃ c', c = c' + 10 := ⟨c - 10, by omega⟩
    have er : (((r' + 10 : Nat) : Int) - 8) = (r' : Int) + 2 := by omega
    have ec : (((c' + 10 : Nat) : Int) - 8) = (c' : Int) + 2 := by omega
    have hmat : inMatrix g ((r' : Int) + 2, (c' : Int) + 2) = true :=
      (inMatrix_iff _ _).2 (by simp only; omega)
    have en : cellIndex ((r' : Int) + 2).toNat ((c' : Int) + 2).toNat =
        132 * (r' + 10 - 8) + (c' + 10 - 8) := by
      simp only [cellIndex, Config.mapStride]
      omega
    rw [er, ec, markEdge, hmat, en]
    simp only [Nat.add_sub_cancel] at h
    cases hb : Nat.testBit mask (132 * (r' + 10 - 8) + (c' + 10 - 8)) with
    | true => rw [hb] at h; simpa using h
    | false =>
      rw [hb, cond_false] at h
      cases ht : Nat.beq chr g.total with
      | true => rw [ht] at h; cases h
      | false =>
        rw [ht, cond_false] at h
        rw [if_pos (by decide), markPattern, if_neg (by simpa using Nat.ne_of_beq_eq_false ht),
          markModules_utah mask (by omega) (by omega)]
        exact h

theorem Follows.up {g : Mapping} {cw : Memory 8} {n r c mask chr r' c' mask' chr' : Nat} {p : Placer}
    (h : Follows g p (mask, chr)) (hm : markUp g n r c mask chr = some (r', c', mask', chr')) :
    ∃ q, upRight g cw n ((r : Int) - 8) ((c : Int) - 8) p = some ((r' : Int) - 8, (c' : Int) - 8, q) ∧
      Follows g q (mask', chr') := by
  induction n generalizing r c mask chr p with
  | zero => cases hm
  | succ n ih =>
    simp only [markUp] at hm
    split at hm
    · cases hm
    · rename_i m1 h1 hv
      obtain ⟨q, hq, hfq⟩ := h.edge cw (markVisit_edge hv)
      simp only [upRight, hq]
      cases hgo : (Nat.ble 10 r && Nat.ble (c + 3) (g.cols + 8)) with
      | true =>
        rw [hgo, cond_true] at hm
        simp only [Bool.and_eq_true, Nat.ble_eq] at hgo
        obtain ⟨q', hq', hfq'⟩ := ih hfq hm
        refine ⟨q', ?_, hfq'⟩
        rw [if_pos (by omega), ← hq']
        congr 1 <;> omega
      | false =>
        rw [hgo, cond_false] at hm
        cases h2 : Nat.ble 2 r with
        | false => rw [h2] at hm; cases hm
        | true =>
          rw [h2, cond_true] at hm
          simp only [Option.some.injEq, Prod.mk.injEq] at hm
          obtain ⟨rfl, rfl, rfl, rfl⟩ := hm
          rw [Nat.ble_eq] at h2
          rw [Bool.and_eq_false_iff] at hgo
          have hstop : ¬ ((r : Int) - 8 - 2 ≥ 0 ∧ (c : Int) - 8 + 2 < g.cols) := by
            rcases hgo with h | h
            · have := Nat.not_le_of_not_ble_eq_true (by rw [h]; decide); omega
            · have := Nat.not_le_of_not_ble_eq_true (by rw [h]; decide); omega
          refine ⟨q, ?_, hfq⟩
          rw [if_neg hstop]
          have e1 : (r : Int) - 8 - 2 = ((r - 2 : Nat) : Int) - 8 := by omega
          have e2 : (c : Int) - 8 + 2 = ((c + 2 : Nat) : Int) - 8 := by omega
          rw [e1, e2]

theorem Follows.down {g : Mapping} {cw : Memory 8} {n r c mask chr r' c' mask' chr' : Nat} {p : Placer}
    (h : Follows g p (mask, chr)) (hm : markDown g n r c mask chr = some (r', c', mask', chr')) :
    ∃ q, downLeft g cw n ((r : Int) - 8) ((c : Int) - 8) p = some ((r' : Int) - 8, (c' : Int) - 8, q) ∧
      Follows g q (mask', chr') := by
  induction n generalizing r c mask chr p with
  | zero => cases hm
  | succ n ih =>
    simp only [markDown] at hm
    split at hm
    · cases hm
    · rename_i m1 h1 hv
      obtain ⟨q, hq, hfq⟩ := h.edge cw (markVisit_edge hv)
      simp only [downLeft, hq]
      cases hgo : (Nat.ble (r + 3) (g.rows + 8) && Nat.ble 10 c) with
      | true =>
        rw [hgo, cond_true] at hm
        simp only [Bool.and_eq_true, Nat.ble_eq] at hgo
        obtain ⟨q', hq', hfq'⟩ := ih hfq hm
        refine ⟨q', ?_, hfq'⟩
        rw [if_pos (by omega), ← hq']
        congr 1 <;> omega
      | false =>
        rw [hgo, cond_false] at hm
        cases h2 : Nat.ble 2 c with
        | false => rw [h2] at hm; cases hm
        | true =>
          rw [h2, cond_true] at hm
          simp only [Option.some.injEq, Prod.mk.injEq] at hm
          obtain ⟨rfl, rfl, rfl, rfl⟩ := hm
          rw [Nat.ble_eq] at h2
          rw [Bool.and_eq_false_iff] at hgo
          have hstop : ¬ ((r : Int) - 8 + 2 < g.rows ∧ (c : Int) - 8 - 2 ≥ 0) := by
            rcases hgo with h | h
            · have := Nat.not_le_of_not_ble_eq_true (by rw [h]; decide); omega
            · have := Nat.not_le_of_not_ble_eq_true (by rw [h]; decide); omega
          refine ⟨q, ?_, hfq⟩
          rw [if_neg hstop]
          have e1 : (r : Int) - 8 + 2 = ((r + 2 : Nat) : Int) - 8 := by omega
          have e2 : (c : Int) - 8 - 2 = ((c - 2 : Nat) : Int) - 8 := by omega
          rw [e1, e2]

theorem Follows.traverse {g : Mapping} {cw : Memory 8} {n r c mask chr : Nat} {m' : Nat × Nat}
    {p : Placer} (h : Follows g p (mask, chr)) (hm : markTraverse g n r c mask chr = some m') :
    ∃ q, Machine.traverse g cw n ((r : Int) - 8) ((c : Int) - 8) p = some q ∧ Follows g q m' := by
  induction n generalizing r c mask chr p with
  | zero => cases hm
  | succ n ih =>
    simp only [markTraverse] at hm
    split at hm
    · cases hm
    · rename_i m0 h0 hcorner
      obtain ⟨q0, hq0, hf0⟩ := h.corner cw hcorner
      split at hm
      · cases hm
      · rename_i r1 c1 m1 h1 hup
        obtain ⟨q1, hq1, hf1⟩ := hf0.up (cw := cw) hup
        split at hm
        · cases hm
        · rename_i r2 c2 m2 h2 hdown
          obtain ⟨q2, hq2, hf2⟩ := hf1.down (cw := cw) hdown
          have e1 : (r1 : Int) - 8 + 1 = ((r1 + 1 : Nat) : Int) - 8 := by omega
          have e2 : (c1 : Int) - 8 + 3 = ((c1 + 3 : Nat) : Int) - 8 := by omega
          simp only [Machine.traverse, hq0, hq1]
          rw [e1, e2, hq2]
          simp only []
          cases hgo : (Nat.ble (r2 + 4) (g.rows + 8) || Nat.ble (c2 + 2) (g.cols + 8)) with
          | true =>
            rw [hgo, cond_true] at hm
            obtain ⟨q', hq', hf'⟩ := ih hf2 hm
            refine ⟨q', ?_, hf'⟩
            simp only [Bool.or_eq_true, Nat.ble_eq] at hgo
            rw [if_pos (by omega), ← hq']
            congr 1 <;> omega
          | false =>
            rw [hgo, cond_false] at hm
            simp only [Option.some.injEq] at hm
            rw [Bool.or_eq_false_iff] at hgo
            have g1 := Nat.not_le_of_not_ble_eq_true (by rw [hgo.1]; decide)
            have g2 := Nat.not_le_of_not_ble_eq_true (by rw [hgo.2]; decide)
            exact ⟨q2, by rw [if_neg (by omega)], hm ▸ hf2⟩

theorem testBit_markRows (cols n : Nat) (r c : Nat) (hr : r < n) (hc : c < cols) :
    (markRows cols n).testBit (132 * r + c) = true := by
  induction n with
  | zero => omega
  | succ n ih =>
    rw [markRows, Nat.testBit_or]
    by_cases h : r < n
    · rw [ih h]; rfl
    · have e : r = n := by omega
      subst e
      rw [Nat.testBit_shiftLeft]
      simp [hc]

/-- The marks fill the mapping area of every entry of the capacity table (R622). -/
theorem marksFill_all : ∀ n : Fin Config.nEntries, marksFill (mappingOf (capEntry n)) = true := by
  decide +kernel

theorem cleared_marked (g : Mapping) (s : State) : Marked g (clearedPlacer g s) 0 := by
  intro r c hr hc
  simp only [assigned, clearedPlacer]
  rw [read_fillArea_cell _ _ hr hc]
  simp

/-- PLACE's placement succeeds for every entry of the capacity table, whatever the codewords are: it
uses exactly T codewords and assigns every cell of the mapping area (R622). -/
theorem placeAll_succeeds (n : Fin Config.nEntries) (cw : Memory 8) (s : State) :
    ∃ q, placeAll (mappingOf (capEntry n)) cw (clearedPlacer (mappingOf (capEntry n)) s) = some q ∧
      q.chr = (capEntry n).total := by
  have hfill := marksFill_all n
  have htotal : (mappingOf (capEntry n)).total = (capEntry n).total := rfl
  generalize mappingOf (capEntry n) = g at *
  simp only [marksFill] at hfill
  split at hfill
  · cases hfill
  · rename_i mask chr hm
    simp only [Bool.and_eq_true, Nat.beq_eq] at hfill
    obtain ⟨rfl, rfl⟩ := hfill
    have hstart : Follows g (if (g.rows * g.cols) % 8 = 4 then cornerFill g (clearedPlacer g s)
        else clearedPlacer g s) (markStart g, 0) := by
      rw [markStart]
      split
      · exact ⟨((((cleared_marked g s).assign _ _ _).assign _ _ _).assign _ _ _).assign _ _ _, rfl⟩
      · exact ⟨cleared_marked g s, rfl⟩
    obtain ⟨q, hq, hf⟩ := hstart.traverse (cw := cw) hm
    refine ⟨q, ?_, hf.2.trans htotal⟩
    have e : (((12 : Nat) : Int) - 8) = 4 ∧ (((8 : Nat) : Int) - 8) = 0 := by decide
    rw [e.1, e.2] at hq
    have hall : allAssigned g q.asg = true := by
      simp only [allAssigned, List.all_eq_true, List.mem_range]
      intro r hr c hc
      have := hf.1 r c hr hc
      rw [assigned] at this
      rw [this]
      exact testBit_markRows _ _ _ _ hr hc
    simp only [placeAll]
    rw [hq]
    simp [hall]

end Sys2Proof.Machine
end

