-- ==== Sys2Proof/Laws/State.lean ====
section
/-! SUPPORT. The fields of the state after each update: for every update of the model, what each of
the state's fields holds, each by rfl. A conjunction is one simp rule a field. -/

namespace Sys2Proof.Machine

@[simp] theorem complete_ok_fields (s : State) :
    (complete (Run.ok s)).ie = s.ie ∧ (complete (Run.ok s)).done = true ∧
    (complete (Run.ok s)).err = s.err ∧ (complete (Run.ok s)).errCode = s.errCode ∧
    (complete (Run.ok s)).cmdLost = s.cmdLost ∧ (complete (Run.ok s)).wrLost = s.wrLost ∧
    (complete (Run.ok s)).busErr = s.busErr ∧ (complete (Run.ok s)).selv = s.selv ∧
    (complete (Run.ok s)).mvalid = s.mvalid ∧ (complete (Run.ok s)).cmd = s.cmd ∧
    (complete (Run.ok s)).result = s.result ∧ (complete (Run.ok s)).txtLen = s.txtLen ∧
    (complete (Run.ok s)).cwCount = s.cwCount ∧ (complete (Run.ok s)).selIdx = s.selIdx ∧
    (complete (Run.ok s)).genE = s.genE ∧ (complete (Run.ok s)).placeUsed = s.placeUsed ∧
    (complete (Run.ok s)).txt = s.txt ∧ (complete (Run.ok s)).cw = s.cw ∧
    (complete (Run.ok s)).gen = s.gen ∧ (complete (Run.ok s)).acc = s.acc ∧
    (complete (Run.ok s)).bm = s.bm ∧ (complete (Run.ok s)).asg = s.asg ∧
    (complete (Run.ok s)).pending = none ∧ (complete (Run.ok s)).draws = s.draws ∧
    (complete (Run.ok s)).inputs = s.inputs ∧ (complete (Run.ok s)).readData = s.readData :=
    ⟨rfl, rfl, rfl, rfl, rfl, rfl, rfl, rfl, rfl, rfl, rfl, rfl, rfl, rfl, rfl, rfl,
      rfl, rfl, rfl, rfl, rfl, rfl, rfl, rfl, rfl, rfl⟩

@[simp] theorem complete_raise_fields (e : CmdError) (s : State) :
    (complete (Run.raise e s)).ie = s.ie ∧ (complete (Run.raise e s)).done = true ∧
    (complete (Run.raise e s)).err = true ∧ (complete (Run.raise e s)).errCode = errorCode e ∧
    (complete (Run.raise e s)).cmdLost = s.cmdLost ∧ (complete (Run.raise e s)).wrLost = s.wrLost ∧
    (complete (Run.raise e s)).busErr = s.busErr ∧ (complete (Run.raise e s)).selv = s.selv ∧
    (complete (Run.raise e s)).mvalid = s.mvalid ∧ (complete (Run.raise e s)).cmd = s.cmd ∧
    (complete (Run.raise e s)).result = s.result ∧ (complete (Run.raise e s)).txtLen = s.txtLen ∧
    (complete (Run.raise e s)).cwCount = s.cwCount ∧ (complete (Run.raise e s)).selIdx = s.selIdx ∧
    (complete (Run.raise e s)).genE = s.genE ∧ (complete (Run.raise e s)).placeUsed = s.placeUsed ∧
    (complete (Run.raise e s)).txt = s.txt ∧ (complete (Run.raise e s)).cw = s.cw ∧
    (complete (Run.raise e s)).gen = s.gen ∧ (complete (Run.raise e s)).acc = s.acc ∧
    (complete (Run.raise e s)).bm = s.bm ∧ (complete (Run.raise e s)).asg = s.asg ∧
    (complete (Run.raise e s)).pending = none ∧ (complete (Run.raise e s)).draws = s.draws ∧
    (complete (Run.raise e s)).inputs = s.inputs ∧
    (complete (Run.raise e s)).readData = s.readData :=
    ⟨rfl, rfl, rfl, rfl, rfl, rfl, rfl, rfl, rfl, rfl, rfl, rfl, rfl, rfl, rfl, rfl,
      rfl, rfl, rfl, rfl, rfl, rfl, rfl, rfl, rfl, rfl⟩

@[simp] theorem accept_fields (v : Word) (s : State) :
    (accept v s).ie = s.ie ∧ (accept v s).done = false ∧ (accept v s).err = false ∧
    (accept v s).errCode = 0#4 ∧ (accept v s).cmdLost = s.cmdLost ∧ (accept v s).wrLost = s.wrLost ∧
    (accept v s).busErr = s.busErr ∧ (accept v s).selv = s.selv ∧ (accept v s).mvalid = s.mvalid ∧
    (accept v s).cmd = v ∧ (accept v s).result = s.result ∧ (accept v s).txtLen = s.txtLen ∧
    (accept v s).cwCount = s.cwCount ∧ (accept v s).selIdx = s.selIdx ∧ (accept v s).genE = s.genE ∧
    (accept v s).placeUsed = s.placeUsed ∧ (accept v s).txt = s.txt ∧ (accept v s).cw = s.cw ∧
    (accept v s).gen = s.gen ∧ (accept v s).acc = s.acc ∧ (accept v s).bm = s.bm ∧
    (accept v s).asg = s.asg ∧ (accept v s).pending = some v ∧ (accept v s).draws = s.draws ∧
    (accept v s).inputs = s.inputs ∧ (accept v s).readData = s.readData :=
    ⟨rfl, rfl, rfl, rfl, rfl, rfl, rfl, rfl, rfl, rfl, rfl, rfl, rfl, rfl, rfl, rfl,
      rfl, rfl, rfl, rfl, rfl, rfl, rfl, rfl, rfl, rfl⟩

@[simp] theorem clearMvalid_fields (s : State) :
    (clearMvalid s).ie = s.ie ∧ (clearMvalid s).done = s.done ∧ (clearMvalid s).err = s.err ∧
    (clearMvalid s).errCode = s.errCode ∧ (clearMvalid s).cmdLost = s.cmdLost ∧
    (clearMvalid s).wrLost = s.wrLost ∧ (clearMvalid s).busErr = s.busErr ∧
    (clearMvalid s).selv = s.selv ∧ (clearMvalid s).mvalid = false ∧ (clearMvalid s).cmd = s.cmd ∧
    (clearMvalid s).result = s.result ∧ (clearMvalid s).txtLen = s.txtLen ∧
    (clearMvalid s).cwCount = s.cwCount ∧ (clearMvalid s).selIdx = s.selIdx ∧
    (clearMvalid s).genE = s.genE ∧ (clearMvalid s).placeUsed = s.placeUsed ∧
    (clearMvalid s).txt = s.txt ∧ (clearMvalid s).cw = s.cw ∧ (clearMvalid s).gen = s.gen ∧
    (clearMvalid s).acc = s.acc ∧ (clearMvalid s).bm = s.bm ∧ (clearMvalid s).asg = s.asg ∧
    (clearMvalid s).pending = s.pending ∧ (clearMvalid s).draws = s.draws ∧
    (clearMvalid s).inputs = s.inputs ∧ (clearMvalid s).readData = s.readData :=
    ⟨rfl, rfl, rfl, rfl, rfl, rfl, rfl, rfl, rfl, rfl, rfl, rfl, rfl, rfl, rfl, rfl,
      rfl, rfl, rfl, rfl, rfl, rfl, rfl, rfl, rfl, rfl⟩

@[simp] theorem setResult_fields (v : Byte) (s : State) :
    (setResult v s).ie = s.ie ∧ (setResult v s).done = s.done ∧ (setResult v s).err = s.err ∧
    (setResult v s).errCode = s.errCode ∧ (setResult v s).cmdLost = s.cmdLost ∧
    (setResult v s).wrLost = s.wrLost ∧ (setResult v s).busErr = s.busErr ∧
    (setResult v s).selv = s.selv ∧ (setResult v s).mvalid = s.mvalid ∧
    (setResult v s).cmd = s.cmd ∧ (setResult v s).result = v ∧ (setResult v s).txtLen = s.txtLen ∧
    (setResult v s).cwCount = s.cwCount ∧ (setResult v s).selIdx = s.selIdx ∧
    (setResult v s).genE = s.genE ∧ (setResult v s).placeUsed = s.placeUsed ∧
    (setResult v s).txt = s.txt ∧ (setResult v s).cw = s.cw ∧ (setResult v s).gen = s.gen ∧
    (setResult v s).acc = s.acc ∧ (setResult v s).bm = s.bm ∧ (setResult v s).asg = s.asg ∧
    (setResult v s).pending = s.pending ∧ (setResult v s).draws = s.draws ∧
    (setResult v s).inputs = s.inputs ∧ (setResult v s).readData = s.readData :=
    ⟨rfl, rfl, rfl, rfl, rfl, rfl, rfl, rfl, rfl, rfl, rfl, rfl, rfl, rfl, rfl, rfl,
      rfl, rfl, rfl, rfl, rfl, rfl, rfl, rfl, rfl, rfl⟩

@[simp] theorem setSelection_fields (n : Fin Config.nEntries) (s : State) :
    (setSelection n s).ie = s.ie ∧ (setSelection n s).done = s.done ∧
    (setSelection n s).err = s.err ∧ (setSelection n s).errCode = s.errCode ∧
    (setSelection n s).cmdLost = s.cmdLost ∧ (setSelection n s).wrLost = s.wrLost ∧
    (setSelection n s).busErr = s.busErr ∧ (setSelection n s).selv = true ∧
    (setSelection n s).mvalid = s.mvalid ∧ (setSelection n s).cmd = s.cmd ∧
    (setSelection n s).result = s.result ∧ (setSelection n s).txtLen = s.txtLen ∧
    (setSelection n s).cwCount = s.cwCount ∧ (setSelection n s).selIdx = n ∧
    (setSelection n s).genE = s.genE ∧ (setSelection n s).placeUsed = s.placeUsed ∧
    (setSelection n s).txt = s.txt ∧ (setSelection n s).cw = s.cw ∧ (setSelection n s).gen = s.gen ∧
    (setSelection n s).acc = s.acc ∧ (setSelection n s).bm = s.bm ∧ (setSelection n s).asg = s.asg ∧
    (setSelection n s).pending = s.pending ∧ (setSelection n s).draws = s.draws ∧
    (setSelection n s).inputs = s.inputs ∧ (setSelection n s).readData = s.readData :=
    ⟨rfl, rfl, rfl, rfl, rfl, rfl, rfl, rfl, rfl, rfl, rfl, rfl, rfl, rfl, rfl, rfl,
      rfl, rfl, rfl, rfl, rfl, rfl, rfl, rfl, rfl, rfl⟩

@[simp] theorem dropSelection_fields (s : State) :
    (dropSelection s).ie = s.ie ∧ (dropSelection s).done = s.done ∧ (dropSelection s).err = s.err ∧
    (dropSelection s).errCode = s.errCode ∧ (dropSelection s).cmdLost = s.cmdLost ∧
    (dropSelection s).wrLost = s.wrLost ∧ (dropSelection s).busErr = s.busErr ∧
    (dropSelection s).selv = false ∧ (dropSelection s).mvalid = s.mvalid ∧
    (dropSelection s).cmd = s.cmd ∧ (dropSelection s).result = s.result ∧
    (dropSelection s).txtLen = s.txtLen ∧ (dropSelection s).cwCount = s.cwCount ∧
    (dropSelection s).selIdx = ⟨0, by decide⟩ ∧ (dropSelection s).genE = s.genE ∧
    (dropSelection s).placeUsed = s.placeUsed ∧ (dropSelection s).txt = s.txt ∧
    (dropSelection s).cw = s.cw ∧ (dropSelection s).gen = s.gen ∧ (dropSelection s).acc = s.acc ∧
    (dropSelection s).bm = s.bm ∧ (dropSelection s).asg = s.asg ∧
    (dropSelection s).pending = s.pending ∧ (dropSelection s).draws = s.draws ∧
    (dropSelection s).inputs = s.inputs ∧ (dropSelection s).readData = s.readData :=
    ⟨rfl, rfl, rfl, rfl, rfl, rfl, rfl, rfl, rfl, rfl, rfl, rfl, rfl, rfl, rfl, rfl,
      rfl, rfl, rfl, rfl, rfl, rfl, rfl, rfl, rfl, rfl⟩

@[simp] theorem storeCodewords_fields (l : List Byte) (s : State) :
    (storeCodewords l s).ie = s.ie ∧ (storeCodewords l s).done = s.done ∧
    (storeCodewords l s).err = s.err ∧ (storeCodewords l s).errCode = s.errCode ∧
    (storeCodewords l s).cmdLost = s.cmdLost ∧ (storeCodewords l s).wrLost = s.wrLost ∧
    (storeCodewords l s).busErr = s.busErr ∧ (storeCodewords l s).selv = s.selv ∧
    (storeCodewords l s).mvalid = s.mvalid ∧ (storeCodewords l s).cmd = s.cmd ∧
    (storeCodewords l s).result = s.result ∧ (storeCodewords l s).txtLen = s.txtLen ∧
    (storeCodewords l s).cwCount = BitVec.ofNat 12 l.length ∧
    (storeCodewords l s).selIdx = s.selIdx ∧ (storeCodewords l s).genE = s.genE ∧
    (storeCodewords l s).placeUsed = s.placeUsed ∧ (storeCodewords l s).txt = s.txt ∧
    (storeCodewords l s).cw = Memory.writeRange s.cw 0 l.length (fun i => l.getD i 0) ∧
    (storeCodewords l s).gen = s.gen ∧ (storeCodewords l s).acc = s.acc ∧
    (storeCodewords l s).bm = s.bm ∧ (storeCodewords l s).asg = s.asg ∧
    (storeCodewords l s).pending = s.pending ∧ (storeCodewords l s).draws = s.draws ∧
    (storeCodewords l s).inputs = s.inputs ∧ (storeCodewords l s).readData = s.readData :=
    ⟨rfl, rfl, rfl, rfl, rfl, rfl, rfl, rfl, rfl, rfl, rfl, rfl, rfl, rfl, rfl, rfl,
      rfl, rfl, rfl, rfl, rfl, rfl, rfl, rfl, rfl, rfl⟩

@[simp] theorem overflowCodewords_fields (s : State) :
    (overflowCodewords s).ie = s.ie ∧ (overflowCodewords s).done = s.done ∧
    (overflowCodewords s).err = s.err ∧ (overflowCodewords s).errCode = s.errCode ∧
    (overflowCodewords s).cmdLost = s.cmdLost ∧ (overflowCodewords s).wrLost = s.wrLost ∧
    (overflowCodewords s).busErr = s.busErr ∧ (overflowCodewords s).selv = s.selv ∧
    (overflowCodewords s).mvalid = s.mvalid ∧ (overflowCodewords s).cmd = s.cmd ∧
    (overflowCodewords s).result = s.result ∧ (overflowCodewords s).txtLen = s.txtLen ∧
    (overflowCodewords s).cwCount = 0#12 ∧ (overflowCodewords s).selIdx = s.selIdx ∧
    (overflowCodewords s).genE = s.genE ∧ (overflowCodewords s).placeUsed = s.placeUsed ∧
    (overflowCodewords s).txt = s.txt ∧
    (overflowCodewords s).cw = Memory.writeRange s.cw 0 Config.dataMax (fun i => Config.freeByte (s.draws + i)) ∧
    (overflowCodewords s).gen = s.gen ∧ (overflowCodewords s).acc = s.acc ∧
    (overflowCodewords s).bm = s.bm ∧ (overflowCodewords s).asg = s.asg ∧
    (overflowCodewords s).pending = s.pending ∧
    (overflowCodewords s).draws = s.draws + Config.dataMax ∧
    (overflowCodewords s).inputs = s.inputs ∧ (overflowCodewords s).readData = s.readData := by
  simp only [overflowCodewords, and_self]

@[simp] theorem storePadding_fields (n c : Nat) (s : State) :
    (storePadding n c s).ie = s.ie ∧ (storePadding n c s).done = s.done ∧
    (storePadding n c s).err = s.err ∧ (storePadding n c s).errCode = s.errCode ∧
    (storePadding n c s).cmdLost = s.cmdLost ∧ (storePadding n c s).wrLost = s.wrLost ∧
    (storePadding n c s).busErr = s.busErr ∧ (storePadding n c s).selv = s.selv ∧
    (storePadding n c s).mvalid = s.mvalid ∧ (storePadding n c s).cmd = s.cmd ∧
    (storePadding n c s).result = s.result ∧ (storePadding n c s).txtLen = s.txtLen ∧
    (storePadding n c s).cwCount = BitVec.ofNat 12 c ∧ (storePadding n c s).selIdx = s.selIdx ∧
    (storePadding n c s).genE = s.genE ∧ (storePadding n c s).placeUsed = s.placeUsed ∧
    (storePadding n c s).txt = s.txt ∧
    (storePadding n c s).cw = Memory.writeRange s.cw n (c - n) (padCodeword n) ∧
    (storePadding n c s).gen = s.gen ∧ (storePadding n c s).acc = s.acc ∧
    (storePadding n c s).bm = s.bm ∧ (storePadding n c s).asg = s.asg ∧
    (storePadding n c s).pending = s.pending ∧ (storePadding n c s).draws = s.draws ∧
    (storePadding n c s).inputs = s.inputs ∧ (storePadding n c s).readData = s.readData :=
    ⟨rfl, rfl, rfl, rfl, rfl, rfl, rfl, rfl, rfl, rfl, rfl, rfl, rfl, rfl, rfl, rfl,
      rfl, rfl, rfl, rfl, rfl, rfl, rfl, rfl, rfl, rfl⟩

@[simp] theorem storeGenerator_fields (e : Nat) (s : State) :
    (storeGenerator e s).ie = s.ie ∧ (storeGenerator e s).done = s.done ∧
    (storeGenerator e s).err = s.err ∧ (storeGenerator e s).errCode = s.errCode ∧
    (storeGenerator e s).cmdLost = s.cmdLost ∧ (storeGenerator e s).wrLost = s.wrLost ∧
    (storeGenerator e s).busErr = s.busErr ∧ (storeGenerator e s).selv = s.selv ∧
    (storeGenerator e s).mvalid = s.mvalid ∧ (storeGenerator e s).cmd = s.cmd ∧
    (storeGenerator e s).result = s.result ∧ (storeGenerator e s).txtLen = s.txtLen ∧
    (storeGenerator e s).cwCount = s.cwCount ∧ (storeGenerator e s).selIdx = s.selIdx ∧
    (storeGenerator e s).genE = BitVec.ofNat 8 e ∧ (storeGenerator e s).placeUsed = s.placeUsed ∧
    (storeGenerator e s).txt = s.txt ∧ (storeGenerator e s).cw = s.cw ∧
    (storeGenerator e s).gen = Memory.writeRange s.gen 0 (e + 1) (fun j => (generator e).getD j 0) ∧
    (storeGenerator e s).acc = s.acc ∧ (storeGenerator e s).bm = s.bm ∧
    (storeGenerator e s).asg = s.asg ∧ (storeGenerator e s).pending = s.pending ∧
    (storeGenerator e s).draws = s.draws ∧ (storeGenerator e s).inputs = s.inputs ∧
    (storeGenerator e s).readData = s.readData :=
    ⟨rfl, rfl, rfl, rfl, rfl, rfl, rfl, rfl, rfl, rfl, rfl, rfl, rfl, rfl, rfl, rfl,
      rfl, rfl, rfl, rfl, rfl, rfl, rfl, rfl, rfl, rfl⟩

@[simp] theorem storeErrorCodewords_fields (s : State) :
    (storeErrorCodewords s).ie = s.ie ∧ (storeErrorCodewords s).done = s.done ∧
    (storeErrorCodewords s).err = s.err ∧ (storeErrorCodewords s).errCode = s.errCode ∧
    (storeErrorCodewords s).cmdLost = s.cmdLost ∧ (storeErrorCodewords s).wrLost = s.wrLost ∧
    (storeErrorCodewords s).busErr = s.busErr ∧ (storeErrorCodewords s).selv = s.selv ∧
    (storeErrorCodewords s).mvalid = s.mvalid ∧ (storeErrorCodewords s).cmd = s.cmd ∧
    (storeErrorCodewords s).result = s.result ∧ (storeErrorCodewords s).txtLen = s.txtLen ∧
    (storeErrorCodewords s).cwCount = s.cwCount ∧ (storeErrorCodewords s).selIdx = s.selIdx ∧
    (storeErrorCodewords s).genE = s.genE ∧ (storeErrorCodewords s).placeUsed = s.placeUsed ∧
    (storeErrorCodewords s).txt = s.txt ∧
    (storeErrorCodewords s).cw = writeBlocks s.gen (selected s).dataCw (selected s).blocks (selected s).eBlk (selected s).blocks s.cw ∧
    (storeErrorCodewords s).gen = s.gen ∧
    (storeErrorCodewords s).acc = Memory.writeRange s.acc 0 (selected s).eBlk (fun j => (blockAcc s.gen s.cw (selected s).dataCw (selected s).blocks (selected s).eBlk ((selected s).blocks - 1)).getD j 0) ∧
    (storeErrorCodewords s).bm = s.bm ∧ (storeErrorCodewords s).asg = s.asg ∧
    (storeErrorCodewords s).pending = s.pending ∧ (storeErrorCodewords s).draws = s.draws ∧
    (storeErrorCodewords s).inputs = s.inputs ∧ (storeErrorCodewords s).readData = s.readData :=
    ⟨rfl, rfl, rfl, rfl, rfl, rfl, rfl, rfl, rfl, rfl, rfl, rfl, rfl, rfl, rfl, rfl,
      rfl, rfl, rfl, rfl, rfl, rfl, rfl, rfl, rfl, rfl⟩

@[simp] theorem storePlacement_fields (p : Placer) (s : State) :
    (storePlacement p s).ie = s.ie ∧ (storePlacement p s).done = s.done ∧
    (storePlacement p s).err = s.err ∧ (storePlacement p s).errCode = s.errCode ∧
    (storePlacement p s).cmdLost = s.cmdLost ∧ (storePlacement p s).wrLost = s.wrLost ∧
    (storePlacement p s).busErr = s.busErr ∧ (storePlacement p s).selv = s.selv ∧
    (storePlacement p s).mvalid = true ∧ (storePlacement p s).cmd = s.cmd ∧
    (storePlacement p s).result = s.result ∧ (storePlacement p s).txtLen = s.txtLen ∧
    (storePlacement p s).cwCount = s.cwCount ∧ (storePlacement p s).selIdx = s.selIdx ∧
    (storePlacement p s).genE = s.genE ∧ (storePlacement p s).placeUsed = BitVec.ofNat 12 p.chr ∧
    (storePlacement p s).txt = s.txt ∧ (storePlacement p s).cw = s.cw ∧
    (storePlacement p s).gen = s.gen ∧ (storePlacement p s).acc = s.acc ∧
    (storePlacement p s).bm = p.bm ∧ (storePlacement p s).asg = p.asg ∧
    (storePlacement p s).pending = s.pending ∧ (storePlacement p s).draws = s.draws ∧
    (storePlacement p s).inputs = s.inputs ∧ (storePlacement p s).readData = s.readData :=
    ⟨rfl, rfl, rfl, rfl, rfl, rfl, rfl, rfl, rfl, rfl, rfl, rfl, rfl, rfl, rfl, rfl,
      rfl, rfl, rfl, rfl, rfl, rfl, rfl, rfl, rfl, rfl⟩

@[simp] theorem failPlacement_fields (g : Mapping) (s : State) :
    (failPlacement g s).ie = s.ie ∧ (failPlacement g s).done = s.done ∧
    (failPlacement g s).err = s.err ∧ (failPlacement g s).errCode = s.errCode ∧
    (failPlacement g s).cmdLost = s.cmdLost ∧ (failPlacement g s).wrLost = s.wrLost ∧
    (failPlacement g s).busErr = s.busErr ∧ (failPlacement g s).selv = s.selv ∧
    (failPlacement g s).mvalid = false ∧ (failPlacement g s).cmd = s.cmd ∧
    (failPlacement g s).result = s.result ∧ (failPlacement g s).txtLen = s.txtLen ∧
    (failPlacement g s).cwCount = s.cwCount ∧ (failPlacement g s).selIdx = s.selIdx ∧
    (failPlacement g s).genE = s.genE ∧ (failPlacement g s).placeUsed = 0#12 ∧
    (failPlacement g s).txt = s.txt ∧ (failPlacement g s).cw = s.cw ∧
    (failPlacement g s).gen = s.gen ∧ (failPlacement g s).acc = s.acc ∧
    (failPlacement g s).bm = fillArea g (fun i => Config.freeBit (s.draws + i)) s.bm ∧
    (failPlacement g s).asg = fillArea g (fun i => Config.freeBit (s.draws + Config.mapDepth + i)) s.asg ∧
    (failPlacement g s).pending = s.pending ∧
    (failPlacement g s).draws = s.draws + 2 * Config.mapDepth ∧
    (failPlacement g s).inputs = s.inputs ∧ (failPlacement g s).readData = s.readData :=
    ⟨rfl, rfl, rfl, rfl, rfl, rfl, rfl, rfl, rfl, rfl, rfl, rfl, rfl, rfl, rfl, rfl,
      rfl, rfl, rfl, rfl, rfl, rfl, rfl, rfl, rfl, rfl⟩

@[simp] theorem setBusErr_fields (s : State) :
    (setBusErr s).ie = s.ie ∧ (setBusErr s).done = s.done ∧ (setBusErr s).err = s.err ∧
    (setBusErr s).errCode = s.errCode ∧ (setBusErr s).cmdLost = s.cmdLost ∧
    (setBusErr s).wrLost = s.wrLost ∧ (setBusErr s).busErr = true ∧ (setBusErr s).selv = s.selv ∧
    (setBusErr s).mvalid = s.mvalid ∧ (setBusErr s).cmd = s.cmd ∧ (setBusErr s).result = s.result ∧
    (setBusErr s).txtLen = s.txtLen ∧ (setBusErr s).cwCount = s.cwCount ∧
    (setBusErr s).selIdx = s.selIdx ∧ (setBusErr s).genE = s.genE ∧
    (setBusErr s).placeUsed = s.placeUsed ∧ (setBusErr s).txt = s.txt ∧ (setBusErr s).cw = s.cw ∧
    (setBusErr s).gen = s.gen ∧ (setBusErr s).acc = s.acc ∧ (setBusErr s).bm = s.bm ∧
    (setBusErr s).asg = s.asg ∧ (setBusErr s).pending = s.pending ∧ (setBusErr s).draws = s.draws ∧
    (setBusErr s).inputs = s.inputs ∧ (setBusErr s).readData = s.readData :=
    ⟨rfl, rfl, rfl, rfl, rfl, rfl, rfl, rfl, rfl, rfl, rfl, rfl, rfl, rfl, rfl, rfl,
      rfl, rfl, rfl, rfl, rfl, rfl, rfl, rfl, rfl, rfl⟩

@[simp] theorem setCmdLost_fields (s : State) :
    (setCmdLost s).ie = s.ie ∧ (setCmdLost s).done = s.done ∧ (setCmdLost s).err = s.err ∧
    (setCmdLost s).errCode = s.errCode ∧ (setCmdLost s).cmdLost = true ∧
    (setCmdLost s).wrLost = s.wrLost ∧ (setCmdLost s).busErr = s.busErr ∧
    (setCmdLost s).selv = s.selv ∧ (setCmdLost s).mvalid = s.mvalid ∧ (setCmdLost s).cmd = s.cmd ∧
    (setCmdLost s).result = s.result ∧ (setCmdLost s).txtLen = s.txtLen ∧
    (setCmdLost s).cwCount = s.cwCount ∧ (setCmdLost s).selIdx = s.selIdx ∧
    (setCmdLost s).genE = s.genE ∧ (setCmdLost s).placeUsed = s.placeUsed ∧
    (setCmdLost s).txt = s.txt ∧ (setCmdLost s).cw = s.cw ∧ (setCmdLost s).gen = s.gen ∧
    (setCmdLost s).acc = s.acc ∧ (setCmdLost s).bm = s.bm ∧ (setCmdLost s).asg = s.asg ∧
    (setCmdLost s).pending = s.pending ∧ (setCmdLost s).draws = s.draws ∧
    (setCmdLost s).inputs = s.inputs ∧ (setCmdLost s).readData = s.readData :=
    ⟨rfl, rfl, rfl, rfl, rfl, rfl, rfl, rfl, rfl, rfl, rfl, rfl, rfl, rfl, rfl, rfl,
      rfl, rfl, rfl, rfl, rfl, rfl, rfl, rfl, rfl, rfl⟩

@[simp] theorem setWrLost_fields (s : State) :
    (setWrLost s).ie = s.ie ∧ (setWrLost s).done = s.done ∧ (setWrLost s).err = s.err ∧
    (setWrLost s).errCode = s.errCode ∧ (setWrLost s).cmdLost = s.cmdLost ∧
    (setWrLost s).wrLost = true ∧ (setWrLost s).busErr = s.busErr ∧ (setWrLost s).selv = s.selv ∧
    (setWrLost s).mvalid = s.mvalid ∧ (setWrLost s).cmd = s.cmd ∧ (setWrLost s).result = s.result ∧
    (setWrLost s).txtLen = s.txtLen ∧ (setWrLost s).cwCount = s.cwCount ∧
    (setWrLost s).selIdx = s.selIdx ∧ (setWrLost s).genE = s.genE ∧
    (setWrLost s).placeUsed = s.placeUsed ∧ (setWrLost s).txt = s.txt ∧ (setWrLost s).cw = s.cw ∧
    (setWrLost s).gen = s.gen ∧ (setWrLost s).acc = s.acc ∧ (setWrLost s).bm = s.bm ∧
    (setWrLost s).asg = s.asg ∧ (setWrLost s).pending = s.pending ∧ (setWrLost s).draws = s.draws ∧
    (setWrLost s).inputs = s.inputs ∧ (setWrLost s).readData = s.readData :=
    ⟨rfl, rfl, rfl, rfl, rfl, rfl, rfl, rfl, rfl, rfl, rfl, rfl, rfl, rfl, rfl, rfl,
      rfl, rfl, rfl, rfl, rfl, rfl, rfl, rfl, rfl, rfl⟩

@[simp] theorem returnWord_fields (v : Word) (s : State) :
    (returnWord v s).ie = s.ie ∧ (returnWord v s).done = s.done ∧ (returnWord v s).err = s.err ∧
    (returnWord v s).errCode = s.errCode ∧ (returnWord v s).cmdLost = s.cmdLost ∧
    (returnWord v s).wrLost = s.wrLost ∧ (returnWord v s).busErr = s.busErr ∧
    (returnWord v s).selv = s.selv ∧ (returnWord v s).mvalid = s.mvalid ∧
    (returnWord v s).cmd = s.cmd ∧ (returnWord v s).result = s.result ∧
    (returnWord v s).txtLen = s.txtLen ∧ (returnWord v s).cwCount = s.cwCount ∧
    (returnWord v s).selIdx = s.selIdx ∧ (returnWord v s).genE = s.genE ∧
    (returnWord v s).placeUsed = s.placeUsed ∧ (returnWord v s).txt = s.txt ∧
    (returnWord v s).cw = s.cw ∧ (returnWord v s).gen = s.gen ∧ (returnWord v s).acc = s.acc ∧
    (returnWord v s).bm = s.bm ∧ (returnWord v s).asg = s.asg ∧
    (returnWord v s).pending = s.pending ∧ (returnWord v s).draws = s.draws ∧
    (returnWord v s).inputs = s.inputs ∧ (returnWord v s).readData = v :=
    ⟨rfl, rfl, rfl, rfl, rfl, rfl, rfl, rfl, rfl, rfl, rfl, rfl, rfl, rfl, rfl, rfl,
      rfl, rfl, rfl, rfl, rfl, rfl, rfl, rfl, rfl, rfl⟩

@[simp] theorem returnDraw_fields (mask : Word) (s : State) :
    (returnDraw mask s).ie = s.ie ∧ (returnDraw mask s).done = s.done ∧
    (returnDraw mask s).err = s.err ∧ (returnDraw mask s).errCode = s.errCode ∧
    (returnDraw mask s).cmdLost = s.cmdLost ∧ (returnDraw mask s).wrLost = s.wrLost ∧
    (returnDraw mask s).busErr = s.busErr ∧ (returnDraw mask s).selv = s.selv ∧
    (returnDraw mask s).mvalid = s.mvalid ∧ (returnDraw mask s).cmd = s.cmd ∧
    (returnDraw mask s).result = s.result ∧ (returnDraw mask s).txtLen = s.txtLen ∧
    (returnDraw mask s).cwCount = s.cwCount ∧ (returnDraw mask s).selIdx = s.selIdx ∧
    (returnDraw mask s).genE = s.genE ∧ (returnDraw mask s).placeUsed = s.placeUsed ∧
    (returnDraw mask s).txt = s.txt ∧ (returnDraw mask s).cw = s.cw ∧
    (returnDraw mask s).gen = s.gen ∧ (returnDraw mask s).acc = s.acc ∧
    (returnDraw mask s).bm = s.bm ∧ (returnDraw mask s).asg = s.asg ∧
    (returnDraw mask s).pending = s.pending ∧ (returnDraw mask s).draws = s.draws + 1 ∧
    (returnDraw mask s).inputs = s.inputs ∧
    (returnDraw mask s).readData = Config.freeWord s.draws &&& mask :=
    ⟨rfl, rfl, rfl, rfl, rfl, rfl, rfl, rfl, rfl, rfl, rfl, rfl, rfl, rfl, rfl, rfl,
      rfl, rfl, rfl, rfl, rfl, rfl, rfl, rfl, rfl, rfl⟩

@[simp] theorem writeStatus_fields (v : Word) (s : State) :
    (writeStatus v s).ie = s.ie ∧ (writeStatus v s).done = (s.done && !v.getLsbD 1) ∧
    (writeStatus v s).err = (s.err && !v.getLsbD 2) ∧
    (writeStatus v s).errCode = (if v.getLsbD 2 then 0#4 else s.errCode) ∧
    (writeStatus v s).cmdLost = (s.cmdLost && !v.getLsbD 8) ∧
    (writeStatus v s).wrLost = (s.wrLost && !v.getLsbD 9) ∧
    (writeStatus v s).busErr = (s.busErr && !v.getLsbD 10) ∧ (writeStatus v s).selv = s.selv ∧
    (writeStatus v s).mvalid = s.mvalid ∧ (writeStatus v s).cmd = s.cmd ∧
    (writeStatus v s).result = s.result ∧ (writeStatus v s).txtLen = s.txtLen ∧
    (writeStatus v s).cwCount = s.cwCount ∧ (writeStatus v s).selIdx = s.selIdx ∧
    (writeStatus v s).genE = s.genE ∧ (writeStatus v s).placeUsed = s.placeUsed ∧
    (writeStatus v s).txt = s.txt ∧ (writeStatus v s).cw = s.cw ∧ (writeStatus v s).gen = s.gen ∧
    (writeStatus v s).acc = s.acc ∧ (writeStatus v s).bm = s.bm ∧ (writeStatus v s).asg = s.asg ∧
    (writeStatus v s).pending = s.pending ∧ (writeStatus v s).draws = s.draws ∧
    (writeStatus v s).inputs = s.inputs ∧ (writeStatus v s).readData = s.readData :=
    ⟨rfl, rfl, rfl, rfl, rfl, rfl, rfl, rfl, rfl, rfl, rfl, rfl, rfl, rfl, rfl, rfl,
      rfl, rfl, rfl, rfl, rfl, rfl, rfl, rfl, rfl, rfl⟩

@[simp] theorem resetRegisters_fields (s : State) :
    (resetRegisters s).ie = State.reset.ie ∧ (resetRegisters s).done = State.reset.done ∧
    (resetRegisters s).err = State.reset.err ∧ (resetRegisters s).errCode = State.reset.errCode ∧
    (resetRegisters s).cmdLost = State.reset.cmdLost ∧
    (resetRegisters s).wrLost = State.reset.wrLost ∧
    (resetRegisters s).busErr = State.reset.busErr ∧ (resetRegisters s).selv = State.reset.selv ∧
    (resetRegisters s).mvalid = State.reset.mvalid ∧ (resetRegisters s).cmd = State.reset.cmd ∧
    (resetRegisters s).result = State.reset.result ∧
    (resetRegisters s).txtLen = State.reset.txtLen ∧
    (resetRegisters s).cwCount = State.reset.cwCount ∧
    (resetRegisters s).selIdx = State.reset.selIdx ∧ (resetRegisters s).genE = State.reset.genE ∧
    (resetRegisters s).placeUsed = State.reset.placeUsed ∧ (resetRegisters s).txt = s.txt ∧
    (resetRegisters s).cw = s.cw ∧ (resetRegisters s).gen = s.gen ∧ (resetRegisters s).acc = s.acc ∧
    (resetRegisters s).bm = s.bm ∧ (resetRegisters s).asg = s.asg ∧
    (resetRegisters s).pending = State.reset.pending ∧ (resetRegisters s).draws = s.draws ∧
    (resetRegisters s).inputs = s.inputs ∧ (resetRegisters s).readData = s.readData :=
    ⟨rfl, rfl, rfl, rfl, rfl, rfl, rfl, rfl, rfl, rfl, rfl, rfl, rfl, rfl, rfl, rfl,
      rfl, rfl, rfl, rfl, rfl, rfl, rfl, rfl, rfl, rfl⟩

@[simp] theorem drawMemories_fields (s : State) :
    (drawMemories s).ie = s.ie ∧ (drawMemories s).done = s.done ∧ (drawMemories s).err = s.err ∧
    (drawMemories s).errCode = s.errCode ∧ (drawMemories s).cmdLost = s.cmdLost ∧
    (drawMemories s).wrLost = s.wrLost ∧ (drawMemories s).busErr = s.busErr ∧
    (drawMemories s).selv = s.selv ∧ (drawMemories s).mvalid = s.mvalid ∧
    (drawMemories s).cmd = s.cmd ∧ (drawMemories s).result = s.result ∧
    (drawMemories s).txtLen = s.txtLen ∧ (drawMemories s).cwCount = s.cwCount ∧
    (drawMemories s).selIdx = s.selIdx ∧ (drawMemories s).genE = s.genE ∧
    (drawMemories s).placeUsed = s.placeUsed ∧ (drawMemories s).txt = s.txt ∧
    (drawMemories s).cw = Memory.tabulate Config.cwDepth (fun i => Config.freeByte (s.draws + i)) ∧
    (drawMemories s).gen = Memory.tabulate Config.genDepth (fun i => Config.freeByte (s.draws + Config.cwDepth + i)) ∧
    (drawMemories s).acc = s.acc ∧
    (drawMemories s).bm = Memory.tabulate Config.mapDepth (fun i => Config.freeBit (s.draws + i)) ∧
    (drawMemories s).asg = Memory.tabulate Config.mapDepth (fun i => Config.freeBit (s.draws + Config.mapDepth + i)) ∧
    (drawMemories s).pending = s.pending ∧ (drawMemories s).draws = s.draws + 2 * Config.mapDepth ∧
    (drawMemories s).inputs = s.inputs ∧ (drawMemories s).readData = s.readData := by
  simp only [drawMemories, and_self]

end Sys2Proof.Machine
end

