-- ==== Sys2Proof/Laws/Commands.lean ====
section
/-! SUPPORT. What each command's run and each operation of the command protocol can do: one lemma a
command that lists its cases, and the shape of exec and step that the other lemmas hang on. -/

namespace Sys2Proof.Machine

/-! ### The shape of exec and step -/

/-- The run of a command, by its constructor. -/
def runOf : Instr → State → Run
  | .gfadd a b, s => runGfadd a b s
  | .gfmul a b, s => runGfmul a b s
  | .gfscl a b, s => runGfscl a b s
  | .sel rect len, s => runSel rect len s
  | .seli idx, s => runSeli idx s
  | .aenc, s => runAenc s
  | .pad, s => runPad s
  | .rsgen e, s => runRsgen e s
  | .rsenc, s => runRsenc s
  | .place, s => runPlace s
  | .enc rect, s => runEnc rect s

/-- Executing a command is completing its run (R702). -/
theorem exec_eq_complete (i : Instr) (s : State) : exec i s = .next (complete (runOf i s)) := by
  cases i <;> rfl

theorem exec_next {i : Instr} {s t : State} (h : exec i s = .next t) : t = complete (runOf i s) := by
  rw [exec_eq_complete] at h
  exact (Host.Outcome.next.inj h).symm

theorem complete_ok (s : State) : complete (Run.ok s) = finished s := rfl

theorem complete_raise (e : CmdError) (s : State) :
    complete (Run.raise e s) = failed (errorCode e) s := rfl

/-- A completion is one of a run without error or of one that raised. -/
theorem complete_cases (r : Run) :
    (r.raised = none ∧ complete r = finished r.state) ∨
    (∃ e, r.raised = some e ∧ complete r = failed (errorCode e) r.state) := by
  obtain ⟨s, raised⟩ := r
  cases raised with
  | none => exact .inl ⟨rfl, rfl⟩
  | some e => exact .inr ⟨e, rfl, rfl⟩

/-- A turn of the sequencer: idle, the pending command, or an illegal word. -/
theorem sequencerTurn_cases {s t : State} (h : sequencerTurn s = .next t) :
    (s.pending = none ∧ t = s) ∨
    (∃ w i, s.pending = some w ∧ decode w = .command i ∧ t = complete (runOf i s)) ∨
    (∃ w why, s.pending = some w ∧ decode w = .illegal why ∧
      t = complete (Run.raise .illegalCommand s)) := by
  simp only [sequencerTurn] at h
  split at h
  · exact .inl ⟨‹_›, (Host.Outcome.next.inj h).symm⟩
  · rename_i w hw
    split at h
    · exact .inr (.inl ⟨w, _, hw, ‹_›, exec_next h⟩)
    · exact .inr (.inr ⟨w, _, hw, ‹_›, (Host.Outcome.next.inj h).symm⟩)

/-- A step: a host access, or a turn of the sequencer, of the state without its first event. -/
theorem step_cases {s t : State} (h : step s = .next t) :
    (∃ a rest, s.inputs = .access a :: rest ∧ t = hostAccess a { s with inputs := rest }) ∨
    (∃ rest, sequencerTurn { s with inputs := rest } = .next t) := by
  simp only [step] at h
  split at h
  · rename_i e rest hin
    cases e with
    | access a => exact .inl ⟨a, rest, hin, (Host.Outcome.next.inj h).symm⟩
    | sequencerTurn => exact .inr ⟨rest, h⟩
  · rename_i hin
    refine .inr ⟨[], ?_⟩
    rw [← hin]
    exact h

/-! ### The runs of a composite command -/

theorem Run.andThen_ok (s : State) (f : State → Run) : (Run.ok s).andThen f = f s := rfl

theorem Run.andThen_raise (e : CmdError) (s : State) (f : State → Run) :
    (Run.raise e s).andThen f = Run.raise e s := rfl

/-- A property of the state that holds before a run's next step, and that the next step keeps,
holds after it; a raise leaves the state as it was. -/
theorem Run.andThen_induct {P : State → Prop} {r : Run} {f : State → Run} (hr : P r.state)
    (hf : ∀ s, P s → P (f s).state) : P (r.andThen f).state := by
  obtain ⟨s, raised⟩ := r
  cases raised with
  | none => exact hf s hr
  | some e => exact hr

/-! ### SEL and SELI -/

theorem mem_shapeIndices (rect : Bool) (n : Fin Config.nEntries) :
    n ∈ shapeIndices rect ↔ OfShape rect n := by
  simp only [shapeIndices, List.mem_filter, List.mem_finRange, true_and, OfShape, beq_iff_eq]
  cases rect <;> simp

theorem shapeIndices_sorted (rect : Bool) : (shapeIndices rect).Pairwise (· < ·) := by
  cases rect <;> decide

/-- The entry SEL finds is the smallest one that holds the data (R400). -/
theorem smallestEntry_some {rect : Bool} {len : Nat} {n : Fin Config.nEntries}
    (h : smallestEntry rect len = some n) : Smallest rect len n := by
  rw [smallestEntry, List.find?_eq_some_iff_append] at h
  obtain ⟨hn, before, after, hl, hbefore⟩ := h
  have hmem : n ∈ shapeIndices rect := by rw [hl]; simp
  refine ⟨(mem_shapeIndices rect n).1 hmem, by simpa using hn, fun m hm hlt => ?_⟩
  have hm' := (mem_shapeIndices rect m).2 hm
  have hs := shapeIndices_sorted rect
  rw [hl] at hm' hs
  rw [List.mem_append, List.mem_cons] at hm'
  rcases hm' with h | h | h
  · simpa using hbefore m h
  · exact absurd h (ne_of_lt hlt)
  · rw [List.pairwise_append] at hs
    exact absurd hlt (lt_asymm ((List.pairwise_cons.1 hs.2.1).1 m h))

theorem shapeMax_attained (rect : Bool) :
    ∃ n, n ∈ shapeIndices rect ∧ (capEntry n).dataCw = shapeMax rect := by
  cases rect
  · exact ⟨⟨23, by decide⟩, by decide, by decide⟩
  · exact ⟨⟨29, by decide⟩, by decide, by decide⟩

theorem shapeMax_bound (rect : Bool) :
    ∀ n, n ∈ shapeIndices rect → (capEntry n).dataCw ≤ shapeMax rect := by
  cases rect <;> decide

/-- SEL finds an entry exactly when the length is at most the shape's largest capacity (R400). -/
theorem smallestEntry_isSome (rect : Bool) (len : Nat) :
    (smallestEntry rect len).isSome = true ↔ len ≤ shapeMax rect := by
  rw [smallestEntry, List.find?_isSome]
  constructor
  · rintro ⟨n, hn, h⟩
    exact le_trans (by simpa using h) (shapeMax_bound rect n hn)
  · intro h
    obtain ⟨n, hn, he⟩ := shapeMax_attained rect
    exact ⟨n, hn, by simpa [he] using h⟩

/-- SEL's cases: an entry is selected, or none is left (R400, R401). -/
theorem selectByLength_cases (rect : Bool) (len : Nat) (s : State) :
    (len ≤ shapeMax rect ∧ ∃ n, smallestEntry rect len = some n ∧ Smallest rect len n ∧
      selectByLength rect len s = Run.ok (setSelection n s)) ∨
    (shapeMax rect < len ∧ selectByLength rect len s = Run.raise .capacityExceeded (dropSelection s)) := by
  have hs := smallestEntry_isSome rect len
  cases h : smallestEntry rect len with
  | some n =>
    rw [h] at hs
    exact .inl ⟨hs.1 rfl, n, rfl, smallestEntry_some h, by rw [selectByLength, h]⟩
  | none =>
    rw [h] at hs
    refine .inr ⟨?_, by rw [selectByLength, h]⟩
    by_contra hle
    exact absurd (hs.2 (by omega)) (by decide)

/-- SELI's cases (R410, R411). -/
theorem runSeli_cases (idx : BitVec 5) (s : State) :
    (∃ n : Fin Config.nEntries, n.val = idx.toNat ∧
      runSeli idx s = Run.ok (setSelection n (clearMvalid s))) ∨
    (Config.nEntries ≤ idx.toNat ∧ runSeli idx s = Run.raise .rangeError (clearMvalid s)) := by
  by_cases h : idx.toNat < Config.nEntries
  · exact .inl ⟨⟨idx.toNat, h⟩, rfl, by rw [runSeli, dif_pos h]⟩
  · exact .inr ⟨by omega, by rw [runSeli, dif_neg h]⟩

/-! ### AENC and PAD -/

/-- AENC's cases (R450, R452). -/
theorem encodeText_cases (s : State) :
    (Config.txtDepth < s.txtLen.toNat ∧ encodeText s = Run.raise .rangeError s) ∨
    (s.txtLen.toNat ≤ Config.txtDepth ∧ Config.dataMax < (textCodewords s).length ∧
      encodeText s = Run.raise .capacityExceeded (overflowCodewords s)) ∨
    (s.txtLen.toNat ≤ Config.txtDepth ∧ (textCodewords s).length ≤ Config.dataMax ∧
      encodeText s = Run.ok (storeCodewords (textCodewords s) s)) := by
  simp only [encodeText, textCodewords]
  split
  · exact .inl ⟨‹_›, rfl⟩
  · split
    · exact .inr (.inl ⟨by omega, ‹_›, rfl⟩)
    · exact .inr (.inr ⟨by omega, by omega, rfl⟩)

/-- PAD's cases (R460). -/
theorem padSelected_cases (s : State) :
    (s.selv = false ∧ padSelected s = Run.raise .sequenceError s) ∨
    (s.selv = true ∧ (selected s).dataCw < s.cwCount.toNat ∧
      padSelected s = Run.raise .rangeError s) ∨
    (s.selv = true ∧ s.cwCount.toNat ≤ (selected s).dataCw ∧
      padSelected s = Run.ok (storePadding s.cwCount.toNat (selected s).dataCw s)) := by
  simp only [padSelected]
  split
  · exact .inl ⟨‹_›, rfl⟩
  · split
    · exact .inr (.inl ⟨by simpa using ‹¬ _ = false›, ‹_›, rfl⟩)
    · exact .inr (.inr ⟨by simpa using ‹¬ s.selv = false›, by omega, rfl⟩)

/-! ### RSGEN and RSENC -/

/-- RSGEN's cases (R550, R551). -/
theorem buildGenerator_cases (e : Nat) (s : State) :
    ((e = 0 ∨ Config.eMax < e) ∧ buildGenerator e s = Run.raise .rangeError s) ∨
    (1 ≤ e ∧ e ≤ Config.eMax ∧ buildGenerator e s = Run.ok (storeGenerator e s)) := by
  simp only [buildGenerator]
  split
  · exact .inl ⟨‹_›, rfl⟩
  · exact .inr ⟨by omega, by omega, rfl⟩

/-- RSENC's cases (R560, R563, R564). -/
theorem encodeBlocks_cases (s : State) :
    ((s.selv = false ∨ s.genE.toNat ≠ (selected s).eBlk ∨ s.cwCount.toNat ≠ (selected s).dataCw) ∧
      encodeBlocks s = Run.raise .sequenceError s) ∨
    (s.selv = true ∧ s.genE.toNat = (selected s).eBlk ∧ s.cwCount.toNat = (selected s).dataCw ∧
      encodeBlocks s = Run.ok (storeErrorCodewords s)) := by
  simp only [encodeBlocks]
  split
  · exact .inl ⟨.inl ‹_›, rfl⟩
  · split
    · exact .inl ⟨.inr (.inl ‹_›), rfl⟩
    · split
      · exact .inl ⟨.inr (.inr ‹_›), rfl⟩
      · exact .inr ⟨by simpa using ‹¬ s.selv = false›, by omega, by omega, rfl⟩

/-- The sizes of every entry's code (R140, R141, R142). -/
theorem capEntry_bounds (n : Fin Config.nEntries) :
    1 ≤ (capEntry n).dataCw ∧ (capEntry n).dataCw ≤ Config.dataMax ∧ 1 ≤ (capEntry n).blocks ∧
    1 ≤ (capEntry n).eBlk ∧ (capEntry n).eBlk ≤ Config.eMax ∧
    (capEntry n).eBlk * (capEntry n).blocks = (capEntry n).errCw ∧
    (capEntry n).total ≤ Config.cwDepth := by
  revert n; decide

theorem read_writeBlock (d n e k : Nat) (acc : List Byte) (count : Nat) (cw : Memory 8) (j : Nat)
    (hn : 1 ≤ n) :
    Memory.read (writeBlock d n e k acc count cw) j =
      if d + k ≤ j ∧ (j - (d + k)) % n = 0 ∧ (j - (d + k)) / n < count then
        acc.getD (e - 1 - (j - (d + k)) / n) 0
      else Memory.read cw j := by
  induction count with
  | zero => rw [writeBlock, if_neg (fun h => Nat.not_lt_zero _ h.2.2)]
  | succ m ih =>
    rw [writeBlock, Memory.read_write, ih]
    by_cases h : j = d + k + m * n
    · have e1 : j - (d + k) = m * n := by omega
      have hn0 : 0 < n := hn
      rw [if_pos h, if_pos]
      · rw [e1, Nat.mul_div_cancel m hn0]
      · rw [e1, Nat.mul_mod_left, Nat.mul_div_cancel m hn0]
        omega
    · rw [if_neg h]
      refine if_congr ⟨fun ⟨h1, h2, h3⟩ => ⟨h1, h2, by omega⟩, fun ⟨h1, h2, h3⟩ => ⟨h1, h2, ?_⟩⟩ rfl rfl
      rcases Nat.lt_or_eq_of_le (Nat.le_of_lt_succ h3) with h4 | h4
      · exact h4
      · exfalso
        apply h
        have := Nat.div_add_mod (j - (d + k)) n
        rw [h2, h4, Nat.mul_comm] at this
        omega

/-- The error codewords a block of RSENC computes from the data codewords do not depend on what
stands after them, so the order of the blocks is of no account (R561). -/
theorem blockAcc_congr {gen cw cw' : Memory 8} {d n e k : Nat} (hn : 1 ≤ n)
    (h : ∀ p, p < d → Memory.read cw p = Memory.read cw' p) :
    blockAcc gen cw d n e k = blockAcc gen cw' d n e k := by
  rw [blockAcc, blockAcc]
  congr 1
  refine List.map_congr_left (fun p hp => h p ?_)
  rw [blockPositions, List.mem_range'] at hp
  obtain ⟨i, hi, rfl⟩ := hp
  have h1 := Nat.div_mul_le_self (d - k + (n - 1)) n
  have h2 : (i + 1) * n ≤ (d - k + (n - 1)) / n * n := Nat.mul_le_mul_right n hi
  rw [Nat.add_mul, Nat.one_mul, Nat.mul_comm i n] at h2
  omega

/-- CW after count blocks: the error codeword m of block k at D + k + mN, for k below count, and
every other element as it was (R562). -/
theorem read_writeBlocks (gen cw : Memory 8) (d n e count : Nat) (hn : 1 ≤ n) (hcount : count ≤ n)
    (j : Nat) :
    Memory.read (writeBlocks gen d n e count cw) j =
      if d ≤ j ∧ (j - d) % n < count ∧ (j - d) / n < e then
        (blockAcc gen cw d n e ((j - d) % n)).getD (e - 1 - (j - d) / n) 0
      else Memory.read cw j := by
  induction count generalizing j with
  | zero => rw [writeBlocks, if_neg (by omega)]
  | succ k ih =>
    have hprev := ih (by omega)
    simp only [writeBlocks]
    rw [read_writeBlock _ _ _ _ _ _ _ _ hn, hprev]
    have hdata : ∀ p, p < d → Memory.read (writeBlocks gen d n e k cw) p = Memory.read cw p := by
      intro p hp
      rw [hprev, if_neg (by omega)]
    rw [blockAcc_congr hn hdata]
    by_cases hj : d ≤ j ∧ (j - d) % n = k
    · obtain ⟨hd, hk⟩ := hj
      have hdm := Nat.div_add_mod (j - d) n
      rw [hk] at hdm
      have e1 : j - (d + k) = n * ((j - d) / n) := by omega
      have hn0 : 0 < n := hn
      rw [e1, Nat.mul_mod_right, Nat.mul_div_cancel_left _ hn0, hk]
      by_cases he : (j - d) / n < e
      · rw [if_pos ⟨by omega, rfl, he⟩, if_pos ⟨hd, by omega, he⟩]
      · rw [if_neg (by omega), if_neg (by omega), if_neg (by omega)]
    · rw [if_neg]
      · refine if_congr ⟨fun ⟨h1, h2, h3⟩ => ⟨h1, by omega, h3⟩,
          fun ⟨h1, h2, h3⟩ => ⟨h1, ?_, h3⟩⟩ rfl rfl
        have : (j - d) % n ≠ k := fun e => hj ⟨h1, e⟩
        omega
      · rintro ⟨h1, h2, -⟩
        apply hj
        refine ⟨by omega, ?_⟩
        have e1 : j - d = k + (j - (d + k)) := by omega
        rw [e1, Nat.add_mod, h2, Nat.add_zero, Nat.mod_mod, Nat.mod_eq_of_lt (by omega)]

/-! ### PLACE -/

/-- PLACE's cases: it fails only without a selection (R600, R622). -/
theorem placeSelected_cases (s : State) :
    (s.selv = false ∧ placeSelected s = Run.raise .sequenceError s) ∨
    (s.selv = true ∧ ∃ q,
      placeAll (mappingOf (selected s)) s.cw (clearedPlacer (mappingOf (selected s)) s) = some q ∧
      q.chr = (selected s).total ∧ placeSelected s = Run.ok (storePlacement q s)) := by
  by_cases h : s.selv = false
  · exact .inl ⟨h, by rw [placeSelected, if_pos h]⟩
  · obtain ⟨q, hq, hchr⟩ := placeAll_succeeds s.selIdx s.cw s
    exact .inr ⟨by simpa using h, q, hq, hchr, by
      rw [placeSelected, if_neg h]
      simp only [selected]
      rw [hq]⟩

end Sys2Proof.Machine
end

