-- ==== Sys2Proof/Laws/Encode.lean ====
section
/-! SUPPORT. What ENC can do: it ends in its AENC step, in its SEL step, or runs through all six, and
then the state is the chain of its components' writes (R650 to R652). -/

namespace Sys2Proof.Machine

/-- MVALID <- 0 changes nothing when MVALID is 0. -/
theorem clearMvalid_of_false {s : State} (h : s.mvalid = false) : clearMvalid s = s := by
  cases s
  subst h
  rfl

/-- The state after the AENC, SEL, PAD, RSGEN and RSENC steps of ENC, entry n selected (R650). -/
def encodedState (n : Fin Config.nEntries) (s : State) : State :=
  storeErrorCodewords (storeGenerator (capEntry n).eBlk
    (storePadding (textCodewords s).length (capEntry n).dataCw
      (setSelection n (storeCodewords (textCodewords s) (clearMvalid s)))))

/-- After a successful AENC step the SEL step reads the text's number of codewords (R650). -/
theorem storeCodewords_cwCount_toNat {l : List Byte} (s : State) (h : l.length ≤ Config.dataMax) :
    (storeCodewords l s).cwCount.toNat = l.length := by
  have h' : l.length < 2 ^ 12 := by
    have : Config.dataMax < 2 ^ 12 := by decide
    omega
  rw [(storeCodewords_fields l s).2.2.2.2.2.2.2.2.2.2.2.2.1, BitVec.toNat_ofNat, Nat.mod_eq_of_lt h']

/-- The last four steps of ENC, from a state in which an entry has just been selected that holds the
codewords counted in CW_COUNT: none of them raises (R652). -/
theorem encTail_ok {s : State} (hv : s.selv = true) (hm : s.mvalid = false)
    (hc : s.cwCount.toNat ≤ (selected s).dataCw) :
    ∃ p,
      placeAll (mappingOf (selected s))
        (storeErrorCodewords (storeGenerator (selected s).eBlk
          (storePadding s.cwCount.toNat (selected s).dataCw s))).cw
        (clearedPlacer (mappingOf (selected s)) s) = some p ∧
      p.chr = (selected s).total ∧
      ((((runPad s).andThen runRsgenSelected).andThen runRsenc).andThen runPlace) =
        Run.ok (storePlacement p (storeErrorCodewords (storeGenerator (selected s).eBlk
          (storePadding s.cwCount.toNat (selected s).dataCw s)))) := by
  obtain ⟨hd1, hd2, -, he1, he2, -, -⟩ := capEntry_bounds s.selIdx
  have hlt12 : Config.dataMax < 2 ^ 12 := by decide
  have hlt8 : Config.eMax < 2 ^ 8 := by decide
  have hpad : runPad s = Run.ok (storePadding s.cwCount.toNat (selected s).dataCw s) := by
    rw [runPad, clearMvalid_of_false hm, padSelected, if_neg (by rw [hv]; decide),
      if_neg (by omega)]
  have hgen : runRsgenSelected (storePadding s.cwCount.toNat (selected s).dataCw s) =
      Run.ok (storeGenerator (selected s).eBlk
        (storePadding s.cwCount.toNat (selected s).dataCw s)) := by
    have hsel : selected (storePadding s.cwCount.toNat (selected s).dataCw s) = selected s := rfl
    have he : (BitVec.ofNat 8 (selected s).eBlk).toNat = (selected s).eBlk := by
      rw [BitVec.toNat_ofNat, Nat.mod_eq_of_lt]
      exact lt_of_le_of_lt he2 hlt8
    rw [runRsgenSelected, runRsgen, hsel, he, clearMvalid_of_false (by exact hm), buildGenerator,
      if_neg]
    intro h
    rcases h with h | h
    · exact absurd h (Nat.ne_of_gt he1)
    · exact absurd h (Nat.not_lt.2 he2)
  have hrs : runRsenc (storeGenerator (selected s).eBlk
        (storePadding s.cwCount.toNat (selected s).dataCw s)) =
      Run.ok (storeErrorCodewords (storeGenerator (selected s).eBlk
        (storePadding s.cwCount.toNat (selected s).dataCw s))) := by
    have he : (BitVec.ofNat 8 (selected s).eBlk).toNat = (selected s).eBlk := by
      rw [BitVec.toNat_ofNat, Nat.mod_eq_of_lt]
      exact lt_of_le_of_lt he2 hlt8
    have hd : (BitVec.ofNat 12 (selected s).dataCw).toNat = (selected s).dataCw := by
      rw [BitVec.toNat_ofNat, Nat.mod_eq_of_lt]
      exact lt_of_le_of_lt hd2 hlt12
    rw [runRsenc, clearMvalid_of_false (by exact hm), encodeBlocks, if_neg, if_neg, if_neg]
    · exact fun h => h hd
    · exact fun h => h he
    · intro h
      exact absurd (hv.symm.trans h) (by decide)
  obtain ⟨p, hp, hchr⟩ := placeAll_succeeds s.selIdx
    (storeErrorCodewords (storeGenerator (selected s).eBlk
      (storePadding s.cwCount.toNat (selected s).dataCw s))).cw s
  refine ⟨p, hp, hchr, ?_⟩
  rw [hpad, Run.andThen_ok, hgen, Run.andThen_ok, hrs, Run.andThen_ok, runPlace,
    clearMvalid_of_false (by exact hm), placeSelected, if_neg]
  · have hp' : placeAll (mappingOf (selected (storeErrorCodewords (storeGenerator (selected s).eBlk
          (storePadding s.cwCount.toNat (selected s).dataCw s)))))
        (storeErrorCodewords (storeGenerator (selected s).eBlk
          (storePadding s.cwCount.toNat (selected s).dataCw s))).cw
        (clearedPlacer (mappingOf (selected (storeErrorCodewords (storeGenerator (selected s).eBlk
          (storePadding s.cwCount.toNat (selected s).dataCw s)))))
          (storeErrorCodewords (storeGenerator (selected s).eBlk
            (storePadding s.cwCount.toNat (selected s).dataCw s)))) = some p := hp
    rw [hp']
  · intro h
    exact absurd (hv.symm.trans h) (by decide)

/-- ENC's cases: a TXT_LEN out of range, a text of more than DATA_MAX codewords, a text the shape does
not hold, or a completed encoding (R650, R652). -/
theorem runEnc_cases (rect : Bool) (s : State) :
    (Config.txtDepth < s.txtLen.toNat ∧ runEnc rect s = Run.raise .rangeError (clearMvalid s)) ∨
    (s.txtLen.toNat ≤ Config.txtDepth ∧ Config.dataMax < (textCodewords s).length ∧
      runEnc rect s = Run.raise .capacityExceeded (overflowCodewords (clearMvalid s))) ∨
    (s.txtLen.toNat ≤ Config.txtDepth ∧ (textCodewords s).length ≤ Config.dataMax ∧
      shapeMax rect < (textCodewords s).length ∧
      runEnc rect s = Run.raise .capacityExceeded
        (dropSelection (storeCodewords (textCodewords s) (clearMvalid s)))) ∨
    (s.txtLen.toNat ≤ Config.txtDepth ∧ (textCodewords s).length ≤ shapeMax rect ∧
      ∃ n p, Smallest rect (textCodewords s).length n ∧
        placeAll (mappingOf (capEntry n)) (encodedState n s).cw
          (clearedPlacer (mappingOf (capEntry n)) s) = some p ∧
        p.chr = (capEntry n).total ∧
        runEnc rect s = Run.ok (storePlacement p (encodedState n s))) := by
  have hclear : clearMvalid (clearMvalid s) = clearMvalid s := rfl
  have htext : textCodewords (clearMvalid s) = textCodewords s := rfl
  rcases encodeText_cases (clearMvalid s) with ⟨h1, h2⟩ | ⟨h1, h2, h3⟩ | ⟨h1, h2, h3⟩
  · refine .inl ⟨h1, ?_⟩
    simp only [runEnc, Run.andThen_ok, runAenc, hclear, h2, Run.andThen_raise]
  · refine .inr (.inl ⟨h1, h2, ?_⟩)
    simp only [runEnc, Run.andThen_ok, runAenc, hclear, h3, Run.andThen_raise]
  · rw [htext] at h2 h3
    have hcount := storeCodewords_cwCount_toNat (clearMvalid s) h2
    have haenc : (Run.ok (clearMvalid s)).andThen runAenc =
        Run.ok (storeCodewords (textCodewords s) (clearMvalid s)) := by
      rw [Run.andThen_ok, runAenc, hclear, h3]
    have hsel : runSelCount rect (storeCodewords (textCodewords s) (clearMvalid s)) =
        selectByLength rect (textCodewords s).length
          (storeCodewords (textCodewords s) (clearMvalid s)) := by
      rw [runSelCount, runSel, hcount]
      rfl
    rcases selectByLength_cases rect (textCodewords s).length
      (storeCodewords (textCodewords s) (clearMvalid s)) with ⟨h4, n, -, h5, h6⟩ | ⟨h4, h5⟩
    · refine .inr (.inr (.inr ⟨h1, h4, ?_⟩))
      obtain ⟨p, hp, hchr, ht⟩ := encTail_ok
        (s := setSelection n (storeCodewords (textCodewords s) (clearMvalid s))) rfl rfl
        (le_trans (le_of_eq hcount) h5.2.1)
      have hc' : (setSelection n (storeCodewords (textCodewords s) (clearMvalid s))).cwCount.toNat =
          (textCodewords s).length := hcount
      have hs' : selected (setSelection n (storeCodewords (textCodewords s) (clearMvalid s))) =
          capEntry n := rfl
      rw [hc', hs'] at hp ht
      refine ⟨n, p, h5, hp, hchr, ?_⟩
      rw [runEnc, haenc, Run.andThen_ok, hsel, h6, Run.andThen_ok]
      exact ht
    · refine .inr (.inr (.inl ⟨h1, h2, h4, ?_⟩))
      rw [runEnc, haenc, Run.andThen_ok, hsel, h5]
      simp only [Run.andThen_raise]

end Sys2Proof.Machine
end

