-- ==== Sys2Proof/Laws/Pattern.lean ====
section
/-! SUPPORT. The laws of one pattern of PLACE: the wrap in one piece, what a pattern leaves
(placePattern_leaves), when it fails (placePattern_eq_none), and the state the traversal starts from
(placeStart_traversalStart). -/

namespace Sys2Proof.Machine

theorem wrapCol_wrapRow (g : Mapping) (rc : Int × Int) : wrapCol g (wrapRow g rc) = wrapped g rc := by
  simp only [wrapCol, wrapRow, wrapped]
  by_cases h : rc.1 < 0 <;> simp only [h, if_true, if_false, add_sub_assoc]

theorem inMatrix_eq_true (g : Mapping) (rc : Int × Int) : inMatrix g rc = true ↔ InsideMatrix g rc :=
  inMatrix_iff g rc

theorem gridCell_eq (rc : Int × Int) : cellIndex rc.1.toNat rc.2.toNat = gridCell rc := rfl

theorem codewordBit_eq (w : Byte) (b : Nat) : codewordBit w b = BitVec.ofBool (w.getLsbD (7 - b)) := by
  ext i hi
  obtain rfl : i = 0 := by omega
  simp [codewordBit]

/-- A cell that is not marked 1 is marked 0. -/
theorem bit_eq_zero_iff (x : BitVec 1) : x = 0#1 ↔ ¬ x = 1#1 := by revert x; decide

/-- A module's first write to its cell: the bit and the mark; an assigned cell keeps both (R608). -/
theorem read_assignFirst (rc : Int × Int) (bit : BitVec 1) (p : Placer) (j : Nat) :
    (assignFirst rc.1.toNat rc.2.toNat bit p).chr = p.chr ∧
    (if gridCell rc = j ∧ Memory.read p.asg j = 0#1 then
      Memory.read (assignFirst rc.1.toNat rc.2.toNat bit p).bm j = bit ∧
        Memory.read (assignFirst rc.1.toNat rc.2.toNat bit p).asg j = 1#1
    else
      Memory.read (assignFirst rc.1.toNat rc.2.toNat bit p).bm j = Memory.read p.bm j ∧
        Memory.read (assignFirst rc.1.toNat rc.2.toNat bit p).asg j = Memory.read p.asg j) := by
  simp only [assignFirst, assigned, gridCell_eq, beq_iff_eq]
  by_cases ha : Memory.read p.asg (gridCell rc) = 1
  · rw [if_pos ha, if_neg]
    · exact ⟨rfl, rfl, rfl⟩
    · rintro ⟨rfl, h⟩
      exact (bit_eq_zero_iff _).1 h ha
  · rw [if_neg ha]
    refine ⟨rfl, ?_⟩
    simp only [assign, gridCell_eq]
    by_cases hj : gridCell rc = j
    · subst hj
      rw [if_pos ⟨rfl, (bit_eq_zero_iff _).2 ha⟩]
      exact ⟨Memory.read_write_same _ _ _, Memory.read_write_same _ _ _⟩
    · rw [if_neg (fun h => hj h.1), Memory.read_write_ne _ _ (Ne.symm hj),
        Memory.read_write_ne _ _ (Ne.symm hj)]
      exact ⟨rfl, rfl⟩

theorem firstModuleAt_zero {g : Mapping} {rc : Int × Int} {rest : List (Int × Int)} {j : Nat}
    (h : gridCell (wrapped g rc) = j) (i : Nat) : FirstModuleAt g (rc :: rest) j i ↔ i = 0 := by
  constructor
  · rintro ⟨-, h2⟩
    by_contra hi
    exact h2 0 (by omega) (by simp [h])
  · rintro rfl
    exact ⟨by simp [h], fun b' hb => absurd hb (by omega)⟩

theorem firstModuleAt_succ {g : Mapping} {rc : Int × Int} {rest : List (Int × Int)} {j : Nat}
    (h : gridCell (wrapped g rc) ≠ j) (i : Nat) :
    FirstModuleAt g (rc :: rest) j i ↔ ∃ i', i = i' + 1 ∧ FirstModuleAt g rest j i' := by
  constructor
  · rintro ⟨h1, h2⟩
    cases i with
    | zero => simp [h] at h1
    | succ i =>
      exact ⟨i, rfl, by simpa using h1, fun b' hb => by simpa using h2 (b' + 1) (by omega)⟩
  · rintro ⟨i', rfl, h1, h2⟩
    refine ⟨by simpa using h1, fun b' hb => ?_⟩
    cases b' with
    | zero => simp [h]
    | succ b' => simpa using h2 b' (by omega)

/-- The modules b, b+1, ... of a pattern: what they leave of every cell. -/
theorem placeModules_leaves {g : Mapping} {w : Byte} {shape : List (Int × Int)} {b : Nat}
    {p q : Placer} (h : placeModules g w b shape p = some q) :
    q.chr = p.chr ∧
    ∀ j,
      (∀ i, FirstModuleAt g shape j i → Memory.read p.asg j = 0#1 →
        Memory.read q.bm j = codewordBit w (b + i) ∧ Memory.read q.asg j = 1#1) ∧
      (Memory.read p.asg j = 1#1 ∨ (∀ rc ∈ shape, gridCell (wrapped g rc) ≠ j) →
        Memory.read q.bm j = Memory.read p.bm j ∧ Memory.read q.asg j = Memory.read p.asg j) := by
  induction shape generalizing b p with
  | nil =>
    simp only [placeModules, Option.some.injEq] at h
    subst h
    exact ⟨rfl, fun j => ⟨fun i hi => by simp [FirstModuleAt] at hi, fun _ => ⟨rfl, rfl⟩⟩⟩
  | cons rc rest ih =>
    simp only [placeModules, placeModule, wrapCol_wrapRow] at h
    split at h
    · cases h
    · rename_i p1 hp1
      split at hp1
      · simp only [Option.some.injEq] at hp1
        subst hp1
        obtain ⟨hchr, hcells⟩ := ih h
        refine ⟨hchr.trans (read_assignFirst (wrapped g rc) _ p 0).1, fun j => ?_⟩
        obtain ⟨-, hread⟩ := read_assignFirst (wrapped g rc) (codewordBit w b) p j
        obtain ⟨hfirst, hkeep⟩ := hcells j
        by_cases hj : gridCell (wrapped g rc) = j
        · simp only [firstModuleAt_zero hj]
          refine ⟨?_, ?_⟩
          · rintro i rfl h0
            rw [if_pos ⟨hj, h0⟩] at hread
            obtain ⟨hb, ha⟩ := hkeep (.inl hread.2)
            exact ⟨hb.trans hread.1, ha.trans hread.2⟩
          · rintro (h1 | hne)
            · rw [if_neg (fun h0 => (bit_eq_zero_iff _).1 h0.2 h1)] at hread
              obtain ⟨hb, ha⟩ := hkeep (.inl (hread.2.trans h1))
              exact ⟨hb.trans hread.1, ha.trans hread.2⟩
            · exact absurd hj (hne rc (by simp))
        · rw [if_neg (fun h0 => hj h0.1)] at hread
          simp only [firstModuleAt_succ hj]
          refine ⟨?_, fun hk => ?_⟩
          · rintro i ⟨i', rfl, hi'⟩ h0
            have := hfirst i' hi' (hread.2.trans h0)
            rwa [Nat.add_right_comm, Nat.add_assoc] at this
          · have := hkeep (hk.imp hread.2.trans fun hne rc' hrc' => hne rc' (by simp [hrc']))
            exact ⟨this.1.trans hread.1, this.2.trans hread.2⟩
      · cases hp1

/-- What a pattern leaves (R602, R604, R607, R608). -/
theorem placePattern_leaves {g : Mapping} {cw : Memory 8} {shape : List (Int × Int)} {p q : Placer}
    (h : placePattern g cw shape p = some q) :
    PatternLeaves g (Memory.read cw p.chr) shape p q := by
  simp only [placePattern] at h
  split at h
  · cases h
  · obtain ⟨hchr, hcells⟩ := placeModules_leaves h
    refine ⟨hchr, fun j => ⟨fun b hb h0 => ?_, (hcells j).2⟩⟩
    have := (hcells j).1 b hb h0
    rwa [Nat.zero_add, codewordBit_eq] at this

theorem placeModules_eq_none {g : Mapping} {w : Byte} {shape : List (Int × Int)} {b : Nat}
    {p : Placer} :
    placeModules g w b shape p = none ↔ ∃ rc ∈ shape, ¬ InsideMatrix g (wrapped g rc) := by
  induction shape generalizing b p with
  | nil => simp [placeModules]
  | cons rc rest ih =>
    simp only [placeModules, placeModule, wrapCol_wrapRow, List.mem_cons, exists_eq_or_imp,
      ← inMatrix_eq_true]
    by_cases h : inMatrix g (wrapped g rc) = true
    · simpa [h, ← inMatrix_eq_true] using ih
    · simp [h]

/-- A pattern fails when no codeword is left or a module stays outside the matrix (R609, R615). -/
theorem placePattern_eq_none {g : Mapping} {cw : Memory 8} {shape : List (Int × Int)} {p : Placer} :
    placePattern g cw shape p = none ↔
      p.chr = g.total ∨ ∃ rc ∈ shape, ¬ InsideMatrix g (wrapped g rc) := by
  simp only [placePattern]
  split
  · simp [*]
  · simpa [*] using placeModules_eq_none

/-! ### The start of the traversal -/

/-- Assigning a cell of the matrix, seen at any cell of it. -/
theorem read_assign_cell {r c r' c' : Nat} (bit : BitVec 1) (p : Placer) (hc : c < Config.mapStride)
    (hc' : c' < Config.mapStride) :
    Memory.read (assign r c bit p).asg (cellIndex r' c') =
      (if r' = r ∧ c' = c then 1 else Memory.read p.asg (cellIndex r' c')) ∧
    Memory.read (assign r c bit p).bm (cellIndex r' c') =
      (if r' = r ∧ c' = c then bit else Memory.read p.bm (cellIndex r' c')) := by
  simp only [assign]
  by_cases h : r' = r ∧ c' = c
  · obtain ⟨rfl, rfl⟩ := h
    simp only [and_self, if_true, Memory.read_write_same]
  · have hne : cellIndex r' c' ≠ cellIndex r c := fun e => h ((cellIndex_inj hc' hc).1 e)
    rw [Memory.read_write_ne _ _ hne, Memory.read_write_ne _ _ hne, if_neg h, if_neg h]
    exact ⟨rfl, rfl⟩

/-- What PLACE starts its traversal from: the cleared area, with the 2x2 block where an entry has one
(R601, R605). -/
theorem placeStart_traversalStart {g : Mapping} (s : State) (hrows : 2 ≤ g.rows) (hcols : 2 ≤ g.cols)
    (hcols' : g.cols ≤ Config.mapStride) :
    TraversalStart g (if (g.rows * g.cols) % 8 = 4 then cornerFill g (clearedPlacer g s)
      else clearedPlacer g s) := by
  refine ⟨by split <;> rfl, fun r c hr hc => ?_⟩
  have hasg : Memory.read (clearedPlacer g s).asg (cellIndex r c) = 0 := read_fillArea_cell _ _ hr hc
  have hbm : Memory.read (clearedPlacer g s).bm (cellIndex r c) = 0 := read_fillArea_cell _ _ hr hc
  by_cases h4 : (g.rows * g.cols) % 8 = 4
  · have hc1 : c < Config.mapStride := by omega
    have h1 : g.cols - 1 < Config.mapStride := by omega
    have h2 : g.cols - 2 < Config.mapStride := by omega
    simp only [h4, if_true, true_and, cornerFill, (read_assign_cell _ _ h1 hc1).1,
      (read_assign_cell _ _ h2 hc1).1, (read_assign_cell _ _ h1 hc1).2,
      (read_assign_cell _ _ h2 hc1).2, hasg, hbm]
    by_cases hblock : g.rows ≤ r + 2 ∧ g.cols ≤ c + 2
    · rw [if_pos hblock]
      constructor <;> split_ifs <;> first | omega | simp <;> omega
    · rw [if_neg hblock]
      constructor <;> split_ifs <;> first | omega | rfl
  · simp only [h4, if_false, false_and]
    exact ⟨hasg, hbm⟩

end Sys2Proof.Machine
end

