-- ==== Sys2Proof/Laws/PerInstr.lean ====
section
/-! SUPPORT. A statement for every command, constructor by constructor: the word of a command matches
the row of the opcode map that has the command's mnemonic (R309), whatever its operands. -/

namespace Sys2Proof.Laws.RowOfMnemonic

/-- The opcode map has a row with the command's mnemonic, and the command's word matches it. -/
def Statement (i : Instr) : Prop :=
  ∃ r ∈ opcodeTable, r.mnemonic = i.mnemonic ∧ encode i &&& r.mask = r.value

/-- A word is determined by its 32 bits. -/
theorem word_ext {v w : Word} (h : ∀ k, k < 32 → v.getLsbD k = w.getLsbD k) : v = w :=
  BitVec.eq_of_getLsbD_eq h

theorem gfadd (a b : Byte) : Statement (.gfadd a b) := by
  refine ⟨⟨"GFADD", 0x01000000#32, 0xFF0000FF#32⟩, by decide, rfl, word_ext fun k hk => ?_⟩
  interval_cases k <;> simp [encode, fieldAt]

theorem gfmul (a b : Byte) : Statement (.gfmul a b) := by
  refine ⟨⟨"GFMUL", 0x02000000#32, 0xFF0000FF#32⟩, by decide, rfl, word_ext fun k hk => ?_⟩
  interval_cases k <;> simp [encode, fieldAt]

theorem gfscl (a b : Byte) : Statement (.gfscl a b) := by
  refine ⟨⟨"GFSCL", 0x03000000#32, 0xFF0000FF#32⟩, by decide, rfl, word_ext fun k hk => ?_⟩
  interval_cases k <;> simp [encode, fieldAt]

theorem sel (rect : Bool) (len : BitVec 12) : Statement (.sel rect len) := by
  refine ⟨⟨"SEL", 0x10000000#32, 0xFF7FF000#32⟩, by decide, rfl, word_ext fun k hk => ?_⟩
  interval_cases k <;> simp [encode, fieldAt]

theorem seli (idx : BitVec 5) : Statement (.seli idx) := by
  refine ⟨⟨"SELI", 0x11000000#32, 0xFFFFFFE0#32⟩, by decide, rfl, word_ext fun k hk => ?_⟩
  interval_cases k <;> simp [encode, fieldAt]

theorem aenc : Statement .aenc :=
  ⟨⟨"AENC", 0x20000000#32, 0xFFFFFFFF#32⟩, by decide, rfl, by decide⟩

theorem pad : Statement .pad :=
  ⟨⟨"PAD", 0x21000000#32, 0xFFFFFFFF#32⟩, by decide, rfl, by decide⟩

theorem rsgen (e : Byte) : Statement (.rsgen e) := by
  refine ⟨⟨"RSGEN", 0x30000000#32, 0xFFFFFF00#32⟩, by decide, rfl, word_ext fun k hk => ?_⟩
  interval_cases k <;> simp [encode, fieldAt]

theorem rsenc : Statement .rsenc :=
  ⟨⟨"RSENC", 0x31000000#32, 0xFFFFFFFF#32⟩, by decide, rfl, by decide⟩

theorem place : Statement .place :=
  ⟨⟨"PLACE", 0x40000000#32, 0xFFFFFFFF#32⟩, by decide, rfl, by decide⟩

theorem enc (rect : Bool) : Statement (.enc rect) := by
  refine ⟨⟨"ENC", 0x50000000#32, 0xFF7FFFFF#32⟩, by decide, rfl, word_ext fun k hk => ?_⟩
  interval_cases k <;> simp [encode, fieldAt]

end Sys2Proof.Laws.RowOfMnemonic
end

