-- ==== Sys2Proof/Tests/Slice0.lean ====
section
/-! SUPPORT. Tests of single steps, with expected values from the vectors of spec/95_test_vectors.md
(the vector's name is in each docstring) and from the encodings of spec/30_encoding.md; then, for
every statement with hypotheses, a witness that meets them. -/

namespace Sys2Proof.Tests

open Sys2Proof.Machine

/-! ### Helpers -/

/-- The step from s has a next state, and p holds of it. -/
def stepsTo (s : State) (p : State → Bool) : Bool :=
  match step s with
  | .next t => p t
  | .fault _ => false
  | .refused _ => false

/-- The step that runs the command word w, issued in state s, has a next state of which p holds. -/
def runs (w : Nat) (s : State) (p : State → Bool) : Bool := stepsTo (s.withFetchWord 32 w) p

/-- A memory holding the list from element 0 on. -/
def memoryOf (l : List Nat) : Memory 8 :=
  Memory.tabulate l.length (fun i => BitVec.ofNat 8 (l.getD i 0))

/-- The elements lo, lo+1, ... of a memory. -/
def elements {w : Nat} (m : Memory w) (lo count : Nat) : List Nat :=
  (List.range' lo count).map (fun i => (Memory.read m i).toNat)

/-- The state after reset with a text in TXT. -/
def withText (l : List Nat) : State :=
  { State.reset with txt := memoryOf l, txtLen := BitVec.ofNat 12 l.length }

/-- The state after reset with entry n selected. -/
def withEntry (n : Fin Config.nEntries) : State := { State.reset with selIdx := n, selv := true }

/-- Entry 0 selected, the data codewords of "123456" in CW and the generator of degree 5 in GEN. -/
def readyForRsenc : State :=
  { withEntry 0 with
    cw := memoryOf [142, 164, 186], cwCount := 3#12
    gen := memoryOf [228, 48, 15, 111, 62, 1], genE := 5#8 }

/-- Entry 0 selected, the codewords of "123456" in CW. -/
def readyForPlace : State :=
  { withEntry 0 with cw := memoryOf [142, 164, 186, 114, 25, 5, 88, 102] }

/-- The state after reset with a PLACE command pending. -/
def busyState : State := accept 0x40000000#32 State.reset

/-- The word STATUS reads. -/
def status (s : State) : Nat := (readAt 8 s).toNat

/-- One read of the host, and what it returns. -/
def hostRead (a : Nat) (s : State) : State := hostAccess (.read .word (BitVec.ofNat 20 a)) s

/-- One write of the host. -/
def hostWrite (a v : Nat) (s : State) : State :=
  hostAccess (.write .word (BitVec.ofNat 20 a) (BitVec.ofNat 32 v)) s

/-! ### Decoding and well-formedness -/

/-- R309: one word for each row, written from its bit pattern, operand bits in place. -/
theorem test_decode_gfadd : decode 0b00000001101001010001111000000000#32 =
    .command (.gfadd 0b10100101#8 0b00011110#8) := by decide

theorem test_decode_gfmul : decode 0b00000010101001010001111000000000#32 =
    .command (.gfmul 0b10100101#8 0b00011110#8) := by decide

theorem test_decode_gfscl : decode 0b00000011101001010001111000000000#32 =
    .command (.gfscl 0b10100101#8 0b00011110#8) := by decide

theorem test_decode_sel : decode 0b00010000100000000000101000000111#32 =
    .command (.sel true 0b101000000111#12) := by decide

theorem test_decode_seli : decode 0b00010001000000000000000000011101#32 =
    .command (.seli 0b11101#5) := by decide

theorem test_decode_aenc : decode 0b00100000000000000000000000000000#32 = .command .aenc := by decide

theorem test_decode_pad : decode 0b00100001000000000000000000000000#32 = .command .pad := by decide

theorem test_decode_rsgen : decode 0b00110000000000000000000001000100#32 =
    .command (.rsgen 0b01000100#8) := by decide

theorem test_decode_rsenc : decode 0b00110001000000000000000000000000#32 = .command .rsenc := by decide

theorem test_decode_place : decode 0b01000000000000000000000000000000#32 = .command .place := by decide

theorem test_decode_enc : decode 0b01010000000000000000000000000000#32 = .command (.enc false) ∧
    decode 0b01010000100000000000000000000000#32 = .command (.enc true) := by decide

/-- K12, and the examples of R450 and R550: the words of three commands. -/
theorem test_encode : encode (.sel true 49) = 0x10800031#32 ∧ encode .aenc = 0x20000000#32 ∧
    encode (.rsgen 5) = 0x30000005#32 := by decide

/-- X1 to X16: illegal words. -/
theorem test_illegal_words : ([0x00000000#32, 0x04000000#32, 0x01000001#32, 0x10400000#32,
    0x10001000#32, 0x11000020#32, 0x20000001#32, 0x21800000#32, 0x30000100#32, 0x31000001#32,
    0x40000010#32, 0x50000001#32, 0x50400000#32, 0x12000000#32, 0x51000000#32, 0xFFFFFFFF#32].all
    (fun w => (decode w).command?.isNone)) = true := by decide +kernel

/-- R310: the reason an illegal word is refused for. -/
theorem test_illegal_reason : decode 0x04000000#32 = .illegal (.unassignedOpcode 4) ∧
    decode 0x21800000#32 = .illegal (.reservedBitSet 0x21) := by decide

/-- X3: an illegal word completes with ILLEGAL_COMMAND, STATUS = 0x00000036. -/
theorem test_illegal_completes : runs 0x01000001 State.reset (fun t =>
    status t == 0x36 && t.cmd == 0x01000001#32 && t.result == 0) = true := by decide

/-- R311: the operand values the checks of wellFormed refuse, and the last ones they accept. -/
theorem test_ill_formed_seli : (Instr.seli 30).wellFormed = false ∧
    (Instr.seli 31).wellFormed = false ∧ (Instr.seli 29).wellFormed = true := by decide

theorem test_ill_formed_rsgen : (Instr.rsgen 0).wellFormed = false ∧
    (Instr.rsgen 69).wellFormed = false ∧ (Instr.rsgen 68).wellFormed = true := by decide

/-! ### GF commands -/

/-- GF1, GF3. -/
theorem test_gfadd : runs 0x0153CA00 State.reset (fun t => status t == 2 && t.result == 153) = true ∧
    runs 0x018EE400 State.reset (fun t => t.result == 106) = true := by decide

/-- GF5, GF12, GF13, GF9. -/
theorem test_gfmul : runs 0x02028000 State.reset (fun t => status t == 2 && t.result == 45) = true ∧
    runs 0x0253CA00 State.reset (fun t => t.result == 75) = true ∧
    runs 0x02029600 State.reset (fun t => t.result == 1) = true ∧
    runs 0x02070000 State.reset (fun t => t.result == 0) = true := by decide

/-- GF17, GF20, GF25, GF18. -/
theorem test_gfscl : runs 0x03010500 State.reset (fun t => status t == 2 && t.result == 32) = true ∧
    runs 0x0301FF00 State.reset (fun t => t.result == 1) = true ∧
    runs 0x038EC800 State.reset (fun t => t.result == 249) = true ∧
    runs 0x03000500 State.reset (fun t => t.result == 0) = true := by decide

/-- R704: a GF command leaves MVALID as it was, AENC clears it. -/
theorem test_mvalid : runs 0x0153CA00 { withEntry 0 with mvalid := true } (fun t => t.mvalid) = true ∧
    runs 0x20000000 { withEntry 0 with mvalid := true } (fun t => !t.mvalid) = true := by decide

/-! ### Selection -/

/-- K7, K8. -/
theorem test_sel_square : runs 0x10000616 State.reset (fun t =>
    status t == 0x10002 && readAt 0x1C t == 0x17#32 && readAt 0x20 t == 0x026C0616#32 &&
    readAt 0x24 t == 0x0A669090#32 && readAt 0x28 t == 0x84841616#32 && readAt 0x2C t == 0x3E#32) = true ∧
    runs 0x10000617 State.reset (fun t => status t == 0x16 && readAt 0x1C t == 0#32) = true := by
  decide

/-- K11, K19. -/
theorem test_sel_rect : runs 0x10800006 State.reset (fun t =>
    status t == 0x10002 && readAt 0x1C t == 0x119#32 && readAt 0x20 t == 0x000B000A#32 &&
    readAt 0x24 t == 0x01212008#32 && readAt 0x28 t == 0x1C060E06#32 && readAt 0x2C t == 0xB#32) = true ∧
    runs 0x10800032 (withEntry 5) (fun t => status t == 0x16 && readAt 0x20 t == 0#32) = true := by
  decide

/-- K16, K20. -/
theorem test_seli : runs 0x1100001D State.reset (fun t =>
    status t == 0x10002 && readAt 0x1C t == 0x11D#32 && readAt 0x28 t == 0x2C0E160E#32) = true ∧
    runs 0x1100001E (withEntry 5) (fun t => status t == 0x10056 && readAt 0x1C t == 5#32) = true := by
  decide

/-! ### ASCII encoding and padding -/

/-- A16, A6: an extended code never pairs; a pair, then a single digit. -/
theorem test_aenc : runs 0x20000000 (withText [49, 128]) (fun t =>
    status t == 2 && t.cwCount == 3 && elements t.cw 0 3 == [50, 235, 1]) = true ∧
    runs 0x20000000 (withText [49, 50, 51]) (fun t =>
      t.cwCount == 2 && elements t.cw 0 3 == [142, 52, 0]) = true := by decide

/-- A21. -/
theorem test_aenc_range : runs 0x20000000 { State.reset with txtLen := 3117#12 } (fun t =>
    status t == 0x56 && t.cwCount == 0 && t.cw == []) = true := by decide

/-- A26, A27: the pad values are those of the absolute positions. -/
theorem test_pad : runs 0x21000000 { withEntry 2 with cwCount := 6#12 } (fun t =>
    status t == 0x10002 && t.cwCount == 8 && elements t.cw 5 4 == [0, 129, 56, 0]) = true ∧
    runs 0x21000000 { withEntry 6 with cwCount := 27#12 } (fun t =>
      elements t.cw 27 3 == [129, 150, 45]) = true := by decide

/-- A31, A32. -/
theorem test_pad_errors : runs 0x21000000 { withEntry 0 with cwCount := 4#12 } (fun t =>
    status t == 0x10056 && t.cwCount == 4 && t.cw == []) = true ∧
    runs 0x21000000 State.reset (fun t => status t == 0x46) = true := by decide

/-! ### Reed-Solomon -/

/-- R1 with E = 5, and R553. -/
theorem test_rsgen : runs 0x30000005 State.reset (fun t =>
    status t == 2 && t.genE == 5 && elements t.gen 0 6 == [228, 48, 15, 111, 62, 1]) = true := by
  decide +kernel

/-- R1a, R1b. -/
theorem test_rsgen_range : runs 0x30000000 State.reset (fun t => status t == 0x56 && t.genE == 0) = true ∧
    runs 0x30000045 State.reset (fun t => status t == 0x56 && t.gen == []) = true := by decide

/-- R2: the codewords of "123456". -/
theorem test_rsenc : runs 0x31000000 readyForRsenc (fun t =>
    status t == 0x10002 && t.cwCount == 3 &&
    elements t.cw 0 8 == [142, 164, 186, 114, 25, 5, 88, 102]) = true := by decide +kernel

/-- R563, R564: a generator of another degree, unpadded data. -/
theorem test_rsenc_sequence : runs 0x31000000 { readyForRsenc with genE := 7#8 } (fun t =>
    status t == 0x10046 && t.cw == readyForRsenc.cw) = true ∧
    runs 0x31000000 { readyForRsenc with cwCount := 2#12 } (fun t => status t == 0x10046) = true := by
  decide

/-! ### Placement and encoding -/

/-- P1: the base matrix of "123456", its first and last rows and its last cells. -/
theorem test_place : runs 0x40000000 readyForPlace (fun t =>
    status t == 0x30002 && t.placeUsed == 8 && elements t.bm 0 8 == [1, 0, 0, 1, 0, 1, 1, 0] &&
    elements t.bm 132 8 == [1, 0, 0, 0, 0, 0, 1, 0] &&
    elements t.bm 924 9 == [0, 0, 1, 1, 1, 0, 1, 0, 0] && elements t.asg 924 9 == [1, 1, 1, 1, 1, 1, 1, 1, 0])
    = true := by decide +kernel

/-- R714: PLACE without a selection. -/
theorem test_place_sequence : runs 0x40000000 State.reset (fun t => status t == 0x46) = true := by decide

/-- E1: ENC square of "123456". -/
theorem test_enc : runs 0x50000000 (withText [49, 50, 51, 52, 53, 54]) (fun t =>
    status t == 0x30002 && readAt 0x1C t == 0#32 && t.cwCount == 3 && t.genE == 5 && t.placeUsed == 8 &&
    elements t.cw 0 8 == [142, 164, 186, 114, 25, 5, 88, 102] &&
    elements t.bm 264 8 == [1, 0, 0, 0, 1, 1, 1, 0] && elements t.bm 660 8 == [1, 1, 0, 1, 1, 0, 0, 0])
    = true := by decide +kernel

/-- E13: ENC rect of 100 characters '0', 50 codewords, fails in its SEL step with the codewords left. -/
theorem test_enc_capacity : runs 0x50800000 (withText (List.replicate 100 48)) (fun t =>
    status t == 0x16 && t.cwCount == 50 && elements t.cw 48 3 == [130, 130, 0] && t.genE == 0) = true := by
  decide +kernel

/-! ### The bus -/

/-- B8, B10. -/
theorem test_bus_txt : (hostRead 0x040AC (hostWrite 0x040AC 0x141 State.reset)).readData = 0x41#32 ∧
    (hostRead 0x070B0 State.reset).readData = 0#32 ∧ status (hostRead 0x070B0 State.reset) = 0x400 := by
  decide

/-- B12, B13, B17: a misaligned read, a write to ID, BUSERR cleared. -/
theorem test_bus_errors : status (hostRead 0x00002 State.reset) = 0x400 ∧
    status (hostWrite 0x00000 5 State.reset) = 0x400 ∧
    status (hostWrite 0x00008 0x400 (hostRead 0x00002 State.reset)) = 0 := by decide

/-- B18, B19, B20: reserved bits are dropped. -/
theorem test_bus_reserved : readAt 0x04 (hostWrite 0x04 0xFFFFFFFD State.reset) = 1#32 ∧
    readAt 0x18 (hostWrite 0x18 0xFFFF State.reset) = 0xFFF#32 ∧
    readAt 0x14 (hostWrite 0x14 0x1000 State.reset) = 0#32 := by decide

/-- B4, B6, B7, B1: the tables and ID. -/
theorem test_bus_tables : readAt 0x0D3FC State.reset = 150#32 ∧ readAt 0x0D420 State.reset = 45#32 ∧
    readAt 0x0D7FC State.reset = 1#32 ∧ readAt 0 State.reset = 0x42470001#32 := by decide

/-- R214: writes while a command is pending are dropped. -/
theorem test_bus_busy : status (hostWrite 0x0C 0x20000000 busyState) = 0x101 ∧
    status (hostWrite 0x18 3 busyState) = 0x201 ∧ (hostWrite 0x18 3 busyState).cwCount = 0#12 := by decide

/-- T3: a soft reset before the completion abandons the command and keeps TXT. -/
theorem test_soft_reset : status (hostWrite 0x04 2 (accept 0x50000000#32 (withText [49, 50]))) = 0 ∧
    (hostWrite 0x04 2 (accept 0x50000000#32 (withText [49, 50]))).pending = none ∧
    (hostWrite 0x04 2 (accept 0x50000000#32 (withText [49, 50]))).txt = memoryOf [49, 50] := by
  decide +kernel

/-- R721: the host's coming access is what the step does, the pending command stays. -/
theorem test_host_first : stepsTo { busyState with inputs := [.access (.write .word 0x18#20 3#32)] }
    (fun t => t.wrLost && t.pending == some 0x40000000#32 && t.inputs == []) = true := by decide

/-! ### Witnesses: for each statement with hypotheses, a state and operands that meet them -/

/-- The state with its next sequencer turn listed. -/
def turnNext (s : State) : State := { s with inputs := [.sequencerTurn] }

theorem witness_EncodeOfDecode : decode 0x0153CA00#32 = .command (.gfadd 0x53 0xCA) := by decide

theorem witness_IllegalWordsComplete : opField 0xFF000000#32 ∉ [0x01#8, 0x02#8, 0x03#8, 0x10#8, 0x11#8,
      0x20#8, 0x21#8, 0x30#8, 0x31#8, 0x40#8, 0x50#8] ∧
    decode 0x01000001#32 = .illegal (.reservedBitSet 1) ∧
    (accept 0x01000001#32 State.reset).pending = some 0x01000001#32 ∧
    (accept 0x01000001#32 State.reset).inputs = [] := by decide

theorem witness_StepRunsDecodedCommand : busyState.pending = some 0x40000000#32 ∧
    decode 0x40000000#32 = .command .place ∧ busyState.inputs = [] ∧
    (turnNext busyState).pending = some 0x40000000#32 ∧
    (turnNext busyState).inputs = .sequencerTurn :: [] ∧
    decode (tableWord 32 0x3000000A) = .command (.rsgen 10) := by decide

theorem witness_EveryStepIsDefined :
    ({ State.reset with inputs := [.access (.read .word 0#20)] } : State).inputs =
      .access (.read .word 0#20) :: [] ∧ State.reset.pending = none ∧ State.reset.inputs = [] ∧
    (turnNext State.reset).pending = none ∧ (turnNext State.reset).inputs = .sequencerTurn :: [] ∧
    (turnNext (accept 0#32 State.reset)).pending = some 0#32 ∧
    (turnNext (accept 0#32 State.reset)).inputs = .sequencerTurn :: [] ∧
    decode 0#32 = .illegal (.unassignedOpcode 0) := by
  decide

/-- Each command has a next state, and for each flag some command does not set it. -/
theorem witness_CommandsWriteOnlyTheirOwn : (∃ t, exec .place State.reset = .next t) ∧
    (∃ t, exec (.gfadd 1 2) State.reset = .next t) ∧ isGf .place = false ∧ writesCount .place = false ∧
    writesSelection .place = false ∧ writesGenerator .place = false ∧
    writesPlacement (.gfadd 1 2) = false ∧ writesCodewords .place = false ∧
    writesAccumulator .place = false := ⟨⟨_, rfl⟩, ⟨_, rfl⟩, by decide⟩

theorem witness_MvalidAndSelvRule : isGf .aenc = false ∧ writesPlacement .aenc = false ∧
    (∃ t, exec .aenc State.reset = .next t) ∧ isGf (.gfmul 2 128) = true ∧
    (∃ t, exec (.gfmul 2 128) State.reset = .next t) ∧ writesSelection .aenc = false ∧
    (accept 0#32 State.reset).pending = some 0#32 ∧ decode 0#32 = .illegal (.unassignedOpcode 0) ∧
    (∃ t, sequencerTurn (accept 0#32 State.reset) = .next t) :=
  ⟨by decide, by decide, ⟨_, rfl⟩, by decide, ⟨_, rfl⟩, by decide, by decide, by decide, ⟨_, rfl⟩⟩

theorem witness_CommandAcceptance : State.reset.pending = none ∧
    busyState.pending = some 0x40000000#32 := by decide

theorem witness_ControlRegister : (0x1#32).getLsbD 1 = false ∧ (0x3#32).getLsbD 1 = true ∧
    (∃ t, exec .pad State.reset = .next t) := ⟨by decide, by decide, ⟨_, rfl⟩⟩

theorem witness_SoftResetEffect : (0x2#32).getLsbD 1 = true ∧ State.reset.pending = none ∧
    busyState.pending = some 0x40000000#32 ∧ 0 < 2178 ∧ 2177 < 2178 ∧ 68 < 69 ∧ 17423 < 17424 := by
  decide

theorem witness_ResetValues : State.reset = State.reset ∧ (0x2#32).getLsbD 1 = true ∧
    hostWrite 0x04 2 busyState = hostAccess (.write .word 0x00004#20 0x2#32) busyState ∧ 0 < 256 ∧
    255 < 256 := ⟨rfl, by decide, rfl, by decide, by decide⟩

/-- Misaligned, unmapped at both ends of a window, and read-only at the ends of the ranges. -/
theorem witness_RefusedAccesses : (0x2#20).toNat % 4 ≠ 0 ∧ ¬ Mapped (0x38#20).toNat ∧
    ¬ Mapped (0x3FFC#20).toNat ∧ ¬ Mapped (0x70B0#20).toNat ∧ ¬ Mapped (0xFFFFC#20).toNat ∧
    (0x0#20).toNat % 4 = 0 ∧ ReadOnly (0x0#20).toNat ∧ ReadOnly (0x1C#20).toNat ∧
    ReadOnly (0x34#20).toNat ∧ ReadOnly (0xC110#20).toNat ∧ ReadOnly (0xD7FC#20).toNat ∧
    ReadOnly (0x2103C#20).toNat ∧ ReadOnly (0x4103C#20).toNat ∧ (0x4103C#20).toNat % 4 = 0 := by
  unfold Mapped ReadOnly
  and_intros <;> decide

theorem witness_IdleReadsHaveNoSideEffect : State.reset.pending = none ∧ (0x70AC#20).toNat % 4 = 0 ∧
    Mapped (0x70AC#20).toNat := by
  unfold Mapped
  decide

theorem witness_WindowElements : State.reset.pending = none ∧ 0 < 3116 ∧ 3115 < 3116 ∧ 2177 < 2178 ∧
    68 < 69 ∧ 255 < 256 ∧ (0x34#20).toNat % 4 = 0 ∧ Mapped (0x34#20).toNat ∧
    (0x4103C#20).toNat % 4 = 0 ∧ Mapped (0x4103C#20).toNat := by
  unfold Mapped
  and_intros <;> decide

theorem witness_GridCellAddresses : State.reset.pending = none ∧ 0 < 132 ∧ 131 < 132 := by decide

/-- The inputs at the ends of their ranges, a CTRL write without and with SRST, a read-only and an
unmapped address. -/
theorem witness_WritesWhileBusy : busyState.pending = some 0x40000000#32 ∧
    (0x14#20).toNat % 4 = 0 ∧ InputAddress (0x14#20).toNat ∧ InputAddress (0x18#20).toNat ∧
    InputAddress (0x4000#20).toNat ∧ InputAddress (0x70AC#20).toNat ∧ InputAddress (0x8000#20).toNat ∧
    InputAddress (0xA204#20).toNat ∧ (0xA204#20).toNat % 4 = 0 ∧ (0x1#32).getLsbD 1 = false ∧
    (0x2#32).getLsbD 1 = true ∧ ReadOnly (0x34#20).toNat ∧ ¬ Mapped (0x38#20).toNat := by
  unfold Mapped ReadOnly InputAddress
  and_intros <;> decide

/-- Exact reads at ID, TXT_LEN and the last LOG element; STATUS of a consistent busy state; draws at
each location a clause names, at the ends of the windows. -/
theorem witness_ReadsWhileBusy : busyState.pending = some 0x40000000#32 ∧
    (0xD3FC#20).toNat % 4 = 0 ∧ Mapped (0xD3FC#20).toNat ∧ ¬ DrawAddress (0xD3FC#20).toNat ∧
    (0xD3FC#20).toNat ≠ 8 ∧ ¬ DrawAddress (0x0#20).toNat ∧ ¬ DrawAddress (0x14#20).toNat ∧
    StatusConsistent busyState ∧ DrawAddress (0x10#20).toNat ∧ DrawAddress (0x18#20).toNat ∧
    DrawAddress (0x1C#20).toNat ∧ DrawAddress (0x20#20).toNat ∧ DrawAddress (0x24#20).toNat ∧
    DrawAddress (0x28#20).toNat ∧ DrawAddress (0x2C#20).toNat ∧ DrawAddress (0x30#20).toNat ∧
    DrawAddress (0x34#20).toNat ∧ DrawAddress (0x8000#20).toNat ∧ DrawAddress (0xC110#20).toNat ∧
    DrawAddress (0x10000#20).toNat ∧ DrawAddress (0x4103C#20).toNat ∧ (0x4103C#20).toNat % 4 = 0 := by
  unfold Mapped DrawAddress StatusConsistent
  and_intros <;> decide

theorem witness_SelectionViews : State.reset.pending = none ∧ State.reset.selv = false ∧
    0x2C ∈ [0x1C, 0x20, 0x24, 0x28, 0x2C] ∧ (withEntry 24).pending = none ∧
    (withEntry 24).selv = true := by decide

/-- A read, and a CTRL write without SRST. -/
theorem witness_HostAccessesKeepResults :
    (∀ v : Word, HostAccess.read .word 0#20 = .write .word 0x00004#20 v → v.getLsbD 1 = false) ∧
    (∀ v : Word, HostAccess.write .word 0x00004#20 1#32 = .write .word 0x00004#20 v →
      v.getLsbD 1 = false) := by
  refine ⟨fun v h => ?_, fun v h => ?_⟩
  · cases h
  · cases h
    decide

theorem witness_InterruptLevel : busyState.pending = some 0x40000000#32 ∧
    (∃ t, sequencerTurn busyState = .next t) ∧ (0x2#32).getLsbD 1 = true ∧
    State.reset.pending = none ∧ (0x0#32).getLsbD 0 = false := ⟨rfl, ⟨_, rfl⟩, by decide, rfl, by decide⟩

theorem witness_TablesAreThePowersOfAlpha : 0 < 254 ∧ 253 < 254 ∧ 1 ≤ 1 ∧ 255 ≤ 255 ∧ 254 ≤ 254 := by
  decide

theorem witness_GfaddResult : 0x0153CA00#32 &&& 0xFF0000FF#32 = 0x01000000#32 := by decide

theorem witness_GfmulResult : 0x02FFFF00#32 &&& 0xFF0000FF#32 = 0x02000000#32 := by decide

theorem witness_GfsclResult : 0x0301FF00#32 &&& 0xFF0000FF#32 = 0x03000000#32 := by decide

theorem witness_FieldLaws : (1#8) ≠ 0#8 ∧ (255#8) ≠ 0#8 := by decide

/-- The largest lengths that fit and the smallest that do not, for both shapes. -/
theorem witness_SelOutcome : 0x10800FFF#32 &&& 0xFF7FF000#32 = 0x10000000#32 ∧ (1558#12).toNat ≤ (if false then 49 else 1558) ∧
    (if false then 49 else 1558) < (1559#12).toNat ∧ (49#12).toNat ≤ (if true then 49 else 1558) ∧
    (if true then 49 else 1558) < (50#12).toNat := by decide

/-- Both ends of a middle row of R402 and of the last row of each shape, and the lengths refused. -/
theorem witness_SelLengthTable : 145 ≤ (145#12).toNat ∧ (174#12).toNat ≤ 174 ∧
    1305 ≤ (1305#12).toNat ∧ (1558#12).toNat ≤ 1558 ∧ 33 ≤ (33#12).toNat ∧ (49#12).toNat ≤ 49 ∧
    (if false then 50 else 1559) ≤ (1559#12).toNat ∧ (if true then 50 else 1559) ≤ (50#12).toNat := by
  decide

theorem witness_SeliOutcome : 0x1100001F#32 &&& 0xFFFFFFE0#32 = 0x11000000#32 ∧ (0#5).toNat < 30 ∧ (29#5).toNat < 30 ∧ 30 ≤ (30#5).toNat ∧
    30 ≤ (31#5).toNat := by decide

/-- A text that fits, the empty text, a TXT_LEN just too large, and a text of 1559 codewords. -/
theorem witness_AencOutcome : (withText [49, 50]).txtLen.toNat ≤ 3116 ∧
    (textCodewords (withText [49, 50])).length ≤ 1558 ∧
    (textCodewords State.reset).length ≤ 1558 ∧
    3116 < ({ State.reset with txtLen := 3117#12 } : State).txtLen.toNat ∧
    ({ State.reset with txtLen := 1559#12 } : State).txtLen.toNat ≤ 3116 ∧
    1558 < (textCodewords { State.reset with txtLen := 1559#12 }).length := by decide +kernel

theorem witness_AsciiCodewordsFollowTheRules : AsciiRules [49] [50] ∧ 127 < (128#8).toNat ∧
    127 < (255#8).toNat ∧ 48 ≤ 48 ∧ 57 ≤ 57 ∧ (0#8).toNat ≤ 127 ∧ (127#8).toNat ≤ 127 :=
  ⟨.single 49 [] [] (by decide) (by rintro ⟨-, -, d, tail, h, -⟩; cases h) .done, by decide⟩

theorem witness_AsciiCodewordRange : (142#8) ∈ asciiCodewords [49, 50] ∧
    (235#8) ∈ asciiCodewords [128] := by decide

theorem witness_AsciiCodewordsDetermineTheText : asciiCodewords [49, 50] = asciiCodewords [49, 50] := rfl

/-- No selection; one codeword too many; as many as fit, one fewer, none. -/
theorem witness_PadOutcome : State.reset.selv = false ∧ (withEntry 0).selv = true ∧
    (selected (withEntry 0)).dataCw < ({ withEntry 0 with cwCount := 4#12 } : State).cwCount.toNat ∧
    ({ withEntry 0 with cwCount := 3#12 } : State).cwCount.toNat ≤ (selected (withEntry 0)).dataCw ∧
    ({ withEntry 0 with cwCount := 2#12 } : State).cwCount.toNat ≤ (selected (withEntry 0)).dataCw ∧
    (withEntry 0).cwCount.toNat ≤ (selected (withEntry 0)).dataCw := by decide

theorem witness_PadValueSet : padValue 2 = 70#8 ∧ 1545 < 1558 ∧ padValue 1545 = 0#8 := by decide

theorem witness_RsgenOutcome : 0x300000FF#32 &&& 0xFFFFFF00#32 = 0x30000000#32 ∧ (0#8) = 0#8 ∧ 68 < (69#8).toNat ∧ 1 ≤ (1#8).toNat ∧ (68#8).toNat ≤ 68 := by
  decide

theorem witness_GeneratorIsTheRootProduct : 1 ≤ 1 ∧ 1 ≤ 68 ∧ 68 ≤ 68 ∧ 1 ≤ (1#8).toNat ∧
    (68#8).toNat ≤ 68 := by decide

/-- Each of the three checks fails, and all three pass; the last block and error codeword. -/
theorem witness_RsencOutcome : State.reset.selv = false ∧
    ({ readyForRsenc with genE := 7#8 } : State).genE.toNat ≠ (selected readyForRsenc).eBlk ∧
    ({ readyForRsenc with cwCount := 2#12 } : State).cwCount.toNat ≠ (selected readyForRsenc).dataCw ∧
    readyForRsenc.selv = true ∧ readyForRsenc.genE.toNat = (selected readyForRsenc).eBlk ∧
    readyForRsenc.cwCount.toNat = (selected readyForRsenc).dataCw ∧
    0 < (selected readyForRsenc).blocks ∧ 4 < (selected readyForRsenc).eBlk ∧
    2 < (selected readyForRsenc).dataCw ∧ (selected readyForRsenc).total ≤ 8 := by decide

theorem witness_AccumulatorStep : ([1, 2, 3] : List Byte).length = 3 ∧ 1 ≤ 3 ∧ 0 < 3 ∧ 2 < 3 ∧ 1 ≤ 2 ∧
    1 < 2 := by decide

theorem witness_SyndromesAreZero : readyForRsenc.selv = true ∧
    readyForRsenc.genE.toNat = (selected readyForRsenc).eBlk ∧
    readyForRsenc.cwCount.toNat = (selected readyForRsenc).dataCw ∧ GeneratorHeld readyForRsenc ∧
    0 < (selected readyForRsenc).blocks ∧ 1 ≤ 5 ∧ 5 ≤ (selected readyForRsenc).eBlk := by
  have hg : GeneratorHeld readyForRsenc := by
    refine ⟨by decide, fun _ j hj => ?_⟩
    have h5 : readyForRsenc.genE.toNat = 5 := rfl
    rw [h5] at hj ⊢
    interval_cases j <;> decide +kernel
  exact ⟨by decide, by decide, by decide, hg, by decide, by decide, by decide⟩

/-- No selection; an entry selected, with a cell inside its area and one outside. -/
theorem witness_PlaceOutcome : State.reset.selv = false ∧ readyForPlace.selv = true ∧
    InMapping readyForPlace.selIdx 931 ∧ ¬ InMapping readyForPlace.selIdx 8 := by
  refine ⟨rfl, rfl, ⟨7, 7, by decide, by decide, by decide⟩, ?_⟩
  rintro ⟨r, c, hr, hc, h⟩
  have hr' : r < 8 := hr
  have hc' : c < 8 := hc
  simp only [cellIndex, Config.mapStride] at h
  omega

theorem witness_PlacementDependsOnCodewordsAlone : readyForPlace.selv = true ∧
    ({ readyForPlace with result := 7#8 } : State).selv = true ∧
    readyForPlace.selIdx = ({ readyForPlace with result := 7#8 } : State).selIdx ∧
    (∀ j, j < (selected readyForPlace).total → Memory.read readyForPlace.cw j =
      Memory.read ({ readyForPlace with result := 7#8 } : State).cw j) ∧
    (∃ t, exec .place readyForPlace = .next t) ∧
    (∃ t, exec .place { readyForPlace with result := 7#8 } = .next t) ∧
    InMapping readyForPlace.selIdx 0 :=
  ⟨rfl, rfl, rfl, fun _ _ => rfl, ⟨_, rfl⟩, ⟨_, rfl⟩, ⟨0, 0, by decide, by decide, by decide⟩⟩

/-- Entry 0 with its first and last cell, and entry 1 with the corners of its fixed block, the cells no
codeword bit goes to. -/
theorem witness_PlacementIsACodewordBitMap : readyForPlace.selv = true ∧
    readyForPlace.selIdx = 0 ∧ (∃ t, exec .place readyForPlace = .next t) ∧ InMapping 0 0 ∧
    InMapping 0 931 ∧ (withEntry 1).selv = true ∧ (withEntry 1).selIdx = 1 ∧
    (∃ t, exec .place (withEntry 1) = .next t) ∧ InMapping 1 (cellIndex 9 9) ∧
    InMapping 1 (cellIndex 8 9) ∧ ((capEntry 1).mapRows * (capEntry 1).mapCols) % 8 = 4 :=
  ⟨rfl, rfl, ⟨_, rfl⟩, ⟨0, 0, by decide, by decide, by decide⟩,
    ⟨7, 7, by decide, by decide, by decide⟩, rfl, rfl, ⟨_, rfl⟩,
    ⟨9, 9, by decide, by decide, by decide⟩, ⟨8, 9, by decide, by decide, by decide⟩, by decide⟩

/-- A pattern that is placed, one with no codeword left and one with a module outside the matrix; the
first module of a cell two modules reach, with the wrap of a row and of a column; an assigned cell and
a cell no module reaches. -/
theorem witness_PlacementIsACodewordBitMap_patterns :
    (placePattern ⟨8, 8, 8⟩ [] [(0, 0), (0, 0), (1, 1)] ⟨[], [], 0⟩).isSome = true ∧
    placePattern ⟨8, 8, 8⟩ [] [(0, 0)] ⟨[], [], 8⟩ = none ∧
    (∃ rc ∈ [((8 : Int), (0 : Int))], ¬ InsideMatrix ⟨8, 8, 8⟩ (wrapped ⟨8, 8, 8⟩ rc)) ∧
    FirstModuleAt ⟨8, 8, 8⟩ [(0, 0), (0, 0), (1, 1)] 0 0 ∧
    ¬ FirstModuleAt ⟨8, 8, 8⟩ [(0, 0), (0, 0), (1, 1)] 0 1 ∧
    FirstModuleAt ⟨8, 8, 8⟩ [(0, 0), (0, 0), (1, 1)] 133 2 ∧
    wrapped ⟨8, 8, 8⟩ (-1, 1) = (7, 1) ∧ wrapped ⟨10, 10, 12⟩ (-2, 3) = (8, 1) ∧
    wrapped ⟨6, 16, 12⟩ (2, -1) = (2, 15) ∧ Memory.read ([(5, 1)] : Memory 1) 5 = 1#1 ∧
    (∀ rc ∈ [((0 : Int), (0 : Int)), (1, 1)], gridCell (wrapped ⟨8, 8, 8⟩ rc) ≠ 7) := by
  unfold FirstModuleAt
  and_intros <;> decide

/-- An anchor of the matrix not yet assigned and one outside; the four corner conditions at the entries
R617 names, and an anchor that meets none. -/
theorem witness_PlacementIsACodewordBitMap_anchors :
    InsideMatrix ⟨8, 8, 8⟩ (4, 0) ∧ Memory.read ([] : Memory 1) (gridCell (4, 0)) = 0#1 ∧
    ¬ InsideMatrix ⟨8, 8, 8⟩ (8, 0) ∧ (mappingOf (capEntry 2)).rows = 12 ∧
    (mappingOf (capEntry 3)).rows = 14 ∧ (mappingOf (capEntry 3)).cols % 4 ≠ 0 ∧
    (mappingOf (capEntry 25)).rows = 6 ∧ (mappingOf (capEntry 25)).cols % 4 = 0 ∧
    (mappingOf (capEntry 25)).cols % 8 = 4 ∧ (mappingOf (capEntry 24)).cols % 8 = 0 ∧
    ((4 : Int), (0 : Int)) ≠ (8, 0) := by
  and_intros <;> decide

/-- A text that fits the square and one that just fits the rectangular shape. -/
theorem witness_EncOutcome : (withText [49, 50]).txtLen.toNat ≤ 3116 ∧
    (textCodewords (withText [49, 50])).length ≤ (if false then 49 else 1558) ∧
    (textCodewords { State.reset with txtLen := 49#12 }).length ≤ (if true then 49 else 1558) ∧
    (textCodewords { State.reset with txtLen := 1558#12 }).length ≤ (if false then 49 else 1558) := by
  decide +kernel

/-- TXT_LEN just too large; 1559 codewords; 50 codewords for the rectangular shape. -/
theorem witness_EncFailures : 3116 < ({ State.reset with txtLen := 3117#12 } : State).txtLen.toNat ∧
    ({ State.reset with txtLen := 1559#12 } : State).txtLen.toNat ≤ 3116 ∧
    1558 < (textCodewords { State.reset with txtLen := 1559#12 }).length ∧
    ({ State.reset with txtLen := 50#12 } : State).txtLen.toNat ≤ 3116 ∧
    (if true then 49 else 1558) < (textCodewords { State.reset with txtLen := 50#12 }).length ∧
    (textCodewords { State.reset with txtLen := 50#12 }).length ≤ 1558 := by decide +kernel

theorem witness_EncErrorCodes : (∃ t, issueAndComplete (.enc false) (withText [49, 50]) = some t) ∧
    (∃ t, issueAndComplete .place readyForPlace = some t) := ⟨⟨_, rfl⟩, ⟨_, rfl⟩⟩

theorem witness_EncDependsOnTheTextAlone : (withText [49, 50]).txtLen =
      ({ withText [49, 50] with result := 9#8 } : State).txtLen ∧
    (∀ j, j < (withText [49, 50]).txtLen.toNat → Memory.read (withText [49, 50]).txt j =
      Memory.read ({ withText [49, 50] with result := 9#8 } : State).txt j) ∧
    (∃ t, issueAndComplete (.enc false) (withText [49, 50]) = some t) ∧
    (∃ t, issueAndComplete (.enc false) { withText [49, 50] with result := 9#8 } = some t) :=
  ⟨rfl, fun _ _ => rfl, ⟨_, rfl⟩, ⟨_, rfl⟩⟩

theorem witness_StepKeepsMemoriesCanonical : MemoriesCanonical busyState ∧
    (∃ t, step busyState = .next t) := ⟨by unfold MemoriesCanonical; decide, ⟨_, rfl⟩⟩

theorem witness_StepKeepsStatusConsistent :
    (StatusConsistent busyState ∧ PendingIsReadBack busyState ∧ SelectionConsistent busyState) ∧
    (∃ t, step busyState = .next t) := by
  refine ⟨⟨by unfold StatusConsistent; decide, fun w h => ?_, by unfold SelectionConsistent; decide⟩,
    ⟨_, rfl⟩⟩
  cases h
  rfl

theorem witness_StepKeepsGeneratorHeld : GeneratorHeld busyState ∧ (∃ t, step busyState = .next t) :=
  ⟨⟨by decide, fun h => absurd rfl h⟩, ⟨_, rfl⟩⟩

theorem witness_StepKeepsPlacementHeld : PlacementHeld busyState ∧ (∃ t, step busyState = .next t) :=
  ⟨fun h => absurd h (by decide), ⟨_, rfl⟩⟩

theorem witness_RunsFromResetStayConsistent :
    ∃ t, core.run 2 { State.reset with inputs := [.access (.write .word 0x0000C#20 0x01000000#32)] } =
      .next t := ⟨_, rfl⟩

end Sys2Proof.Tests
end

section
/-! The rules shared by the statements of this family: what a completion leaves, the frame of the
command protocol and of the results, the soft reset, and one inversion lemma for each of a command,
a host access and a step. -/

namespace Sys2Proof.Machine

/-! ### Runs and completions -/

@[simp] theorem Run.ok_state (s : State) : (Run.ok s).state = s := rfl

@[simp] theorem Run.raise_state (e : CmdError) (s : State) : (Run.raise e s).state = s := rfl

/-- ERRCODE numbers the five errors from 1 (R711). -/
theorem errorCode_bounds (e : CmdError) : 1 ≤ (errorCode e).toNat ∧ (errorCode e).toNat ≤ 5 := by
  cases e <;> decide

/-- The fields of the state before PLACE in a successful ENC that say what is selected, counted and
generated, and the ones ENC never writes. -/
@[simp] theorem encodedState_fields (n : Fin Config.nEntries) (s : State) :
    (encodedState n s).ie = s.ie ∧ (encodedState n s).done = s.done ∧
    (encodedState n s).err = s.err ∧ (encodedState n s).errCode = s.errCode ∧
    (encodedState n s).cmdLost = s.cmdLost ∧ (encodedState n s).wrLost = s.wrLost ∧
    (encodedState n s).busErr = s.busErr ∧ (encodedState n s).selv = true ∧
    (encodedState n s).mvalid = false ∧ (encodedState n s).cmd = s.cmd ∧
    (encodedState n s).result = s.result ∧ (encodedState n s).txtLen = s.txtLen ∧
    (encodedState n s).cwCount = BitVec.ofNat 12 (capEntry n).dataCw ∧
    (encodedState n s).selIdx = n ∧ (encodedState n s).genE = BitVec.ofNat 8 (capEntry n).eBlk ∧
    (encodedState n s).txt = s.txt ∧
    (encodedState n s).gen = Memory.writeRange s.gen 0 ((capEntry n).eBlk + 1)
      (fun j => (generator (capEntry n).eBlk).getD j 0) ∧
    (encodedState n s).bm = s.bm ∧ (encodedState n s).asg = s.asg ∧
    (encodedState n s).pending = s.pending ∧ (encodedState n s).draws = s.draws ∧
    (encodedState n s).inputs = s.inputs ∧ (encodedState n s).readData = s.readData := by
  simp [encodedState]

/-! ### What a command can do -/

/-- What the run of a command leaves, command by command: the one list of cases from which the
invariants and the frames of all commands follow (R400 to R656). -/
inductive CommandOutcome (s : State) : Instr → Run → Prop where
  | gf {i : Instr} (v : Byte) : isGf i = true → CommandOutcome s i (Run.ok (setResult v s))
  | raised {i : Instr} (e : CmdError) : isGf i = false →
      CommandOutcome s i (Run.raise e (clearMvalid s))
  | selectedByLength (rect : Bool) (len : BitVec 12) (n : Fin Config.nEntries) :
      CommandOutcome s (.sel rect len) (Run.ok (setSelection n (clearMvalid s)))
  | noEntry (rect : Bool) (len : BitVec 12) :
      CommandOutcome s (.sel rect len) (Run.raise .capacityExceeded (dropSelection (clearMvalid s)))
  | selectedByIndex (idx : BitVec 5) (n : Fin Config.nEntries) :
      CommandOutcome s (.seli idx) (Run.ok (setSelection n (clearMvalid s)))
  | textEncoded :
      CommandOutcome s .aenc (Run.ok (storeCodewords (textCodewords s) (clearMvalid s)))
  | textOverflow :
      CommandOutcome s .aenc (Run.raise .capacityExceeded (overflowCodewords (clearMvalid s)))
  | padded (n c : Nat) : CommandOutcome s .pad (Run.ok (storePadding n c (clearMvalid s)))
  | generated (e : Byte) : 1 ≤ e.toNat → e.toNat ≤ Config.eMax →
      CommandOutcome s (.rsgen e) (Run.ok (storeGenerator e.toNat (clearMvalid s)))
  | blocksEncoded : CommandOutcome s .rsenc (Run.ok (storeErrorCodewords (clearMvalid s)))
  | placed (p : Placer) : s.selv = true →
      placeAll (mappingOf (selected s)) s.cw (clearedPlacer (mappingOf (selected s)) s) = some p →
      p.chr = (selected s).total →
      CommandOutcome s .place (Run.ok (storePlacement p (clearMvalid s)))
  | encOverflow (rect : Bool) : CommandOutcome s (.enc rect)
      (Run.raise .capacityExceeded (overflowCodewords (clearMvalid s)))
  | encNoEntry (rect : Bool) : CommandOutcome s (.enc rect)
      (Run.raise .capacityExceeded
        (dropSelection (storeCodewords (textCodewords s) (clearMvalid s))))
  | encoded (rect : Bool) (n : Fin Config.nEntries) (p : Placer) :
      placeAll (mappingOf (capEntry n)) (encodedState n s).cw
        (clearedPlacer (mappingOf (capEntry n)) s) = some p →
      p.chr = (capEntry n).total →
      CommandOutcome s (.enc rect) (Run.ok (storePlacement p (encodedState n s)))

theorem runEnc_outcome (rect : Bool) (s : State) :
    CommandOutcome s (.enc rect) (runEnc rect s) := by
  rcases runEnc_cases rect s with
    ⟨-, h⟩ | ⟨-, -, h⟩ | ⟨-, -, -, h⟩ | ⟨-, -, n, p, -, hp, hchr, h⟩ <;> rw [h]
  · exact .raised _ rfl
  · exact .encOverflow rect
  · exact .encNoEntry rect
  · exact .encoded rect n p hp hchr

/-- The run of every command is one of the cases. -/
theorem runOf_outcome (i : Instr) (s : State) : CommandOutcome s i (runOf i s) := by
  cases i with
  | gfadd | gfmul | gfscl => exact .gf _ rfl
  | sel rect len =>
    rcases selectByLength_cases rect len.toNat (clearMvalid s) with ⟨-, n, -, -, h⟩ | ⟨-, h⟩ <;>
      rw [runOf, runSel, h]
    · exact .selectedByLength rect len n
    · exact .noEntry rect len
  | seli idx =>
    rcases runSeli_cases idx s with ⟨n, -, h⟩ | ⟨-, h⟩ <;> rw [runOf, h]
    · exact .selectedByIndex idx n
    · exact .raised _ rfl
  | aenc =>
    rcases encodeText_cases (clearMvalid s) with ⟨-, h⟩ | ⟨-, -, h⟩ | ⟨-, -, h⟩ <;>
      rw [runOf, runAenc, h]
    · exact .raised _ rfl
    · exact .textOverflow
    · exact .textEncoded
  | pad =>
    rcases padSelected_cases (clearMvalid s) with ⟨-, h⟩ | ⟨-, -, h⟩ | ⟨-, -, h⟩ <;>
      rw [runOf, runPad, h]
    · exact .raised _ rfl
    · exact .raised _ rfl
    · exact .padded _ _
  | rsgen e =>
    rcases buildGenerator_cases e.toNat (clearMvalid s) with ⟨-, h⟩ | ⟨h1, h2, h⟩ <;>
      rw [runOf, runRsgen, h]
    · exact .raised _ rfl
    · exact .generated e h1 h2
  | rsenc =>
    rcases encodeBlocks_cases (clearMvalid s) with ⟨-, h⟩ | ⟨-, -, -, h⟩ <;>
      rw [runOf, runRsenc, h]
    · exact .raised _ rfl
    · exact .blocksEncoded
  | place =>
    rcases placeSelected_cases (clearMvalid s) with ⟨-, h⟩ | ⟨hv, p, hp, hchr, h⟩ <;>
      rw [runOf, runPlace, h]
    · exact .raised _ rfl
    · exact .placed p hv hp hchr
  | enc rect => exact runEnc_outcome rect s

/-! ### The frame of the commands -/

/-- The fields no command's rule writes: CTRL, the flags a completion or the host writes, the CMD
read-back, the text, the pending word and the coming accesses (R702). -/
structure SameProtocol (s t : State) : Prop where
  ie : t.ie = s.ie
  done : t.done = s.done
  err : t.err = s.err
  errCode : t.errCode = s.errCode
  cmdLost : t.cmdLost = s.cmdLost
  wrLost : t.wrLost = s.wrLost
  busErr : t.busErr = s.busErr
  cmd : t.cmd = s.cmd
  txtLen : t.txtLen = s.txtLen
  txt : t.txt = s.txt
  pending : t.pending = s.pending
  inputs : t.inputs = s.inputs
  readData : t.readData = s.readData

theorem CommandOutcome.sameProtocol {s : State} {i : Instr} {r : Run} (h : CommandOutcome s i r) :
    SameProtocol s r.state := by
  cases h <;> constructor <;> simp

/-- A completion writes BUSY, DONE, ERR and ERRCODE only, so IE outlives it (R104, R702). -/
@[simp] theorem complete_ie (r : Run) : (complete r).ie = r.state.ie := by
  rcases complete_cases r with ⟨-, h⟩ | ⟨e, -, h⟩ <;> rw [h] <;> rfl

/-! ### The frame of the host accesses -/

/-- The fields that hold results, which only commands and a reset write. -/
structure SameResults (s t : State) : Prop where
  selIdx : t.selIdx = s.selIdx
  selv : t.selv = s.selv
  mvalid : t.mvalid = s.mvalid
  result : t.result = s.result
  gen : t.gen = s.gen
  genE : t.genE = s.genE
  placeUsed : t.placeUsed = s.placeUsed
  bm : t.bm = s.bm
  asg : t.asg = s.asg
  acc : t.acc = s.acc

theorem ReadOutcome.sameResults {s t : State} (h : ReadOutcome s t) : SameResults s t := by
  cases h <;> constructor <;> rfl

theorem setBusErr_sameResults (s : State) : SameResults s (setBusErr s) := by constructor <;> rfl

theorem writeCmd_sameResults (v : Word) (s : State) : SameResults s (writeCmd v s) := by
  unfold writeCmd
  split <;> constructor <;> rfl

theorem writeInput_sameResults {store : State → State} {s : State}
    (h : SameResults s (store s)) : SameResults s (writeInput store s) := by
  unfold writeInput
  split
  · constructor <;> rfl
  · exact h

/-- A write to any location but CTRL with SRST writes no result (R104, R212, R227). -/
theorem writeLocation_sameResults {l : Location} {v : Word} (s : State)
    (h : l = .ctrl → v.getLsbD 1 = false) : SameResults s (writeLocation l v s) := by
  cases l
  case ctrl =>
    rw [writeLocation, writeCtrl, h rfl, if_neg Bool.false_ne_true]
    constructor <;> rfl
  case status => constructor <;> rfl
  case cmd => exact writeCmd_sameResults v s
  case txtLen | cwCount | txt | cw =>
    apply writeInput_sameResults
    constructor <;> rfl
  all_goals exact setBusErr_sameResults s

theorem busWrite_sameResults (size : AccessSize) (addr : Addr) (v : Word) (s : State)
    (h : size = .word → addr = 0x00004#20 → v.getLsbD 1 = false) :
    SameResults s (busWrite size addr v s) := by
  cases size with
  | other => exact setBusErr_sameResults s
  | word =>
    unfold busWrite
    cases hl : locate addr with
    | none => exact setBusErr_sameResults s
    | some l => exact writeLocation_sameResults s fun hc => h rfl (locate_ctrl (hc ▸ hl))

/-- Every host access but a soft reset leaves the results as they were. -/
theorem hostAccess_sameResults (a : HostAccess) (s : State)
    (h : ∀ v : Word, a = .write .word 0x00004#20 v → v.getLsbD 1 = false) :
    SameResults s (hostAccess a s) := by
  cases a with
  | read size addr => exact (busRead_outcome size addr s).sameResults
  | write size addr v =>
    exact busWrite_sameResults size addr v s fun hs ha => h v (by rw [hs, ha])

/-! ### The host's accesses to one location -/

/-- A host write to a location's address is the write of that location (R227). -/
theorem hostAccess_write_addressOf {l : Location} (h : inMap l = true) (v : Word) (s : State) :
    hostAccess (.write .word (BitVec.ofNat 20 (addressOf l)) v) s = writeLocation l v s := by
  rw [hostAccess, busWrite, locate_addressOf h]

theorem hostAccess_write_ctrl (v : Word) (s : State) :
    hostAccess (.write .word 0x00004#20 v) s = writeCtrl v s :=
  hostAccess_write_addressOf (l := .ctrl) rfl v s

theorem hostAccess_write_status (v : Word) (s : State) :
    hostAccess (.write .word 0x00008#20 v) s = writeStatus v s :=
  hostAccess_write_addressOf (l := .status) rfl v s

/-- A location that is no draw location reads its exact value, while BUSY = 1 too (R215). -/
theorem readAt_exact {l : Location} (h : inMap l = true) (hd : drawMask l = none) (s : State) :
    readAt (addressOf l) s = locationValue s l := by
  rw [readAt_addressOf h, readLocation, hd]
  rfl

/-- While BUSY = 0 every location reads its exact value (R216). -/
theorem readAt_idle {l : Location} (h : inMap l = true) {s : State} (hp : s.pending = none) :
    readAt (addressOf l) s = locationValue s l := by
  rw [readAt_addressOf h, readLocation_idle l s hp]
  rfl

/-- Every host access is a soft reset or leaves the results as they were. -/
theorem hostAccess_results_cases (a : HostAccess) (s : State) :
    hostAccess a s = softReset s ∨ SameResults s (hostAccess a s) := by
  by_cases h : ∃ v : Word, a = .write .word 0x00004#20 v ∧ v.getLsbD 1 = true
  · obtain ⟨v, rfl, hv⟩ := h
    exact .inl (by rw [hostAccess_write_ctrl, writeCtrl, if_pos hv])
  · refine .inr (hostAccess_sameResults a s fun v hv => ?_)
    by_contra hb
    exact h ⟨v, hv, by simpa using hb⟩

/-- The fields the command protocol turns on: the CMD read-back, the pending word, and DONE, ERR and
ERRCODE. -/
structure SameCommand (s t : State) : Prop where
  done : t.done = s.done
  err : t.err = s.err
  errCode : t.errCode = s.errCode
  cmd : t.cmd = s.cmd
  pending : t.pending = s.pending

theorem ReadOutcome.sameCommand {s t : State} (h : ReadOutcome s t) : SameCommand s t := by
  cases h <;> constructor <;> rfl

theorem WriteOutcome.command_cases {v : Word} {s t : State} (h : WriteOutcome v s t) :
    SameCommand s t ∨ t = Machine.softReset s ∨ t = writeStatus v s ∨ t = Machine.accept v s := by
  cases h with
  | softReset => exact .inr (.inl rfl)
  | status => exact .inr (.inr (.inl rfl))
  | accept => exact .inr (.inr (.inr rfl))
  | _ => exact .inl ⟨rfl, rfl, rfl, rfl, rfl⟩

/-- Besides a soft reset, a STATUS write and the acceptance of a command, no host access touches the
command protocol. -/
theorem hostAccess_command_cases (a : HostAccess) (s : State) :
    SameCommand s (hostAccess a s) ∨ hostAccess a s = softReset s ∨
    (∃ v, hostAccess a s = writeStatus v s) ∨ (∃ v, hostAccess a s = accept v s) := by
  cases a with
  | read size addr => exact .inl (busRead_outcome size addr s).sameCommand
  | write size addr v =>
    rcases (busWrite_outcome size addr v s).command_cases with h | h | h | h
    · exact .inl h
    · exact .inr (.inl h)
    · exact .inr (.inr (.inl ⟨v, h⟩))
    · exact .inr (.inr (.inr ⟨v, h⟩))

/-! ### The soft reset -/

/-- A soft reset resets the registers of a state, the present one or the one with its memories
drawn (R802). -/
theorem softReset_eq_resetRegisters (s : State) : ∃ u, softReset s = resetRegisters u := by
  unfold softReset
  split
  · exact ⟨drawMemories s, rfl⟩
  · exact ⟨s, rfl⟩

/-- Every register and flag after a soft reset (R800, R802). -/
@[simp] theorem softReset_registers (s : State) :
    (softReset s).ie = false ∧ (softReset s).done = false ∧ (softReset s).err = false ∧
    (softReset s).errCode = 0#4 ∧ (softReset s).cmdLost = false ∧ (softReset s).wrLost = false ∧
    (softReset s).busErr = false ∧ (softReset s).selv = false ∧ (softReset s).mvalid = false ∧
    (softReset s).cmd = 0#32 ∧ (softReset s).result = 0#8 ∧ (softReset s).txtLen = 0#12 ∧
    (softReset s).cwCount = 0#12 ∧ (softReset s).selIdx = ⟨0, by decide⟩ ∧
    (softReset s).genE = 0#8 ∧ (softReset s).placeUsed = 0#12 ∧ (softReset s).pending = none := by
  obtain ⟨u, hu⟩ := softReset_eq_resetRegisters s
  rw [hu]
  exact ⟨rfl, rfl, rfl, rfl, rfl, rfl, rfl, rfl, rfl, rfl, rfl, rfl, rfl, rfl, rfl, rfl, rfl⟩

/-! ### Invariants of a step -/

/-- What every event keeps, a step keeps: the host's accesses, the completion of a command, and the
completion of an illegal word. -/
theorem step_induct {P : State → Prop} (hinputs : ∀ s l, P s → P { s with inputs := l })
    (haccess : ∀ a s, P s → P (hostAccess a s))
    (hcommand : ∀ i s, P s → P (complete (runOf i s)))
    (hillegal : ∀ s, P s → P (complete (Run.raise .illegalCommand s)))
    {s t : State} (hs : P s) (h : step s = .next t) : P t := by
  rcases step_cases h with ⟨a, rest, -, rfl⟩ | ⟨rest, hturn⟩
  · exact haccess a _ (hinputs s rest hs)
  · have hs' := hinputs s rest hs
    rcases sequencerTurn_cases hturn with ⟨-, rfl⟩ | ⟨-, i, -, -, rfl⟩ | ⟨-, -, -, -, rfl⟩
    · exact hs'
    · exact hcommand i _ hs'
    · exact hillegal _ hs'

end Sys2Proof.Machine
end

section
/-! The invariants of STATUS, of the CMD read-back and of the selection (R105, R107, R111, R128). -/

namespace Sys2Proof.Machine

/-! ### STATUS and the CMD read-back -/

theorem StatusConsistent.of_same {s t : State} (h : StatusConsistent s) (hdone : t.done = s.done)
    (herr : t.err = s.err) (hcode : t.errCode = s.errCode) (hpending : t.pending = s.pending) :
    StatusConsistent t := by
  simpa only [StatusConsistent, State.busy, hdone, herr, hcode, hpending] using h

theorem PendingIsReadBack.of_same {s t : State} (h : PendingIsReadBack s) (hcmd : t.cmd = s.cmd)
    (hpending : t.pending = s.pending) : PendingIsReadBack t := by
  simpa only [PendingIsReadBack, hcmd, hpending] using h

/-- STATUS is consistent after reset and after an acceptance: no error is recorded and DONE is 0. -/
theorem statusConsistent_of_cleared {t : State} (hdone : t.done = false) (herr : t.err = false)
    (hcode : t.errCode = 0#4) : StatusConsistent t :=
  ⟨fun _ => hcode, fun h => absurd (herr.symm.trans h) (by decide), fun _ => ⟨hdone, herr⟩⟩

/-- Write-one-to-clear takes ERRCODE away together with ERR (R106). -/
theorem StatusConsistent.writeStatus {s : State} (h : StatusConsistent s) (v : Word) :
    StatusConsistent (writeStatus v s) := by
  obtain ⟨hzero, hcode, hbusy⟩ := h
  have hcleared : (Machine.writeStatus v s).busy = true →
      (Machine.writeStatus v s).done = false ∧ (Machine.writeStatus v s).err = false := by
    intro hb
    obtain ⟨hdone, herr⟩ := hbusy hb
    simp [hdone, herr]
  cases hv : v.getLsbD 2
  · have herr : (Machine.writeStatus v s).err = s.err := by
      simp only [writeStatus_fields, hv, Bool.not_false, Bool.and_true]
    have herrCode : (Machine.writeStatus v s).errCode = s.errCode := by
      simp only [writeStatus_fields, hv, Bool.false_eq_true, if_false]
    exact ⟨by rwa [herr, herrCode], by rwa [herr, herrCode], hcleared⟩
  · have herr : (Machine.writeStatus v s).err = false := by
      simp only [writeStatus_fields, hv, Bool.not_true, Bool.and_false]
    have herrCode : (Machine.writeStatus v s).errCode = 0#4 := by
      simp only [writeStatus_fields, hv, if_true]
    exact ⟨fun _ => herrCode, fun he => absurd (herr.symm.trans he) (by decide), hcleared⟩

/-- A completion ends BUSY, and either leaves ERR and ERRCODE or sets both (R702, R711). -/
theorem StatusConsistent.complete {r : Run} (h : StatusConsistent r.state) :
    StatusConsistent (complete r) := by
  obtain ⟨hzero, hcode, -⟩ := h
  rcases complete_cases r with ⟨-, hr⟩ | ⟨e, -, hr⟩ <;> rw [hr]
  · exact ⟨hzero, hcode, fun hb => Bool.noConfusion hb⟩
  · exact ⟨fun he => Bool.noConfusion he, fun _ => errorCode_bounds e,
      fun hb => Bool.noConfusion hb⟩

/-- After a completion no command is pending (R702). -/
@[simp] theorem complete_pending (r : Run) : (complete r).pending = none := by
  rcases complete_cases r with ⟨-, h⟩ | ⟨e, -, h⟩ <;> rw [h] <;> rfl

theorem pendingIsReadBack_of_idle {t : State} (h : t.pending = none) : PendingIsReadBack t := by
  intro w hw
  rw [h] at hw
  cases hw

theorem hostAccess_keeps_statusConsistent (a : HostAccess) {s : State} (h : StatusConsistent s) :
    StatusConsistent (hostAccess a s) := by
  rcases hostAccess_command_cases a s with hs | hr | ⟨v, hw⟩ | ⟨v, ha⟩
  · exact h.of_same hs.done hs.err hs.errCode hs.pending
  · exact statusConsistent_of_cleared (by simp [hr]) (by simp [hr]) (by simp [hr])
  · exact hw ▸ h.writeStatus v
  · exact statusConsistent_of_cleared (by simp [ha]) (by simp [ha]) (by simp [ha])

theorem hostAccess_keeps_pendingIsReadBack (a : HostAccess) {s : State} (h : PendingIsReadBack s) :
    PendingIsReadBack (hostAccess a s) := by
  rcases hostAccess_command_cases a s with hs | hr | ⟨v, hw⟩ | ⟨v, ha⟩
  · exact h.of_same hs.cmd hs.pending
  · exact pendingIsReadBack_of_idle (by simp [hr])
  · exact h.of_same (by simp [hw]) (by simp [hw])
  · simp [ha, PendingIsReadBack]

/-! ### The selection -/

theorem SelectionConsistent.of_same {s t : State} (h : SelectionConsistent s)
    (hidx : t.selIdx = s.selIdx) (hselv : t.selv = s.selv) (hmvalid : t.mvalid = s.mvalid) :
    SelectionConsistent t := by
  simpa only [SelectionConsistent, hidx, hselv, hmvalid] using h

theorem hostAccess_keeps_selectionConsistent (a : HostAccess) {s : State}
    (h : SelectionConsistent s) : SelectionConsistent (hostAccess a s) := by
  rcases hostAccess_results_cases a s with hr | hr
  · simp [hr, SelectionConsistent]
  · exact h.of_same hr.selIdx hr.selv hr.mvalid

/-- A command leaves the selection and MVALID, clears MVALID, selects an entry, or drops selection
and MVALID together; only with an entry selected does it set MVALID (R401, R704). -/
theorem CommandOutcome.keeps_selectionConsistent {s : State} {i : Instr} {r : Run}
    (ho : CommandOutcome s i r) (h : SelectionConsistent s) :
    SelectionConsistent (complete r) := by
  cases ho with
  | gf v => exact h.of_same rfl rfl rfl
  | placed p hv => exact ⟨h.1, fun _ => hv⟩
  | raised | textEncoded | textOverflow | padded | generated | blocksEncoded | encOverflow =>
    exact ⟨by simpa using h.1, by simp⟩
  | selectedByLength | selectedByIndex | noEntry | encNoEntry | encoded =>
    simp [SelectionConsistent]

/-- Settles O56: the three invariants one by one, over the events of a step. -/
theorem stepKeepsStatusConsistent : Obligations.StepKeepsStatusConsistent := by
  unfold Obligations.StepKeepsStatusConsistent
  intro s t hs hstep
  refine step_induct (P := fun s => StatusConsistent s ∧ PendingIsReadBack s ∧
    SelectionConsistent s) ?_ ?_ ?_ ?_ hs hstep
  · rintro s l ⟨hst, hrb, hsel⟩
    exact ⟨hst.of_same rfl rfl rfl rfl, hrb.of_same rfl rfl, hsel.of_same rfl rfl rfl⟩
  · rintro a s ⟨hst, hrb, hsel⟩
    exact ⟨hostAccess_keeps_statusConsistent a hst, hostAccess_keeps_pendingIsReadBack a hrb,
      hostAccess_keeps_selectionConsistent a hsel⟩
  · rintro i s ⟨hst, -, hsel⟩
    have ho := runOf_outcome i s
    have hp := ho.sameProtocol
    exact ⟨(hst.of_same hp.done hp.err hp.errCode hp.pending).complete,
      pendingIsReadBack_of_idle (complete_pending _), ho.keeps_selectionConsistent hsel⟩
  · rintro s ⟨hst, -, hsel⟩
    exact ⟨hst.complete (r := Run.raise .illegalCommand s),
      pendingIsReadBack_of_idle (complete_pending _), hsel.of_same rfl rfl rfl⟩

end Sys2Proof.Machine
end

section
/-! The invariant of GEN and GEN_E (R113, R123, R551). -/

namespace Sys2Proof.Machine

theorem GeneratorHeld.of_same {s t : State} (h : GeneratorHeld s) (hgen : t.gen = s.gen)
    (hgenE : t.genE = s.genE) : GeneratorHeld t := by
  simpa only [GeneratorHeld, hgen, hgenE] using h

/-- With GEN_E = 0 nothing is claimed of GEN. -/
theorem generatorHeld_of_genE_zero {t : State} (h : t.genE = 0#8) : GeneratorHeld t :=
  ⟨by rw [h]; decide, fun hne => absurd h hne⟩

/-- RSGEN's writes for a degree it accepts (R550, R551). -/
theorem storeGenerator_generatorHeld {e : Nat} (he : e ≤ Config.eMax) (s : State) :
    GeneratorHeld (storeGenerator e s) := by
  have hnat : (storeGenerator e s).genE.toNat = e := by
    have hlt : Config.eMax < 2 ^ 8 := by decide
    rw [show (storeGenerator e s).genE = BitVec.ofNat 8 e from rfl, BitVec.toNat_ofNat,
      Nat.mod_eq_of_lt (by omega)]
  refine ⟨hnat.symm ▸ he, fun _ j hj => ?_⟩
  rw [hnat] at hj ⊢
  rw [show (storeGenerator e s).gen = Memory.writeRange s.gen 0 (e + 1)
      (fun j => (generator e).getD j 0) from rfl, Memory.read_writeRange, if_pos (by omega)]

/-- Only RSGEN and a successful ENC write GEN and GEN_E, and both store a generator. -/
theorem CommandOutcome.keeps_generatorHeld {s : State} {i : Instr} {r : Run}
    (ho : CommandOutcome s i r) (h : GeneratorHeld s) : GeneratorHeld (complete r) := by
  cases ho with
  | generated e _ he => exact (storeGenerator_generatorHeld he (clearMvalid s)).of_same rfl rfl
  | encoded rect n p =>
    obtain ⟨-, -, -, -, he, -, -⟩ := capEntry_bounds n
    exact (storeGenerator_generatorHeld he s).of_same (by simp) (by simp)
  | _ => exact h.of_same (by simp) (by simp)

/-- Settles O57: only RSGEN and ENC write GEN_E, and a soft reset clears it. -/
theorem stepKeepsGeneratorHeld : Obligations.StepKeepsGeneratorHeld := by
  unfold Obligations.StepKeepsGeneratorHeld
  intro s t hs hstep
  refine step_induct (P := GeneratorHeld) ?_ ?_ ?_ ?_ hs hstep
  · exact fun s l h => h.of_same rfl rfl
  · intro a s h
    rcases hostAccess_results_cases a s with hr | hr
    · exact generatorHeld_of_genE_zero (by simp [hr])
    · exact h.of_same hr.gen hr.genE
  · exact fun i s h => (runOf_outcome i s).keeps_generatorHeld h
  · exact fun s h => h.of_same rfl rfl

end Sys2Proof.Machine
end

section
/-! The invariant of a valid placement (R128, R616, R622). -/

namespace Sys2Proof.Machine

theorem PlacementHeld.of_same {s t : State} (h : PlacementHeld s) (hmvalid : t.mvalid = s.mvalid)
    (hused : t.placeUsed = s.placeUsed) (hidx : t.selIdx = s.selIdx) (hasg : t.asg = s.asg) :
    PlacementHeld t := by
  simpa only [PlacementHeld, selected, hmvalid, hused, hidx, hasg] using h

/-- With MVALID = 0 nothing is claimed of the placement. -/
theorem placementHeld_of_mvalid_false {t : State} (h : t.mvalid = false) : PlacementHeld t :=
  fun hm => absurd (h.symm.trans hm) (by decide)

/-- PLACE's writes after a placement of the selected entry that used all its codewords. -/
theorem storePlacement_placementHeld {s : State} {cw : Memory 8} {p₀ p : Placer}
    (hp : placeAll (mappingOf (selected s)) cw p₀ = some p) (hchr : p.chr = (selected s).total) :
    PlacementHeld (storePlacement p s) := by
  have hsel : selected (storePlacement p s) = selected s := rfl
  intro _
  rw [hsel]
  refine ⟨?_, fun r c hr hc => placeAll_allAssigned hp hr hc⟩
  obtain ⟨-, -, -, -, -, -, htotal⟩ := capEntry_bounds s.selIdx
  have hlt : (selected s).total < 2 ^ 12 := lt_of_le_of_lt htotal (by decide)
  rw [show (storePlacement p s).placeUsed = BitVec.ofNat 12 p.chr from rfl, hchr,
    BitVec.toNat_ofNat, Nat.mod_eq_of_lt hlt]

/-- PLACE and a successful ENC complete a placement, a GF command leaves it, and every other outcome
has MVALID = 0 (R704). -/
theorem CommandOutcome.keeps_placementHeld {s : State} {i : Instr} {r : Run}
    (ho : CommandOutcome s i r) (h : PlacementHeld s) : PlacementHeld (complete r) := by
  cases ho with
  | gf v => exact h.of_same rfl rfl rfl rfl
  | placed p _ hp hchr =>
    exact (storePlacement_placementHeld (s := clearMvalid s) hp hchr).of_same rfl rfl rfl rfl
  | encoded rect n p hp hchr =>
    exact (storePlacement_placementHeld (s := encodedState n s) hp hchr).of_same rfl rfl rfl rfl
  | _ => exact placementHeld_of_mvalid_false (by simp)

/-- Settles O58: MVALID is set only by a placement that assigned every cell, and the host writes
neither the selection nor the placement. -/
theorem stepKeepsPlacementHeld : Obligations.StepKeepsPlacementHeld := by
  unfold Obligations.StepKeepsPlacementHeld
  intro s t hs hstep
  refine step_induct (P := PlacementHeld) ?_ ?_ ?_ ?_ hs hstep
  · exact fun s l h => h.of_same rfl rfl rfl rfl
  · intro a s h
    rcases hostAccess_results_cases a s with hr | hr
    · exact placementHeld_of_mvalid_false (by simp [hr])
    · exact h.of_same hr.mvalid hr.placeUsed hr.selIdx hr.asg
  · exact fun i s h => (runOf_outcome i s).keeps_placementHeld h
  · exact fun s h => h.of_same rfl rfl rfl rfl

/-- The state after reset with entry 0 selected. -/
def entryZeroSelected : State := { State.reset with selv := true }

/-- The invariant is met with MVALID = 1 as well: by what PLACE leaves with entry 0 selected. -/
theorem placementHeld_after_place : ∃ t, issueAndComplete .place entryZeroSelected = some t ∧
    t.mvalid = true ∧ PlacementHeld t := by
  have ho := runOf_outcome .place (accept (encode .place) entryZeroSelected)
  refine ⟨_, by rw [issueAndComplete, exec_eq_complete], by decide +kernel,
    ho.keeps_placementHeld (placementHeld_of_mvalid_false rfl)⟩

end Sys2Proof.Machine
end

section
/-! What the commands and the host write: the frames of the registers and memories, CTRL, and the
clear bits of STATUS (R104, R106, R108 to R126). -/

namespace Sys2Proof.Machine

/-- Settles O8: by the cases of a command; each case that writes a field is of a command named for
it. -/
theorem commandsWriteOnlyTheirOwn : Obligations.CommandsWriteOnlyTheirOwn := by
  unfold Obligations.CommandsWriteOnlyTheirOwn
  intro i s t h
  have ho := runOf_outcome i s
  rw [exec_next h]
  generalize runOf i s = r at ho ⊢
  cases ho with
  | gf v hgf => simp [hgf]
  | raised e _ => simp
  | selectedByLength | noEntry | selectedByIndex => simp [writesSelection]
  | textEncoded | textOverflow => simp [writesCodewords, writesCount]
  | padded => simp [writesCodewords, writesCount]
  | generated => simp [writesGenerator]
  | blocksEncoded => simp [writesCodewords, writesAccumulator]
  | placed => simp [writesPlacement]
  | encOverflow | encNoEntry | encoded =>
    simp [writesCodewords, writesCount, writesSelection, writesGenerator, writesPlacement,
      writesAccumulator]

/-- CTRL reads IE in bit 0 and zeros above (R104). -/
theorem readAt_ctrl (s : State) : readAt 0x00004 s = if s.ie then 1#32 else 0#32 :=
  readAt_exact (l := .ctrl) rfl rfl s

/-- No command writes IE (R104). -/
theorem exec_ie {i : Instr} {s t : State} (h : exec i s = .next t) : t.ie = s.ie := by
  rw [exec_next h, complete_ie]
  exact (runOf_outcome i s).sameProtocol.ie

/-- Settles O12: by the value of SRST, the exact read, and the frame of the commands. -/
theorem controlRegister : Obligations.ControlRegister := by
  unfold Obligations.ControlRegister
  refine ⟨fun s v hv => ?_, fun s v hv => ⟨?_, by simp⟩, readAt_ctrl, rfl, fun i s t => exec_ie⟩
  · rw [hostAccess_write_ctrl, writeCtrl, hv, if_neg Bool.false_ne_true]
  · rw [hostAccess_write_ctrl, writeCtrl, if_pos hv]

/-- Settles O23: a read, a refusal, a dropped write and a write to an input, to STATUS or to CMD
touch no result, which leaves the soft reset. -/
theorem hostAccessesKeepResults : Obligations.HostAccessesKeepResults := by
  unfold Obligations.HostAccessesKeepResults
  intro a s h
  have hr := hostAccess_sameResults a s h
  exact ⟨hr.selIdx, hr.selv, hr.mvalid, hr.result, hr.gen, hr.genE, hr.placeUsed, hr.bm, hr.asg,
    hr.acc⟩

/-- A flag with a clear bit (R106). -/
theorem and_not_eq_ite (flag clear : Bool) : (flag && !clear) = if clear then false else flag := by
  cases clear <;> simp

/-- Settles O11: a write to address 0x008 is writeStatus, whether or not a command is pending. -/
theorem statusWriteOneToClear : Obligations.StatusWriteOneToClear := by
  unfold Obligations.StatusWriteOneToClear
  intro s v
  simp only [hostAccess_write_status, writeStatus, and_not_eq_ite]

end Sys2Proof.Machine
end

section
/-! What the registers STATUS, SEL and ENT0 to ENT3 read (R105, R111, R112). -/

namespace Sys2Proof.Machine

/-! ### Words built from fields at rising bits -/

/-- The word is the number x, which takes the bits below n alone. -/
def FieldsBelow (w : Word) (n x : Nat) : Prop := w.toNat = x ∧ x < 2 ^ n

/-- A field of k bits at bit m, above all bits used so far, adds its value times 2^m. -/
theorem FieldsBelow.or_field {w : Word} {n x : Nat} (h : FieldsBelow w n x) {k : Nat} (v : BitVec k)
    (m : Nat) (hnm : n ≤ m := by decide) (hmk : m + k ≤ 32 := by decide) :
    FieldsBelow (w ||| (v.setWidth 32 <<< m)) (m + k) (x + v.toNat * 2 ^ m) := by
  obtain ⟨hw, hx⟩ := h
  have hxm : x < 2 ^ m := lt_of_lt_of_le hx (Nat.pow_le_pow_right (by decide) hnm)
  have hpos : 2 ^ m * (v.toNat + 1) ≤ 2 ^ m * 2 ^ k := Nat.mul_le_mul_left _ v.isLt
  rw [← Nat.pow_add, Nat.mul_add, Nat.mul_one] at hpos
  have hfit : 2 ^ (m + k) ≤ 2 ^ 32 := Nat.pow_le_pow_right (by decide) hmk
  have hv32 : v.toNat < 2 ^ 32 := lt_of_lt_of_le v.isLt
    (Nat.pow_le_pow_right (by decide) (by omega))
  rw [Nat.mul_comm v.toNat]
  refine ⟨?_, by omega⟩
  rw [BitVec.toNat_or, BitVec.toNat_shiftLeft, BitVec.toNat_setWidth, Nat.mod_eq_of_lt hv32, hw,
    Nat.shiftLeft_eq, Nat.mul_comm v.toNat, Nat.mod_eq_of_lt (by omega), Nat.or_comm,
    ← Nat.two_pow_add_eq_or_of_lt hxm, Nat.add_comm]

/-- A flag is a field of one bit. -/
theorem flagBit_eq_field (b : Bool) (n : Nat) :
    flagBit b n = (BitVec.ofBool b).setWidth 32 <<< n := by
  cases b
  · simp [flagBit]
  · rfl

theorem FieldsBelow.or_flag {w : Word} {n x : Nat} (h : FieldsBelow w n x) (b : Bool) (m : Nat)
    (hnm : n ≤ m := by decide) (hm : m + 1 ≤ 32 := by decide) :
    FieldsBelow (w ||| flagBit b m) (m + 1) (x + if b then 2 ^ m else 0) := by
  have hb : (BitVec.ofBool b).toNat * 2 ^ m = if b then 2 ^ m else 0 := by cases b <;> simp
  rw [flagBit_eq_field, ← hb]
  exact h.or_field (BitVec.ofBool b) m hnm hm

theorem fieldsBelow_flag_zero (b : Bool) : FieldsBelow (flagBit b 0) 1 (if b then 1 else 0) := by
  cases b <;> exact ⟨rfl, by decide⟩

/-- STATUS is the sum of its fields at their bits (R105). -/
theorem statusWord_toNat (s : State) : (statusWord s).toNat =
    (if s.busy then 1 else 0) + (if s.done then 2 ^ 1 else 0) + (if s.err then 2 ^ 2 else 0) +
    s.errCode.toNat * 2 ^ 4 + (if s.cmdLost then 2 ^ 8 else 0) + (if s.wrLost then 2 ^ 9 else 0) +
    (if s.busErr then 2 ^ 10 else 0) + (if s.selv then 2 ^ 16 else 0) +
    (if s.mvalid then 2 ^ 17 else 0) :=
  ((((((((fieldsBelow_flag_zero s.busy).or_flag s.done 1).or_flag s.err 2).or_field s.errCode
    4).or_flag s.cmdLost 8).or_flag s.wrLost 9).or_flag s.busErr 10).or_flag s.selv 16).or_flag
    s.mvalid 17 |>.1

/-- Settles O21: STATUS is no draw location, and its word is built field by field from bit 0 up. -/
theorem statusLayout : Obligations.StatusLayout := by
  unfold Obligations.StatusLayout
  intro s
  have hread : readAt 8 s = statusWord s := readAt_exact (l := .status) rfl rfl s
  rw [hread]
  exact statusWord_toNat s

/-! ### The selected entry's views -/

/-- Every field of every entry fits its field of ENT0 to ENT3 (R112). -/
theorem capEntry_fields_fit (n : Fin Config.nEntries) :
    (capEntry n).dataCw < 2 ^ 11 ∧ (capEntry n).errCw < 2 ^ 11 ∧ (capEntry n).symRows < 2 ^ 8 ∧
    (capEntry n).symCols < 2 ^ 8 ∧ (capEntry n).regRows < 2 ^ 4 ∧ (capEntry n).regCols < 2 ^ 4 ∧
    (capEntry n).blocks < 2 ^ 4 ∧ (capEntry n).drRows < 2 ^ 8 ∧ (capEntry n).drCols < 2 ^ 8 ∧
    (capEntry n).mapRows < 2 ^ 8 ∧ (capEntry n).mapCols < 2 ^ 8 ∧ (capEntry n).eBlk < 2 ^ 8 := by
  revert n
  decide

theorem ofNat_word_toNat {x : Nat} (h : x < 2 ^ 32) : (BitVec.ofNat 32 x).toNat = x := by
  rw [BitVec.toNat_ofNat, Nat.mod_eq_of_lt h]

/-- SEL with an entry selected: its index, and RECT in bit 8 from index 24 on (R111). -/
theorem selWord_toNat {s : State} (h : s.selv = true) :
    (selWord s).toNat = s.selIdx.val + if 24 ≤ s.selIdx.val then 2 ^ 8 else 0 := by
  have hlt : s.selIdx.val < 30 := s.selIdx.isLt
  have hrect : selRect s = decide (24 ≤ s.selIdx.val) := rfl
  rw [selWord, if_pos h, hrect, ofNat_word_toNat]
  · simp
  · split <;> omega

/-- An ENT register with an entry selected holds the entry's word (R112). -/
theorem entView_of_selv {s : State} (h : s.selv = true) (word : CapEntry → Word) :
    entView word s = word (capEntry s.selIdx) := if_pos h

/-- Settles O22: an idle core's reads are exact; the words are sums whose fields do not overlap, by
the bounds on the table's entries. -/
theorem selectionViews : Obligations.SelectionViews := by
  unfold Obligations.SelectionViews
  intro s hidle
  have hsel : readAt 0x1C s = selWord s := readAt_idle (l := .sel) rfl hidle
  have hent0 : readAt 0x20 s = entView ent0Word s := readAt_idle (l := .ent0) rfl hidle
  have hent1 : readAt 0x24 s = entView ent1Word s := readAt_idle (l := .ent1) rfl hidle
  have hent2 : readAt 0x28 s = entView ent2Word s := readAt_idle (l := .ent2) rfl hidle
  have hent3 : readAt 0x2C s = entView ent3Word s := readAt_idle (l := .ent3) rfl hidle
  refine ⟨fun hv => ?_, fun hv => ?_⟩
  · simp [hsel, hent0, hent1, hent2, hent3, selWord, entView, hv]
  · obtain ⟨hdata, herr, hsr, hsc, hrr, hrc, hblocks, hdr, hdc, hmr, hmc, heblk⟩ :=
      capEntry_fields_fit s.selIdx
    rw [hsel, hent0, hent1, hent2, hent3, selWord_toNat hv, entView_of_selv hv,
      entView_of_selv hv, entView_of_selv hv, entView_of_selv hv]
    refine ⟨rfl, ofNat_word_toNat (by omega), hdata, herr, ofNat_word_toNat (by omega), hsr, hsc,
      hrr, hrc, hblocks, ofNat_word_toNat (by omega), hdr, hdc, hmr, hmc,
      ofNat_word_toNat (lt_trans heblk (by decide)), heblk⟩

end Sys2Proof.Machine
end

section
/-! The constant tables (R130, R131, R140, R141). -/

namespace Sys2Proof.Machine

/-- ALOG[x+1] is twice ALOG[x], reduced by 0x12D (R130). -/
theorem alogAt_succ : ∀ x, x < 254 → (alogAt (x + 1)).toNat =
    if 256 ≤ 2 * (alogAt x).toNat then (2 * (alogAt x).toNat) ^^^ 0x12D
    else 2 * (alogAt x).toNat := by
  decide +kernel

/-- LOG of a nonzero element is an exponent below 255 whose power of alpha is the element (R131). -/
theorem alogAt_logAt : ∀ a, a < 256 → 1 ≤ a →
    (logAt a).toNat ≤ 254 ∧ (alogAt (logAt a).toNat).toNat = a := by
  decide +kernel

/-- LOG inverts ALOG on the exponents below 255 (R131). -/
theorem logAt_alogAt : ∀ x, x < 255 → (logAt (alogAt x).toNat).toNat = x := by
  decide +kernel

/-- Settles O28: the tables' entries are compared one by one. -/
theorem tablesAreThePowersOfAlpha : Obligations.TablesAreThePowersOfAlpha := by
  unfold Obligations.TablesAreThePowersOfAlpha
  exact ⟨rfl, alogAt_succ, fun a h1 h255 => alogAt_logAt a (by omega) h1,
    fun x hx => logAt_alogAt x (by omega), rfl, rfl⟩

/-- Settles O31: the table is listed, and R141 is checked entry by entry. -/
theorem capacityTable : Obligations.CapacityTable := by
  unfold Obligations.CapacityTable
  exact ⟨by decide, by decide⟩

end Sys2Proof.Machine
end

section
/-! The invariant of the memories: canonical form, and no element outside a memory's depth (R120 to
R126, R201, R228). -/

namespace Sys2Proof.Machine

/-! ### What writes no memory -/

@[simp] theorem memoriesCanonical_clearMvalid (s : State) :
    MemoriesCanonical (clearMvalid s) ↔ MemoriesCanonical s := Iff.rfl

@[simp] theorem memoriesCanonical_complete (r : Run) :
    MemoriesCanonical (complete r) ↔ MemoriesCanonical r.state := by
  rcases complete_cases r with ⟨-, h⟩ | ⟨e, -, h⟩ <;> rw [h] <;> rfl

@[simp] theorem memoriesCanonical_resetRegisters (s : State) :
    MemoriesCanonical (resetRegisters s) ↔ MemoriesCanonical s := Iff.rfl

/-! ### The writes of the commands -/

theorem MemoriesCanonical.storeCodewords {s : State} (h : MemoriesCanonical s) {l : List Byte}
    (hl : l.length ≤ Config.dataMax) : MemoriesCanonical (storeCodewords l s) := by
  obtain ⟨htxt, hcw, hrest⟩ := h
  have hdepth : Config.dataMax ≤ Config.cwDepth := by decide
  exact ⟨htxt, Memory.wf_writeRange _ (by omega) hcw, hrest⟩

theorem MemoriesCanonical.overflowCodewords {s : State} (h : MemoriesCanonical s) :
    MemoriesCanonical (overflowCodewords s) := by
  obtain ⟨htxt, hcw, hrest⟩ := h
  simp only [MemoriesCanonical, overflowCodewords_fields]
  exact ⟨htxt, Memory.wf_writeRange _ (by decide) hcw, hrest⟩

theorem MemoriesCanonical.storePadding {s : State} (h : MemoriesCanonical s) {n c : Nat}
    (hn : n ≤ c) (hc : c ≤ Config.dataMax) : MemoriesCanonical (storePadding n c s) := by
  obtain ⟨htxt, hcw, hrest⟩ := h
  have hdepth : Config.dataMax ≤ Config.cwDepth := by decide
  exact ⟨htxt, Memory.wf_writeRange _ (by omega) hcw, hrest⟩

theorem MemoriesCanonical.storeGenerator {s : State} (h : MemoriesCanonical s) {e : Nat}
    (he : e ≤ Config.eMax) : MemoriesCanonical (storeGenerator e s) := by
  obtain ⟨htxt, hcw, hgen, hrest⟩ := h
  have hdepth : Config.eMax + 1 = Config.genDepth := rfl
  exact ⟨htxt, hcw, Memory.wf_writeRange _ (by omega) hgen, hrest⟩

/-- The error codewords of one block stay below D + k + (count - 1) N + 1 (R562). -/
theorem wf_writeBlock {depth d n k count : Nat} (hfit : d + k + count * n < depth + n) (e : Nat)
    (acc : List Byte) {cw : Memory 8} (hcw : Memory.wf depth cw = true) :
    Memory.wf depth (writeBlock d n e k acc count cw) = true := by
  induction count with
  | zero => exact hcw
  | succ m ih =>
    rw [Nat.succ_mul] at hfit
    exact Memory.wf_write _ (by omega) (ih (by omega))

/-- The blocks of RSENC write below D + E N, the entry's number of codewords (R560, R562). -/
theorem wf_writeBlocks {depth d n e count : Nat} (hcount : count ≤ n) (hfit : d + e * n ≤ depth)
    (gen : Memory 8) {cw : Memory 8} (hcw : Memory.wf depth cw = true) :
    Memory.wf depth (writeBlocks gen d n e count cw) = true := by
  induction count with
  | zero => exact hcw
  | succ k ih => exact wf_writeBlock (by omega) e _ (ih (by omega))

theorem MemoriesCanonical.storeErrorCodewords {s : State} (h : MemoriesCanonical s) :
    MemoriesCanonical (storeErrorCodewords s) := by
  obtain ⟨htxt, hcw, hgen, hacc, hrest⟩ := h
  obtain ⟨-, -, -, -, heBlk, herrCw, htotal⟩ := capEntry_bounds s.selIdx
  have hfit : (selected s).dataCw + (selected s).eBlk * (selected s).blocks ≤ Config.cwDepth := by
    rwa [selected, herrCw]
  exact ⟨htxt, wf_writeBlocks le_rfl hfit s.gen hcw, hgen,
    Memory.wf_writeRange _ (by rwa [Nat.zero_add]) hacc, hrest⟩

/-- A placement writes inside its entry's mapping area alone (R600, R616). -/
theorem MemoriesCanonical.storePlacement {s : State} (h : MemoriesCanonical s)
    (n : Fin Config.nEntries) {p : Placer}
    (hp : placeAll (mappingOf (capEntry n)) s.cw (clearedPlacer (mappingOf (capEntry n)) s) = some p) :
    MemoriesCanonical (storePlacement p s) := by
  obtain ⟨htxt, hcw, hgen, hacc, hbm, hasg⟩ := h
  obtain ⟨hrows, hrows', hcols, hcols', -⟩ := mappingOf_bounds n
  have hgrids := placeAll_wf (by omega) (by omega) hrows' hcols' hp
    (wf_fillArea _ hrows' hcols' hbm) (wf_fillArea _ hrows' hcols' hasg)
  exact ⟨htxt, hcw, hgen, hacc, hgrids⟩

/-! ### The commands -/

theorem MemoriesCanonical.runSel {s : State} (h : MemoriesCanonical s) (rect : Bool)
    (len : BitVec 12) : MemoriesCanonical (runSel rect len s).state := by
  rcases selectByLength_cases rect len.toNat (clearMvalid s) with ⟨-, n, -, -, hr⟩ | ⟨-, hr⟩ <;>
    rw [Machine.runSel, hr] <;> exact h

theorem MemoriesCanonical.runSeli {s : State} (h : MemoriesCanonical s) (idx : BitVec 5) :
    MemoriesCanonical (runSeli idx s).state := by
  rcases runSeli_cases idx s with ⟨n, -, hr⟩ | ⟨-, hr⟩ <;> rw [hr] <;> exact h

theorem MemoriesCanonical.runAenc {s : State} (h : MemoriesCanonical s) :
    MemoriesCanonical (runAenc s).state := by
  have hclear := (memoriesCanonical_clearMvalid s).2 h
  rcases encodeText_cases (clearMvalid s) with ⟨-, hr⟩ | ⟨-, -, hr⟩ | ⟨-, hlen, hr⟩ <;>
    rw [Machine.runAenc, hr]
  · exact h
  · exact hclear.overflowCodewords
  · exact hclear.storeCodewords hlen

theorem MemoriesCanonical.runPad {s : State} (h : MemoriesCanonical s) :
    MemoriesCanonical (runPad s).state := by
  have hclear := (memoriesCanonical_clearMvalid s).2 h
  rcases padSelected_cases (clearMvalid s) with ⟨-, hr⟩ | ⟨-, -, hr⟩ | ⟨-, hcount, hr⟩ <;>
    rw [Machine.runPad, hr]
  · exact h
  · exact h
  · obtain ⟨-, hdata, -⟩ := capEntry_bounds s.selIdx
    exact hclear.storePadding hcount hdata

theorem MemoriesCanonical.runRsgen {s : State} (h : MemoriesCanonical s) (e : Byte) :
    MemoriesCanonical (runRsgen e s).state := by
  rcases buildGenerator_cases e.toNat (clearMvalid s) with ⟨-, hr⟩ | ⟨-, he, hr⟩ <;>
    rw [Machine.runRsgen, hr]
  · exact h
  · exact ((memoriesCanonical_clearMvalid s).2 h).storeGenerator he

theorem MemoriesCanonical.runRsenc {s : State} (h : MemoriesCanonical s) :
    MemoriesCanonical (runRsenc s).state := by
  rcases encodeBlocks_cases (clearMvalid s) with ⟨-, hr⟩ | ⟨-, -, -, hr⟩ <;>
    rw [Machine.runRsenc, hr]
  · exact h
  · exact ((memoriesCanonical_clearMvalid s).2 h).storeErrorCodewords

theorem MemoriesCanonical.runPlace {s : State} (h : MemoriesCanonical s) :
    MemoriesCanonical (runPlace s).state := by
  rcases placeSelected_cases (clearMvalid s) with ⟨-, hr⟩ | ⟨-, p, hp, -, hr⟩ <;>
    rw [Machine.runPlace, hr]
  · exact h
  · exact ((memoriesCanonical_clearMvalid s).2 h).storePlacement s.selIdx hp

/-- ENC keeps what each of its components keeps (R651). -/
theorem MemoriesCanonical.runEnc {s : State} (h : MemoriesCanonical s) (rect : Bool) :
    MemoriesCanonical (runEnc rect s).state := by
  unfold Machine.runEnc
  refine Run.andThen_induct (P := MemoriesCanonical) ?_ fun _ => .runPlace
  refine Run.andThen_induct (P := MemoriesCanonical) ?_ fun _ => .runRsenc
  refine Run.andThen_induct (P := MemoriesCanonical) ?_ fun _ hs => hs.runRsgen _
  refine Run.andThen_induct (P := MemoriesCanonical) ?_ fun _ => .runPad
  refine Run.andThen_induct (P := MemoriesCanonical) ?_ fun _ hs => hs.runSel rect _
  exact Run.andThen_induct (P := MemoriesCanonical) h fun _ => .runAenc

/-- Every command writes its memories inside their depths (R228). -/
theorem MemoriesCanonical.runOf {s : State} (h : MemoriesCanonical s) (i : Instr) :
    MemoriesCanonical (runOf i s).state := by
  cases i with
  | gfadd | gfmul | gfscl => exact h
  | sel rect len => exact h.runSel rect len
  | seli idx => exact h.runSeli idx
  | aenc => exact h.runAenc
  | pad => exact h.runPad
  | rsgen e => exact h.runRsgen e
  | rsenc => exact h.runRsenc
  | place => exact h.runPlace
  | enc rect => exact h.runEnc rect

/-! ### The host accesses -/

theorem MemoriesCanonical.drawMemories {s : State} (h : MemoriesCanonical s) :
    MemoriesCanonical (drawMemories s) := by
  obtain ⟨htxt, -, -, hacc, -, -⟩ := h
  simp only [MemoriesCanonical, drawMemories_fields]
  exact ⟨htxt, Memory.wf_tabulate _ _, Memory.wf_tabulate _ _, hacc, Memory.wf_tabulate _ _,
    Memory.wf_tabulate _ _⟩

theorem MemoriesCanonical.softReset {s : State} (h : MemoriesCanonical s) :
    MemoriesCanonical (softReset s) := by
  unfold Machine.softReset
  split
  · exact (memoriesCanonical_resetRegisters _).2 h.drawMemories
  · exact (memoriesCanonical_resetRegisters _).2 h

theorem ReadOutcome.keeps_memoriesCanonical {s t : State} (ho : ReadOutcome s t)
    (h : MemoriesCanonical s) : MemoriesCanonical t := by
  cases ho <;> exact h

/-- The host stores to existing elements of TXT and CW alone, and a soft reset lists draws inside the
depths (R201, R802). -/
theorem WriteOutcome.keeps_memoriesCanonical {v : Word} {s t : State} (ho : WriteOutcome v s t)
    (h : MemoriesCanonical s) : MemoriesCanonical t := by
  cases ho with
  | softReset => exact h.softReset
  | txt i hi =>
    obtain ⟨htxt, hrest⟩ := h
    exact ⟨Memory.wf_write _ hi htxt, hrest⟩
  | cw i hi =>
    obtain ⟨htxt, hcw, hrest⟩ := h
    exact ⟨htxt, Memory.wf_write _ hi hcw, hrest⟩
  | _ => exact h

theorem MemoriesCanonical.hostAccess {s : State} (h : MemoriesCanonical s) (a : HostAccess) :
    MemoriesCanonical (hostAccess a s) := by
  cases a with
  | read size addr => exact (busRead_outcome size addr s).keeps_memoriesCanonical h
  | write size addr v => exact (busWrite_outcome size addr v s).keeps_memoriesCanonical h

/-- Settles O55: the host and every command write inside the memories alone. -/
theorem stepKeepsMemoriesCanonical : Obligations.StepKeepsMemoriesCanonical := by
  unfold Obligations.StepKeepsMemoriesCanonical
  intro s t hs hstep
  refine step_induct (P := MemoriesCanonical) ?_ ?_ ?_ ?_ hs hstep
  · exact fun s l h => h
  · exact fun a s h => h.hostAccess a
  · exact fun i s h => (memoriesCanonical_complete _).2 (h.runOf i)
  · exact fun s h => (memoriesCanonical_complete _).2 h

end Sys2Proof.Machine
end

section
/-! The host's reads and writes by address: what the located, the refused, the read-only, the input
and the draw addresses do, idle and busy (R201 to R216, R227). -/

namespace Sys2Proof.Machine

/-! ### An access at an address -/

/-- An aligned address of the map is a location's (R201). -/
theorem exists_locate {addr : Addr} (h4 : addr.toNat % 4 = 0) (hm : Mapped addr.toNat) :
    ∃ l, locate addr = some l := by
  rw [← Option.ne_none_iff_exists', ne_eq, locate_eq_none_iff]
  tauto

theorem hostAccess_read_located {addr : Addr} {l : Location} (h : locate addr = some l) (s : State) :
    hostAccess (.read .word addr) s = readLocation l s := by
  rw [hostAccess, busRead, h]

theorem hostAccess_write_located {addr : Addr} {l : Location} (h : locate addr = some l) (v : Word)
    (s : State) : hostAccess (.write .word addr v) s = writeLocation l v s := by
  rw [hostAccess, busWrite, h]

/-- readAt is the word that a read leaves. -/
theorem readAt_toNat (addr : Addr) (s : State) :
    readAt addr.toNat s = (hostAccess (.read .word addr) s).readData := by
  rw [readAt, BitVec.ofNat_toNat, BitVec.setWidth_eq, hostAccess]

/-! ### Refused accesses -/

/-- A misaligned or an unmapped read is refused (R211, R213). -/
theorem hostAccess_read_refused {addr : Addr} (h : addr.toNat % 4 ≠ 0 ∨ ¬ Mapped addr.toNat)
    (s : State) : hostAccess (.read .word addr) s = refuseRead s := by
  rw [hostAccess, busRead, (locate_eq_none_iff addr).2 h]

theorem readOnly_mapped {a : Nat} (h : ReadOnly a) : Mapped a := by
  unfold ReadOnly at h
  unfold Mapped
  omega

/-- The read-only locations are those of R212. -/
theorem writeLocation_readOnly {l : Location} (hm : inMap l = true) (hr : ReadOnly (addressOf l))
    (v : Word) (s : State) : writeLocation l v s = setBusErr s := by
  unfold ReadOnly at hr
  cases l
  case ctrl | status | cmd | txtLen | cwCount => simp [addressOf] at hr
  case txt i | cw i =>
    simp only [addressOf, inMap, decide_eq_true_eq] at hr hm
    omega
  all_goals rfl

/-- A misaligned, an unmapped and a read-only write are refused alike (R211, R212, R213). -/
theorem hostAccess_write_refused {addr : Addr}
    (h : addr.toNat % 4 ≠ 0 ∨ ¬ Mapped addr.toNat ∨ ReadOnly addr.toNat) (v : Word) (s : State) :
    hostAccess (.write .word addr v) s = setBusErr s := by
  cases hl : locate addr with
  | none => rw [hostAccess, busWrite, hl]
  | some l =>
    obtain ⟨ha, hm⟩ := locate_some hl
    have hlocated : ¬ (addr.toNat % 4 ≠ 0 ∨ ¬ Mapped addr.toNat) := by
      rw [← locate_eq_none_iff, hl]
      exact Option.some_ne_none l
    have hr : ReadOnly addr.toNat := (or_assoc.2 h).resolve_left hlocated
    rw [hostAccess_write_located hl, writeLocation_readOnly hm (ha.symm ▸ hr)]

/-- Settles O15: by the reason of the refusal. -/
theorem refusedAccesses : Obligations.RefusedAccesses := by
  unfold Obligations.RefusedAccesses
  intro s addr v
  refine ⟨⟨rfl, rfl⟩, fun h => ⟨hostAccess_read_refused h s, ?_⟩, fun _ hr => ?_⟩
  · exact hostAccess_write_refused (by tauto) v s
  · exact hostAccess_write_refused (.inr (.inr hr)) v s

/-! ### Reads of an idle core -/

/-- While BUSY = 0 a read of an aligned mapped address returns the location's exact value and changes
nothing else (R216, R227). -/
theorem hostAccess_read_idle {addr : Addr} {l : Location} (h : locate addr = some l) {s : State}
    (hidle : s.pending = none) :
    hostAccess (.read .word addr) s = returnWord (locationValue s l) s := by
  rw [hostAccess_read_located h, readLocation_idle l s hidle]

/-- No location shows the word the bus returned last. -/
@[simp] theorem locationValue_returnWord (v : Word) (s : State) (l : Location) :
    locationValue (returnWord v s) l = locationValue s l := by
  cases l <;> rfl

/-- Settles O16: the word is the location's value, which the first read leaves as it was. -/
theorem idleReadsHaveNoSideEffect : Obligations.IdleReadsHaveNoSideEffect := by
  unfold Obligations.IdleReadsHaveNoSideEffect
  intro s addr hidle h4 hm
  obtain ⟨l, hl⟩ := exists_locate h4 hm
  refine ⟨locationValue s l, hostAccess_read_idle hl hidle, ?_⟩
  have hsecond := hostAccess_read_idle hl (s := returnWord (locationValue s l) s) hidle
  rwa [locationValue_returnWord] at hsecond

/-! ### Windows and special registers of an idle core -/

/-- While BUSY = 0 a write to an input is stored (R214). -/
theorem writeInput_idle (store : State → State) {s : State} (hidle : s.pending = none) :
    writeInput store s = store s := by
  rw [writeInput, State.busy, hidle, Option.isSome_none, if_neg Bool.false_ne_true]

/-- While BUSY = 0 a write to TXT stores bits 7:0 into its element (R202). -/
theorem hostAccess_write_txt {i : Nat} (hi : i < 3116) (v : Word) {s : State}
    (hidle : s.pending = none) :
    hostAccess (.write .word (BitVec.ofNat 20 (0x4000 + 4 * i)) v) s =
      { s with txt := Memory.write s.txt i (v.setWidth 8) } :=
  (hostAccess_write_addressOf (l := .txt i) (decide_eq_true hi) v s).trans
    (by rw [writeLocation, writeInput_idle _ hidle])

/-- While BUSY = 0 a write to CW stores bits 7:0 into its element (R202). -/
theorem hostAccess_write_cw {i : Nat} (hi : i < 2178) (v : Word) {s : State}
    (hidle : s.pending = none) :
    hostAccess (.write .word (BitVec.ofNat 20 (0x8000 + 4 * i)) v) s =
      { s with cw := Memory.write s.cw i (v.setWidth 8) } :=
  (hostAccess_write_addressOf (l := .cw i) (decide_eq_true hi) v s).trans
    (by rw [writeLocation, writeInput_idle _ hidle])

/-- While BUSY = 0 a write to TXT_LEN stores bits 11:0 (R109). -/
theorem hostAccess_write_txtLen (v : Word) {s : State} (hidle : s.pending = none) :
    hostAccess (.write .word 0x00014#20 v) s = { s with txtLen := v.extractLsb' 0 12 } := by
  rw [← BitVec.setWidth_eq_extractLsb' (by decide)]
  exact (hostAccess_write_addressOf (l := .txtLen) rfl v s).trans
    (by rw [writeLocation, writeInput_idle _ hidle])

/-- While BUSY = 0 a write to CW_COUNT stores bits 11:0 (R110). -/
theorem hostAccess_write_cwCount (v : Word) {s : State} (hidle : s.pending = none) :
    hostAccess (.write .word 0x00018#20 v) s = { s with cwCount := v.extractLsb' 0 12 } := by
  rw [← BitVec.setWidth_eq_extractLsb' (by decide)]
  exact (hostAccess_write_addressOf (l := .cwCount) rfl v s).trans
    (by rw [writeLocation, writeInput_idle _ hidle])

/-- Settles O17: every read is of one location's exact value, every write one to an input. -/
theorem windowElements : Obligations.WindowElements := by
  unfold Obligations.WindowElements
  intro s hidle
  have hreg {l : Location} (h : inMap l = true) := readAt_idle h hidle
  refine ⟨fun addr h4 hm => ?_,
    ⟨hreg (l := .cmd) rfl, hreg (l := .result) rfl, hreg (l := .txtLen) rfl,
      hreg (l := .cwCount) rfl, hreg (l := .genE) rfl, hreg (l := .placeUsed) rfl⟩,
    fun v => ⟨hostAccess_write_txtLen v hidle, hostAccess_write_cwCount v hidle⟩,
    fun i hi => hreg (l := .txt i) (decide_eq_true hi),
    fun i hi => hreg (l := .cw i) (decide_eq_true hi),
    fun i hi => hreg (l := .gen i) (decide_eq_true hi),
    fun i hi => hreg (l := .log i) (decide_eq_true hi),
    fun i hi => hreg (l := .alog i) (decide_eq_true hi),
    hreg (l := .log 0) rfl, hreg (l := .alog 255) rfl,
    fun i v hi => ⟨_, hostAccess_write_txt hi v hidle, fun j => Memory.read_write s.txt i j _⟩,
    fun i v hi => ⟨_, hostAccess_write_cw hi v hidle, fun j => Memory.read_write s.cw i j _⟩⟩
  obtain ⟨l, hl⟩ := exists_locate h4 hm
  rw [readAt_toNat, hostAccess_read_idle hl hidle]
  rfl

/-- A cell of the stride's square lies in the grid windows (R203). -/
theorem gridIndex_lt {r c : Nat} (hr : r < 132) (hc : c < 132) : 132 * r + c < 17424 := by omega

/-- Settles O18: a cell is the element 132 r + c of its window. -/
theorem gridCellAddresses : Obligations.GridCellAddresses := by
  unfold Obligations.GridCellAddresses
  intro s r c hidle hr hc
  have hin := decide_eq_true (gridIndex_lt hr hc)
  exact ⟨readAt_idle (l := .bm (132 * r + c)) hin hidle,
    readAt_idle (l := .asg (132 * r + c)) hin hidle⟩

/-! ### Accesses to a busy core -/

theorem busy_of_pending {s : State} {w : Word} (h : s.pending = some w) : s.busy = true := by
  rw [State.busy, h, Option.isSome_some]

/-- While BUSY = 1 a write to an input is dropped (R214). -/
theorem writeInput_busy (store : State → State) {s : State} (hbusy : s.busy = true) :
    writeInput store s = setWrLost s := if_pos hbusy

/-- The inputs are those of R214. -/
theorem writeLocation_input_busy {l : Location} (hm : inMap l = true)
    (hin : InputAddress (addressOf l)) (v : Word) {s : State} (hbusy : s.busy = true) :
    writeLocation l v s = setWrLost s := by
  unfold InputAddress at hin
  cases l
  case txtLen | cwCount | txt | cw => rw [writeLocation, writeInput_busy _ hbusy]
  case gen i | log i | alog i | bm i | asg i =>
    simp only [addressOf, inMap, decide_eq_true_eq] at hin hm
    omega
  all_goals simp [addressOf] at hin

theorem inputAddress_mapped {a : Nat} (h : InputAddress a) : Mapped a := by
  unfold InputAddress at h
  unfold Mapped
  omega

/-- Settles O19: by the location written. -/
theorem writesWhileBusy : Obligations.WritesWhileBusy := by
  unfold Obligations.WritesWhileBusy
  intro s w v hp
  have hbusy := busy_of_pending hp
  refine ⟨?_, fun addr h4 hin => ?_, fun hv => ?_, fun hv => ?_, hostAccess_write_status v s,
    fun addr h => hostAccess_write_refused (by tauto) v s⟩
  · exact (hostAccess_write_addressOf (l := .cmd) rfl v s).trans (if_pos hbusy)
  · obtain ⟨l, hl⟩ := exists_locate h4 (inputAddress_mapped hin)
    obtain ⟨ha, hm⟩ := locate_some hl
    rw [hostAccess_write_located hl, writeLocation_input_busy hm (ha.symm ▸ hin) v hbusy]
    rfl
  · rw [hostAccess_write_ctrl, writeCtrl, hv, if_neg Bool.false_ne_true]
  · rw [hostAccess_write_ctrl, writeCtrl, if_pos hv]

/-- No location but STATUS shows whether a command is pending (R105). -/
theorem locationValue_pending {l : Location} (h : l ≠ .status) (s : State) (p : Option Word) :
    locationValue { s with pending := p } l = locationValue s l := by
  cases l
  case status => exact absurd rfl h
  all_goals rfl

/-- A location that is no draw location reads its exact value (R215). -/
theorem readLocation_exact {l : Location} (h : drawMask l = none) (s : State) :
    readLocation l s = returnWord (locationValue s l) s := by
  rw [readLocation, h]

theorem readLocation_draw {l : Location} {mask : Word} (h : drawMask l = some mask) {s : State}
    (hbusy : s.busy = true) : readLocation l s = returnDraw mask s := by
  rw [readLocation, h]
  exact if_pos hbusy

/-- STATUS while BUSY = 1: DONE, ERR and ERRCODE are 0 (R215). -/
theorem statusWord_busy_toNat {s : State} (hbusy : s.busy = true) (hs : StatusConsistent s) :
    (statusWord s).toNat = 1 + (if s.cmdLost then 2 ^ 8 else 0) + (if s.wrLost then 2 ^ 9 else 0) +
      (if s.busErr then 2 ^ 10 else 0) + (if s.selv then 2 ^ 16 else 0) +
      (if s.mvalid then 2 ^ 17 else 0) := by
  obtain ⟨hcode, -, hidle⟩ := hs
  obtain ⟨hdone, herr⟩ := hidle hbusy
  simp [statusWord_toNat, hbusy, hdone, herr, hcode herr]

/-- The bits of a draw that are not reserved, address by address (R108 to R114, R202, R203). -/
theorem drawMask_by_address {l : Location} {mask : Word} (hm : inMap l = true)
    (h : drawMask l = some mask) :
    (addressOf l = 0x10 ∨ addressOf l = 0x2C ∨ addressOf l = 0x30 ∨
      (0x8000 ≤ addressOf l ∧ addressOf l ≤ 0xC113) → mask = 0xFF#32) ∧
    (addressOf l = 0x18 ∨ addressOf l = 0x34 → mask = 0xFFF#32) ∧
    (addressOf l = 0x1C → mask = 0x11F#32) ∧ (addressOf l = 0x20 → mask = 0x07FF07FF#32) ∧
    (addressOf l = 0x24 → mask = 0x0FFFFFFF#32) ∧ (addressOf l = 0x28 → mask = 0xFFFFFFFF#32) ∧
    (0x10000 ≤ addressOf l → mask = 1#32) := by
  cases l
  case id | ctrl | status | cmd | txtLen | txt | log | alog => cases h
  case cw i | gen i | bm i | asg i =>
    cases h
    simp only [inMap, decide_eq_true_eq] at hm
    simp [addressOf]
    omega
  all_goals
    cases h
    simp [addressOf]

theorem drawAddress_mapped {a : Nat} (h : DrawAddress a) : Mapped a := by
  unfold DrawAddress at h
  unfold Mapped
  omega

/-- Settles O20: by whether the location's reads are draws. -/
theorem readsWhileBusy : Obligations.ReadsWhileBusy := by
  unfold Obligations.ReadsWhileBusy
  intro s w hp
  have hbusy := busy_of_pending hp
  refine ⟨fun addr h4 hmap hdraw h8 => ?_, fun hs => ⟨?_, ?_⟩, fun addr h4 hdraw => ?_⟩
  · obtain ⟨l, hl⟩ := exists_locate h4 hmap
    obtain ⟨ha, hm⟩ := locate_some hl
    have hstatus : l ≠ .status := fun h => h8 (by rw [← ha, h]; rfl)
    rw [readAt_toNat, hostAccess_read_idle (s := { s with pending := none }) hl rfl,
      locationValue_pending hstatus, hostAccess_read_located hl, readLocation_exact]
    · rfl
    · rwa [← ha, ← drawMask_isSome hm, Option.not_isSome_iff_eq_none] at hdraw
  · rfl
  · rw [← statusWord_busy_toNat hbusy hs]
    exact congrArg _ (readAt_exact (l := .status) rfl rfl s)
  · obtain ⟨l, hl⟩ := exists_locate h4 (drawAddress_mapped hdraw)
    obtain ⟨ha, hm⟩ := locate_some hl
    rw [← ha, ← drawMask_isSome hm, Option.isSome_iff_exists] at hdraw
    obtain ⟨mask, hmask⟩ := hdraw
    refine ⟨mask, ?_, ha ▸ drawMask_by_address hm hmask⟩
    rw [hostAccess_read_located hl, readLocation_draw hmask hbusy]
    rfl

end Sys2Proof.Machine
end

section
/-! Decoding and encoding through the opcode map (R301 to R312, R703): which row a word matches, what
is read off a word of that row, that decode and encode are inverse to each other, and what a turn of
the sequencer and a step do with a word. -/

namespace Sys2Proof

/-! ### Fields of a command word -/

/-- The bits of a field's word are the field's, moved up to where the field stands. -/
theorem getLsbD_fieldAt {k : Nat} (v : BitVec k) (lo j : Nat) :
    (fieldAt v lo).getLsbD j = (decide (j < 32) && !decide (j < lo) && v.getLsbD (j - lo)) := by
  rw [fieldAt, BitVec.getLsbD_shiftLeft, BitVec.getLsbD_setWidth]
  by_cases hj : j < 32
  · simp [hj, show j - lo < 32 by omega]
  · simp [hj]

/-- A field that lies in the word reads back as it was written. -/
theorem extractLsb'_fieldAt_same {k lo : Nat} (v : BitVec k) (h : lo + k ≤ 32) :
    (fieldAt v lo).extractLsb' lo k = v := by
  refine BitVec.eq_of_getLsbD_eq fun j hj => ?_
  rw [BitVec.getLsbD_extractLsb', getLsbD_fieldAt]
  simp [hj, show lo + j < 32 by omega]

/-- A field is 0 where another field stands. -/
theorem extractLsb'_fieldAt_disjoint {k lo : Nat} (v : BitVec k) {lo' k' : Nat}
    (h : lo + k ≤ lo' ∨ lo' + k' ≤ lo) : (fieldAt v lo).extractLsb' lo' k' = 0#k' := by
  refine BitVec.eq_of_getLsbD_eq fun j hj => ?_
  rw [BitVec.getLsbD_extractLsb', getLsbD_fieldAt]
  rcases h with h | h
  · simp [BitVec.getLsbD_of_ge v (lo' + j - lo) (by omega)]
  · simp [show lo' + j < lo by omega]

/-- A field of a word, read and written back where it stands, is the word's bits there. -/
theorem fieldAt_extractLsb' (w : Word) (lo k : Nat) :
    fieldAt (w.extractLsb' lo k) lo = w &&& fieldAt (BitVec.allOnes k) lo := by
  refine BitVec.eq_of_getLsbD_eq fun j hj => ?_
  rw [BitVec.getLsbD_and, getLsbD_fieldAt, getLsbD_fieldAt, BitVec.getLsbD_extractLsb',
    BitVec.getLsbD_allOnes]
  by_cases hlo : j < lo
  · simp [hlo]
  · simp [hlo, hj, show lo + (j - lo) = j by omega, Bool.and_comm]

/-- RECT is the field of one bit at bit 23 (R308). -/
theorem ofBool_rectField (w : Word) : BitVec.ofBool (rectField w) = w.extractLsb' 23 1 := by
  refine BitVec.eq_of_getLsbD_eq fun j hj => ?_
  obtain rfl : j = 0 := by omega
  simp [rectField]

/-- A word is the value of the bits a row fixes, with the bits it leaves free put back. -/
theorem value_or_free {w mask value : Word} (h : w &&& mask = value) {free : Word}
    (hfree : mask ||| free = BitVec.allOnes 32) : value ||| w &&& free = w := by
  rw [← h, ← BitVec.and_or_distrib_left, hfree, BitVec.and_allOnes]

/-- A word whose row leaves one field free is the row's value with that field. -/
theorem value_or_field {w mask value : Word} (h : w &&& mask = value) {lo k : Nat}
    (hfree : mask ||| fieldAt (BitVec.allOnes k) lo = BitVec.allOnes 32) :
    value ||| fieldAt (w.extractLsb' lo k) lo = w := by
  rw [fieldAt_extractLsb']
  exact value_or_free h hfree

/-- A word whose row leaves two fields free is the row's value with those fields. -/
theorem value_or_fields {w mask value : Word} (h : w &&& mask = value) {lo k lo' k' : Nat}
    (hfree : mask ||| (fieldAt (BitVec.allOnes k) lo ||| fieldAt (BitVec.allOnes k') lo') =
      BitVec.allOnes 32) :
    value ||| fieldAt (w.extractLsb' lo k) lo ||| fieldAt (w.extractLsb' lo' k') lo' = w := by
  rw [BitVec.or_assoc, fieldAt_extractLsb', fieldAt_extractLsb', ← BitVec.and_or_distrib_left]
  exact value_or_free h hfree

/-! ### The rows of the opcode map -/

theorem fits_iff (r : OpcodeRow) (w : Word) : r.fits w = true ↔ w &&& r.mask = r.value :=
  beq_iff_eq

theorem opField_and (v w : Word) : opField (v &&& w) = opField v &&& opField w :=
  BitVec.extractLsb'_and

/-- Every row fixes the whole opcode field (R301, R309). -/
theorem opField_of_fits {r : OpcodeRow} (hr : r ∈ opcodeTable) {w : Word} (h : r.fits w = true) :
    opField w = opField r.value := by
  have hmask : ∀ r ∈ opcodeTable, opField r.mask = BitVec.allOnes 8 := by decide
  rw [← (fits_iff r w).1 h, opField_and, hmask r hr, BitVec.and_allOnes]

/-- A word matches at most one row: no two rows have one opcode (R309). -/
theorem fits_unique {r r' : OpcodeRow} (hr : r ∈ opcodeTable) (hr' : r' ∈ opcodeTable) {w : Word}
    (h : r.fits w = true) (h' : r'.fits w = true) : r = r' := by
  have hop : ∀ r ∈ opcodeTable, ∀ r' ∈ opcodeTable, opField r.value = opField r'.value →
      r = r' := by decide
  exact hop r hr r' hr' ((opField_of_fits hr h).symm.trans (opField_of_fits hr' h'))

/-- The opcodes of the map (R309). -/
theorem opcodeTable_opFields : opcodeTable.map (fun r => opField r.value) =
    [0x01#8, 0x02#8, 0x03#8, 0x10#8, 0x11#8, 0x20#8, 0x21#8, 0x30#8, 0x31#8, 0x40#8, 0x50#8] := rfl

/-! ### The decoder as a search of the opcode map -/

/-- What is read off a word that matches the row with the mnemonic: the command with its operands
(R308, R703). -/
def readRow (mnemonic : String) (w : Word) : Decoded :=
  match mnemonic with
  | "GFADD" => .command (.gfadd (aField w) (bField w))
  | "GFMUL" => .command (.gfmul (aField w) (bField w))
  | "GFSCL" => .command (.gfscl (aField w) (bField w))
  | "SEL" => .command (.sel (rectField w) (lenField w))
  | "SELI" => .command (.seli (idxField w))
  | "AENC" => .command .aenc
  | "PAD" => .command .pad
  | "RSGEN" => .command (.rsgen (eField w))
  | "RSENC" => .command .rsenc
  | "PLACE" => .command .place
  | "ENC" => .command (.enc (rectField w))
  | _ => .illegal (illegalReason w)

/-- The word read by the first of the rows that it matches. -/
def decodeRows (w : Word) : List OpcodeRow → Decoded
  | [] => .illegal (illegalReason w)
  | r :: rows => if w &&& r.mask = r.value then readRow r.mnemonic w else decodeRows w rows

/-- The decoder searches the opcode map row by row (R703). -/
theorem decode_eq_decodeRows (w : Word) : decode w = decodeRows w opcodeTable := rfl

/-- A search of rows finds a row the word matches, or the word matches none of them. -/
theorem decodeRows_cases (w : Word) (rows : List OpcodeRow) :
    (∃ r ∈ rows, r.fits w = true ∧ decodeRows w rows = readRow r.mnemonic w) ∨
    ((∀ r ∈ rows, r.fits w = false) ∧ decodeRows w rows = .illegal (illegalReason w)) := by
  induction rows with
  | nil => exact .inr ⟨by simp, rfl⟩
  | cons r rows ih =>
    rw [decodeRows]
    by_cases hfit : w &&& r.mask = r.value
    · exact .inl ⟨r, by simp, (fits_iff r w).2 hfit, if_pos hfit⟩
    · have hno : r.fits w = false := by rwa [← Bool.not_eq_true, fits_iff]
      simpa [hfit, hno] using ih

/-- What decode can do: read the row the word matches, or call a word that matches none illegal
(R310). -/
theorem decode_cases (w : Word) :
    (∃ r ∈ opcodeTable, r.fits w = true ∧ decode w = readRow r.mnemonic w) ∨
    ((∀ r ∈ opcodeTable, r.fits w = false) ∧ decode w = .illegal (illegalReason w)) := by
  rw [decode_eq_decodeRows]
  exact decodeRows_cases w opcodeTable

/-- A word that matches a row is read by that row. -/
theorem decode_of_fits {r : OpcodeRow} (hr : r ∈ opcodeTable) {w : Word} (h : r.fits w = true) :
    decode w = readRow r.mnemonic w := by
  rcases decode_cases w with ⟨r', hr', h', hd⟩ | ⟨hnone, -⟩
  · rw [hd, fits_unique hr hr' h h']
  · exact absurd h (by simp [hnone r hr])

/-! ### Decode and encode -/

/-- The word of a command matches the row with the command's mnemonic (R309). -/
theorem encode_matches_row (i : Instr) :
    ∃ r ∈ opcodeTable, r.mnemonic = i.mnemonic ∧ encode i &&& r.mask = r.value := by
  cases i with
  | gfadd a b => exact Laws.RowOfMnemonic.gfadd a b
  | gfmul a b => exact Laws.RowOfMnemonic.gfmul a b
  | gfscl a b => exact Laws.RowOfMnemonic.gfscl a b
  | sel rect len => exact Laws.RowOfMnemonic.sel rect len
  | seli idx => exact Laws.RowOfMnemonic.seli idx
  | aenc => exact Laws.RowOfMnemonic.aenc
  | pad => exact Laws.RowOfMnemonic.pad
  | rsgen e => exact Laws.RowOfMnemonic.rsgen e
  | rsenc => exact Laws.RowOfMnemonic.rsenc
  | place => exact Laws.RowOfMnemonic.place
  | enc rect => exact Laws.RowOfMnemonic.enc rect

/-- A of a format G word (R303). -/
theorem aField_formatG {op : Word} (h : aField op = 0#8) (a b : Byte) :
    aField (op ||| fieldAt a 16 ||| fieldAt b 8) = a := by
  unfold aField at *
  rw [BitVec.extractLsb'_or, BitVec.extractLsb'_or, h, BitVec.zero_or,
    extractLsb'_fieldAt_same a (by decide), extractLsb'_fieldAt_disjoint b (by decide),
    BitVec.or_zero]

/-- B of a format G word (R303). -/
theorem bField_formatG {op : Word} (h : bField op = 0#8) (a b : Byte) :
    bField (op ||| fieldAt a 16 ||| fieldAt b 8) = b := by
  unfold bField at *
  rw [BitVec.extractLsb'_or, BitVec.extractLsb'_or, h, BitVec.zero_or,
    extractLsb'_fieldAt_same b (by decide), extractLsb'_fieldAt_disjoint a (by decide),
    BitVec.zero_or]

/-- RECT of a word with nothing else at bit 23 (R304, R307). -/
theorem rectField_or_fieldAt {op : Word} (h : rectField op = false) (rect : Bool) :
    rectField (op ||| fieldAt (BitVec.ofBool rect) 23) = rect := by
  unfold rectField at *
  rw [BitVec.getLsbD_or, h, getLsbD_fieldAt]
  simp

/-- The lowest field of a word with nothing else there (R304 to R306). -/
theorem lowField_or_fieldAt {op : Word} {k : Nat} (h : op.extractLsb' 0 k = 0#k) (hk : k ≤ 32)
    (v : BitVec k) : (op ||| fieldAt v 0).extractLsb' 0 k = v := by
  rw [BitVec.extractLsb'_or, h, BitVec.zero_or, extractLsb'_fieldAt_same v (by omega)]

/-- RECT and LEN of a format L word (R304). -/
theorem sel_fields (rect : Bool) (len : BitVec 12) :
    rectField (encode (.sel rect len)) = rect ∧ lenField (encode (.sel rect len)) = len := by
  constructor
  · have hrect := rectField_or_fieldAt (op := 0x10000000#32) rfl rect
    rw [encode]
    unfold rectField at *
    rw [BitVec.getLsbD_or, hrect, getLsbD_fieldAt, BitVec.getLsbD_of_ge len _ (by decide)]
    simp
  · refine lowField_or_fieldAt ?_ (by decide) len
    rw [BitVec.extractLsb'_or, extractLsb'_fieldAt_disjoint _ (by decide)]
    rfl

/-- The row of a command's mnemonic reads the command off its word, with every operand
(R308). -/
theorem readRow_encode (i : Instr) : readRow i.mnemonic (encode i) = .command i := by
  cases i with
  | gfadd a b | gfmul a b | gfscl a b =>
    rw [Instr.mnemonic, encode, readRow]
    exact congrArg _ (congrArg₂ _ (aField_formatG rfl a b) (bField_formatG rfl a b))
  | sel rect len =>
    obtain ⟨hrect, hlen⟩ := sel_fields rect len
    rw [Instr.mnemonic, readRow, hrect, hlen]
  | seli idx =>
    exact congrArg (Decoded.command ∘ Instr.seli) (lowField_or_fieldAt rfl (by decide) idx)
  | rsgen e =>
    exact congrArg (Decoded.command ∘ Instr.rsgen) (lowField_or_fieldAt rfl (by decide) e)
  | enc rect => exact congrArg (Decoded.command ∘ Instr.enc) (rectField_or_fieldAt rfl rect)
  | aenc | pad | rsenc | place => rfl

/-- Settles O1: the word of a command matches the row of its mnemonic, which reads it back. -/
theorem decodeOfEncode : Obligations.DecodeOfEncode := by
  unfold Obligations.DecodeOfEncode
  intro i
  obtain ⟨r, hr, hname, hfit⟩ := encode_matches_row i
  rw [decode_of_fits hr ((fits_iff r _).2 hfit), hname, readRow_encode]

/-- What a row reads off a word that matches it is a command with that word: a format has a field
for every bit the row does not fix (R302 to R307). -/
theorem readRow_of_fits {r : OpcodeRow} (hr : r ∈ opcodeTable) {w : Word} (h : r.fits w = true) :
    ∃ i, readRow r.mnemonic w = .command i ∧ encode i = w := by
  rw [fits_iff] at h
  simp only [opcodeTable, List.mem_cons, List.not_mem_nil, or_false] at hr
  rcases hr with rfl | rfl | rfl | rfl | rfl | rfl | rfl | rfl | rfl | rfl | rfl
  · exact ⟨.gfadd (aField w) (bField w), rfl, value_or_fields h (by decide)⟩
  · exact ⟨.gfmul (aField w) (bField w), rfl, value_or_fields h (by decide)⟩
  · exact ⟨.gfscl (aField w) (bField w), rfl, value_or_fields h (by decide)⟩
  · refine ⟨.sel (rectField w) (lenField w), rfl, ?_⟩
    rw [encode, ofBool_rectField]
    exact value_or_fields h (by decide)
  · exact ⟨.seli (idxField w), rfl, value_or_field h (by decide)⟩
  · exact ⟨.aenc, rfl, h.symm.trans BitVec.and_allOnes⟩
  · exact ⟨.pad, rfl, h.symm.trans BitVec.and_allOnes⟩
  · exact ⟨.rsgen (eField w), rfl, value_or_field h (by decide)⟩
  · exact ⟨.rsenc, rfl, h.symm.trans BitVec.and_allOnes⟩
  · exact ⟨.place, rfl, h.symm.trans BitVec.and_allOnes⟩
  · refine ⟨.enc (rectField w), rfl, ?_⟩
    rw [encode, ofBool_rectField]
    exact value_or_field h (by decide)

/-- A word that matches a row is the word of the command it decodes to. -/
theorem decode_command_of_fits {r : OpcodeRow} (hr : r ∈ opcodeTable) {w : Word}
    (h : r.fits w = true) : ∃ i, decode w = .command i ∧ encode i = w := by
  rw [decode_of_fits hr h]
  exact readRow_of_fits hr h

/-- A word is legal exactly when it matches a row (R310). -/
theorem legal_iff_exists_fits (w : Word) :
    (∃ i, decode w = .command i) ↔ ∃ r ∈ opcodeTable, r.fits w = true := by
  constructor
  · rintro ⟨i, hd⟩
    rcases decode_cases w with ⟨r, hr, hfit, -⟩ | ⟨-, hno⟩
    · exact ⟨r, hr, hfit⟩
    · exact Decoded.noConfusion (hd.symm.trans hno)
  · rintro ⟨r, hr, hfit⟩
    obtain ⟨i, hd, -⟩ := decode_command_of_fits hr hfit
    exact ⟨i, hd⟩

/-- Settles O2: the row a legal word matches reads a command with that word. -/
theorem encodeOfDecode : Obligations.EncodeOfDecode := by
  unfold Obligations.EncodeOfDecode
  intro w i hd
  obtain ⟨r, hr, hfit⟩ := (legal_iff_exists_fits w).1 ⟨i, hd⟩
  obtain ⟨j, hj, hw⟩ := decode_command_of_fits hr hfit
  obtain rfl : i = j := Decoded.command.inj (hd.symm.trans hj)
  exact hw

/-- Settles O4: each word evaluated. -/
theorem specWordsDecode : Obligations.SpecWordsDecode := by
  unfold Obligations.SpecWordsDecode
  decide

/-! ### Illegal words -/

/-- A word whose opcode is that of no row is illegal (R310). -/
theorem illegal_of_opField {w : Word} (h : ∀ r ∈ opcodeTable, opField w ≠ opField r.value) :
    decode w = .illegal (illegalReason w) := by
  rcases decode_cases w with ⟨r, hr, hfit, -⟩ | ⟨-, hd⟩
  · exact absurd (opField_of_fits hr hfit) (h r hr)
  · exact hd

end Sys2Proof

namespace Sys2Proof.Machine

/-! ### Turns of the sequencer -/

/-- With nothing pending a turn changes nothing (R702, R754). -/
theorem sequencerTurn_idle {s : State} (hp : s.pending = none) : sequencerTurn s = .next s := by
  rw [sequencerTurn, hp]

/-- A turn completes a pending legal word's command (R702, R703). -/
theorem sequencerTurn_command {s : State} {w : Word} {i : Instr} (hp : s.pending = some w)
    (hd : decode w = .command i) : sequencerTurn s = exec i s := by
  simp only [sequencerTurn, hp, hd]

/-- A turn completes a pending illegal word with ILLEGAL_COMMAND (R712). -/
theorem sequencerTurn_illegal {s : State} {w : Word} {why : IllegalWord} (hp : s.pending = some w)
    (hd : decode w = .illegal why) :
    sequencerTurn s = .next (failed (errorCode .illegalCommand) s) := by
  simp only [sequencerTurn, hp, hd, complete_raise]

/-- Every turn has a next state, whatever is pending (R312). -/
theorem sequencerTurn_safe (s : State) : SafeOutcome (sequencerTurn s) := by
  cases hp : s.pending with
  | none => exact ⟨s, sequencerTurn_idle hp⟩
  | some w =>
    cases hd : decode w with
    | command i => exact ⟨_, (sequencerTurn_command hp hd).trans (exec_eq_complete i s)⟩
    | illegal why => exact ⟨_, sequencerTurn_illegal hp hd⟩

/-- Settles O3: by the row a word matches, and the completion of an illegal word. -/
theorem illegalWordsComplete : Obligations.IllegalWordsComplete := by
  unfold Obligations.IllegalWordsComplete
  refine ⟨fun w => ?_, fun w hop => ⟨_, illegal_of_opField fun r hr heq => hop ?_⟩,
    ⟨_, illegal_of_opField (by decide)⟩, fun w why s hd hp => sequencerTurn_illegal hp hd,
    fun w why s hd => ⟨_, sequencerTurn_illegal rfl hd, rfl⟩⟩
  · rw [legal_iff_exists_fits]
    constructor
    · rintro ⟨r, hr, hfit⟩
      exact ⟨r, hr, hfit, fun r' hr' hfit' => fits_unique hr' hr hfit' hfit⟩
    · rintro ⟨r, hr, hfit, -⟩
      exact ⟨r, hr, hfit⟩
  · rw [heq, ← opcodeTable_opFields]
    exact List.mem_map_of_mem hr

/-! ### Steps -/

/-- A step is the first listed event (R700; log entry 3). -/
theorem step_of_inputs_cons {s : State} {e : HostEvent} {rest : List HostEvent}
    (h : s.inputs = e :: rest) : step s = runEvent e { s with inputs := rest } := by
  simp only [step, h]

/-- With nothing listed a step is a turn of the sequencer (R840; log entry 3). -/
theorem step_of_inputs_nil {s : State} (h : s.inputs = []) : step s = sequencerTurn s := by
  simp only [step, h]

/-- Every event has a next state (R312, R850). -/
theorem runEvent_safe (e : HostEvent) (s : State) : SafeOutcome (runEvent e s) := by
  cases e with
  | access a => exact ⟨hostAccess a s, rfl⟩
  | sequencerTurn => exact sequencerTurn_safe s

theorem step_safe (s : State) : SafeOutcome (step s) := by
  cases hin : s.inputs with
  | nil =>
    rw [step_of_inputs_nil hin]
    exact sequencerTurn_safe s
  | cons e rest =>
    rw [step_of_inputs_cons hin]
    exact runEvent_safe e _

/-- Settles O6: by the first listed event. -/
theorem everyStepIsDefined : Obligations.EveryStepIsDefined := by
  unfold Obligations.EveryStepIsDefined
  refine ⟨step_safe, fun s a rest hin => step_of_inputs_cons hin,
    fun s => ⟨step_of_inputs_nil, fun rest hin => step_of_inputs_cons hin⟩, fun s hp => ⟨?_, ?_⟩⟩
  · exact fun hin => (step_of_inputs_nil hin).trans (sequencerTurn_idle hp)
  · exact fun rest hin => (step_of_inputs_cons hin).trans (sequencerTurn_idle hp)

end Sys2Proof.Machine
end

section
/-! The selector: which row of the opcode map SEL and SELI are read by, which entry SEL finds, and what
either command leaves (R400 to R411). -/

namespace Sys2Proof

/-- A word that matches the row of SEL, with its operands RECT and LEN (R304, R309). -/
theorem decode_sel {w : Word} (h : w &&& 0xFF7FF000#32 = 0x10000000#32) :
    decode w = .command (.sel (rectField w) (lenField w)) :=
  decode_of_fits (r := ⟨"SEL", 0x10000000#32, 0xFF7FF000#32⟩) (by decide) ((fits_iff _ w).2 h)

/-- A word that matches the row of SELI, with its operand IDX (R305, R309). -/
theorem decode_seli {w : Word} (h : w &&& 0xFFFFFFE0#32 = 0x11000000#32) :
    decode w = .command (.seli (idxField w)) :=
  decode_of_fits (r := ⟨"SELI", 0x11000000#32, 0xFFFFFFE0#32⟩) (by decide) ((fits_iff _ w).2 h)

end Sys2Proof

namespace Sys2Proof.Machine

/-! ### The smallest entry -/

/-- There is at most one smallest entry: the lesser of two would be too small for the length. -/
theorem Smallest.unique {rect : Bool} {len : Nat} {n m : Fin Config.nEntries}
    (hn : Smallest rect len n) (hm : Smallest rect len m) : n = m := by
  obtain ⟨hnshape, hnfits, hnleast⟩ := hn
  obtain ⟨hmshape, hmfits, hmleast⟩ := hm
  rcases lt_trichotomy n m with hlt | heq | hgt
  · exact absurd hnfits (hmleast n hnshape hlt).not_ge
  · exact heq
  · exact absurd hmfits (hnleast m hmshape hgt).not_ge

/-- The smallest entry for two lengths is the smallest for every length between them. -/
theorem Smallest.between {rect : Bool} {lo hi len : Nat} {n : Fin Config.nEntries}
    (hlo : Smallest rect lo n) (hhi : Smallest rect hi n) (hge : lo ≤ len) (hle : len ≤ hi) :
    Smallest rect len n := by
  obtain ⟨hshape, -, hleast⟩ := hlo
  obtain ⟨-, hfits, -⟩ := hhi
  exact ⟨hshape, hle.trans hfits, fun m hm hlt => (hleast m hm hlt).trans_le hge⟩

theorem Smallest.le_shapeMax {rect : Bool} {len : Nat} {n : Fin Config.nEntries}
    (h : Smallest rect len n) : len ≤ shapeMax rect := by
  obtain ⟨hshape, hfits, -⟩ := h
  exact hfits.trans (shapeMax_bound rect n ((mem_shapeIndices rect n).2 hshape))

theorem exists_smallest {rect : Bool} {len : Nat} (h : len ≤ shapeMax rect) :
    ∃ n, Smallest rect len n := by
  obtain ⟨n, hn⟩ := Option.isSome_iff_exists.1 ((smallestEntry_isSome rect len).2 h)
  exact ⟨n, smallestEntry_some hn⟩

/-! ### SEL -/

/-- SEL with a length that some entry of the shape holds selects the smallest of them (R400). -/
theorem exec_sel_of_smallest {rect : Bool} {len : BitVec 12} {n : Fin Config.nEntries}
    (h : Smallest rect len.toNat n) (s : State) :
    exec (.sel rect len) s = .next (finished (setSelection n (clearMvalid s))) := by
  rw [exec_eq_complete, runOf, runSel]
  rcases selectByLength_cases rect len.toNat (clearMvalid s) with ⟨-, m, -, hm, hr⟩ | ⟨hlong, -⟩
  · rw [hr, complete_ok, hm.unique h]
  · exact absurd h.le_shapeMax hlong.not_ge

/-- SEL with a length above the shape's largest capacity leaves no selection (R400, R401). -/
theorem exec_sel_of_shapeMax_lt {rect : Bool} {len : BitVec 12} (h : shapeMax rect < len.toNat)
    (s : State) : exec (.sel rect len) s = .next (failed 1#4 (dropSelection (clearMvalid s))) := by
  rw [exec_eq_complete, runOf, runSel]
  rcases selectByLength_cases rect len.toNat (clearMvalid s) with ⟨hfits, -⟩ | ⟨-, hr⟩
  · exact absurd h hfits.not_gt
  · rw [hr, complete_raise]
    rfl

/-- Settles O32: by the row of SEL, and by whether the length is at most the shape's largest
capacity. -/
theorem selOutcome : Obligations.SelOutcome := by
  unfold Obligations.SelOutcome
  refine ⟨fun w => decode_sel, fun rect len s => ⟨fun hfits => ?_, fun hlong => ?_⟩⟩
  · obtain ⟨n, hn⟩ := exists_smallest (rect := rect) hfits
    exact ⟨n, hn, exec_sel_of_smallest hn s⟩
  · exact ⟨⟨0, by decide⟩, rfl, exec_sel_of_shapeMax_lt (rect := rect) hlong s⟩

/-- Settles O33: the entry is the smallest at both ends of a row's lengths, so it is between them; a
refused length is above the shape's largest capacity. -/
theorem selLengthTable : Obligations.SelLengthTable := by
  unfold Obligations.SelLengthTable
  intro row hrow
  have hends : ∃ n : Fin Config.nEntries, n.val = row.2.2.2.1 ∧
      (capEntry n).symRows = row.2.2.2.2.1 ∧ (capEntry n).symCols = row.2.2.2.2.2 ∧
      smallestEntry row.1 row.2.1 = some n ∧ smallestEntry row.1 row.2.2.1 = some n := by
    revert row
    decide
  intro len s hge hle
  obtain ⟨n, hidx, hrows, hcols, hlo, hhi⟩ := hends
  have hn := (smallestEntry_some hlo).between (smallestEntry_some hhi) hge hle
  refine ⟨n, hidx, hrows, hcols, exec_sel_of_smallest hn s, fun long hlong => ?_⟩
  have hmax : shapeMax row.1 < long.toNat := by
    rcases row with ⟨_ | _, _⟩ <;> exact hlong
  exact ⟨_, exec_sel_of_shapeMax_lt hmax s, rfl, rfl⟩

/-! ### SELI -/

/-- Settles O34: by the row of SELI, and by whether the table has an entry of the index. -/
theorem seliOutcome : Obligations.SeliOutcome := by
  unfold Obligations.SeliOutcome
  refine ⟨fun w => decode_seli, fun idx s => ?_⟩
  rw [exec_eq_complete, runOf]
  rcases runSeli_cases idx s with ⟨n, hn, hr⟩ | ⟨hrange, hr⟩ <;> rw [hr]
  · exact ⟨fun _ => ⟨n, hn, rfl⟩, fun hge => absurd (hn ▸ n.isLt) hge.not_gt⟩
  · exact ⟨fun hlt => absurd hlt hrange.not_gt, fun _ => rfl⟩

end Sys2Proof.Machine
end

section
/-! The ASCII encoder: its three rules as equations, the codewords each rule gives, the text read back
from its codewords, and what AENC leaves (R450 to R456). -/

namespace Sys2Proof.Machine

/-! ### The three rules -/

theorem isDigit_iff (c : Byte) : isDigit c = true ↔ 48 ≤ c.toNat ∧ c.toNat ≤ 57 := by
  simp [isDigit]

/-- The extended case comes first, whatever follows the character (R453). -/
theorem asciiCodewords_extended {c : Byte} (h : 127 < c.toNat) (rest : List Byte) :
    asciiCodewords (c :: rest) = 235 :: (c - 127) :: asciiCodewords rest := by
  cases rest with
  | nil => exact if_pos h
  | cons d rest => rw [asciiCodewords, if_pos h]

/-- Two digits make one codeword (R454). -/
theorem asciiCodewords_pair {c d : Byte} (hc : isDigit c = true) (hd : isDigit d = true)
    (rest : List Byte) :
    asciiCodewords (c :: d :: rest) =
      BitVec.ofNat 8 (130 + 10 * (c.toNat - 48) + (d.toNat - 48)) :: asciiCodewords rest := by
  obtain ⟨-, hle⟩ := (isDigit_iff c).1 hc
  rw [asciiCodewords, if_neg (by omega), if_pos (by rw [hc, hd]; rfl)]

/-- Any other character is a codeword of its own (R455). -/
theorem asciiCodewords_single {c : Byte} {rest : List Byte} (h : c.toNat ≤ 127)
    (hpair : ¬ (isDigit c = true ∧ ∃ d tail, rest = d :: tail ∧ isDigit d = true)) :
    asciiCodewords (c :: rest) = (c + 1) :: asciiCodewords rest := by
  cases rest with
  | nil => exact if_neg h.not_gt
  | cons d rest =>
    have hdigits : ¬ (isDigit c && isDigit d) = true := fun hcd => by
      rw [Bool.and_eq_true] at hcd
      exact hpair ⟨hcd.1, d, rest, rfl, hcd.2⟩
    rw [asciiCodewords, if_neg h.not_gt, if_neg hdigits]

/-- The encoder follows the rules: each of its branches is the rule it is named for. -/
theorem asciiRules_asciiCodewords (text : List Byte) : AsciiRules text (asciiCodewords text) := by
  induction text using asciiCodewords.induct with
  | case1 => exact .done
  | case2 c h =>
    rw [asciiCodewords_extended h]
    exact .extended c [] _ h .done
  | case3 c h =>
    rw [asciiCodewords_single (by omega) (by simp)]
    exact .single c [] _ (by omega) (by simp) .done
  | case4 c d rest h ih =>
    rw [asciiCodewords_extended h]
    exact .extended c _ _ h ih
  | case5 c d rest h hdigits ih =>
    obtain ⟨hc, hd⟩ := Bool.and_eq_true_iff.1 hdigits
    rw [asciiCodewords_pair hc hd]
    rw [isDigit_iff] at hc hd
    exact .pair c d _ _ hc.1 hc.2 hd.1 hd.2 ih
  | case6 c d rest h hdigits ih =>
    have hpair : ¬ (isDigit c = true ∧ ∃ d' tail, d :: rest = d' :: tail ∧ isDigit d' = true) := by
      rintro ⟨hc, _, _, ⟨⟩, hd⟩
      exact hdigits (by rw [hc, hd]; rfl)
    rw [asciiCodewords_single (by omega) hpair]
    simp only [isDigit_iff, and_assoc] at hpair
    exact .single c _ _ (by omega) hpair ih

/-- The rules give a text no other codewords than the encoder does. -/
theorem AsciiRules.eq_asciiCodewords {text out : List Byte} (h : AsciiRules text out) :
    out = asciiCodewords text := by
  induction h with
  | done => rfl
  | extended c rest out hc _ ih => rw [asciiCodewords_extended hc, ih]
  | pair c d rest out hc hc' hd hd' _ ih =>
    rw [asciiCodewords_pair ((isDigit_iff c).2 ⟨hc, hc'⟩) ((isDigit_iff d).2 ⟨hd, hd'⟩), ih]
  | single c rest out hc hpair _ ih =>
    rw [asciiCodewords_single hc (by simpa only [isDigit_iff, and_assoc] using hpair), ih]

/-! ### The codewords of each rule -/

/-- The codeword after 235 (R453). -/
theorem extendedCodeword_toNat {c : Byte} (h : 127 < c.toNat) : (c - 127).toNat = c.toNat - 127 := by
  bv_omega

/-- The codeword of two digits (R454). -/
theorem pairCodeword_toNat {c d : Nat} (hc : c ≤ 57) (hd : d ≤ 57) :
    (BitVec.ofNat 8 (130 + 10 * (c - 48) + (d - 48))).toNat = 130 + 10 * (c - 48) + (d - 48) := by
  rw [BitVec.toNat_ofNat]
  omega

/-- The codeword of a single character (R455). -/
theorem singleCodeword_toNat {c : Byte} (h : c.toNat ≤ 127) : (c + 1).toNat = c.toNat + 1 := by
  bv_omega

/-- Settles O36: by the branches of the encoder one way, by the rules the other. -/
theorem asciiCodewordsFollowTheRules : Obligations.AsciiCodewordsFollowTheRules := by
  unfold Obligations.AsciiCodewordsFollowTheRules
  refine ⟨fun text => ⟨asciiRules_asciiCodewords text, fun out h => h.eq_asciiCodewords⟩,
    fun c h => ⟨extendedCodeword_toNat h, ?_⟩, fun c d _ hc _ hd => ⟨by omega, by omega⟩,
    fun c => singleCodeword_toNat⟩
  have := c.isLt
  omega

/-- The codewords the encoder has (R456). -/
def IsAsciiCodeword (c : Byte) : Prop :=
  ((1 ≤ c.toNat ∧ c.toNat ≤ 229) ∨ c.toNat = 235) ∧ c.toNat ≠ 129

/-- The codewords of a rule are 235 and 1 to 128, 130 to 229, or 1 to 128. -/
theorem AsciiRules.isAsciiCodeword {text out : List Byte} (h : AsciiRules text out) :
    ∀ w ∈ out, IsAsciiCodeword w := by
  unfold IsAsciiCodeword
  induction h with
  | done => simp
  | extended c rest out hc _ ih =>
    refine List.forall_mem_cons.2 ⟨by decide, List.forall_mem_cons.2 ⟨?_, ih⟩⟩
    have := c.isLt
    rw [extendedCodeword_toNat hc]
    omega
  | pair c d rest out hc hc' hd hd' _ ih =>
    refine List.forall_mem_cons.2 ⟨?_, ih⟩
    rw [pairCodeword_toNat hc' hd']
    omega
  | single c rest out hc _ _ ih =>
    refine List.forall_mem_cons.2 ⟨?_, ih⟩
    rw [singleCodeword_toNat hc]
    omega

/-- Settles O37: the encoder follows the rules, and each rule's codewords are in range. -/
theorem asciiCodewordRange : Obligations.AsciiCodewordRange := by
  unfold Obligations.AsciiCodewordRange
  exact fun text => (asciiRules_asciiCodewords text).isAsciiCodeword

/-! ### Reading a text back from its codewords -/

/-- The characters of a codeword that is not 235: one character up to 128, two digits from 130. -/
def charsOfCodeword (w : Byte) : List Byte :=
  if w.toNat ≤ 128 then [w - 1]
  else [BitVec.ofNat 8 (48 + (w.toNat - 130) / 10), BitVec.ofNat 8 (48 + (w.toNat - 130) % 10)]

/-- The text with the given codewords: 235 announces an extended character (R453 to R455). -/
def textOfCodewords : List Byte → List Byte
  | [] => []
  | [w] => charsOfCodeword w
  | w :: x :: rest =>
    if w = 235 then (x + 127) :: textOfCodewords rest
    else charsOfCodeword w ++ textOfCodewords (x :: rest)

theorem textOfCodewords_extended (x : Byte) (rest : List Byte) :
    textOfCodewords (235 :: x :: rest) = (x + 127) :: textOfCodewords rest := by
  rw [textOfCodewords, if_pos rfl]

theorem textOfCodewords_cons {w : Byte} (h : w ≠ 235) (rest : List Byte) :
    textOfCodewords (w :: rest) = charsOfCodeword w ++ textOfCodewords rest := by
  cases rest with
  | nil => rw [textOfCodewords, textOfCodewords, List.append_nil]
  | cons x rest => rw [textOfCodewords, if_neg h]

theorem ne_235_of_lt {w : Byte} (h : w.toNat < 235) : w ≠ 235 := by
  bv_omega

theorem charsOfCodeword_single {c : Byte} (h : c.toNat ≤ 127) : charsOfCodeword (c + 1) = [c] := by
  have hw := singleCodeword_toNat h
  rw [charsOfCodeword, if_pos (by omega), BitVec.add_sub_cancel]

theorem charsOfCodeword_pair {c d : Byte} (hc : 48 ≤ c.toNat) (hc' : c.toNat ≤ 57)
    (hd : 48 ≤ d.toNat) (hd' : d.toNat ≤ 57) :
    charsOfCodeword (BitVec.ofNat 8 (130 + 10 * (c.toNat - 48) + (d.toNat - 48))) = [c, d] := by
  have hfirst : 48 + (130 + 10 * (c.toNat - 48) + (d.toNat - 48) - 130) / 10 = c.toNat := by omega
  have hsecond : 48 + (130 + 10 * (c.toNat - 48) + (d.toNat - 48) - 130) % 10 = d.toNat := by omega
  rw [charsOfCodeword, pairCodeword_toNat hc' hd', if_neg (by omega), hfirst, hsecond]
  simp only [BitVec.ofNat_toNat, BitVec.setWidth_eq]

/-- Each rule's codewords read back as the characters it consumed (R451). -/
theorem AsciiRules.textOfCodewords_eq {text out : List Byte} (h : AsciiRules text out) :
    textOfCodewords out = text := by
  induction h with
  | done => rfl
  | extended c rest out _ _ ih => rw [textOfCodewords_extended, BitVec.sub_add_cancel, ih]
  | pair c d rest out hc hc' hd hd' _ ih =>
    have hw := pairCodeword_toNat hc' hd'
    rw [textOfCodewords_cons (ne_235_of_lt (by omega)), charsOfCodeword_pair hc hc' hd hd', ih]
    rfl
  | single c rest out hc _ _ ih =>
    have hw := singleCodeword_toNat hc
    rw [textOfCodewords_cons (ne_235_of_lt (by omega)), charsOfCodeword_single hc, ih]
    rfl

/-- Settles O38: textOfCodewords is a left inverse of the encoder. -/
theorem asciiCodewordsDetermineTheText : Obligations.AsciiCodewordsDetermineTheText := by
  unfold Obligations.AsciiCodewordsDetermineTheText
  exact Function.LeftInverse.injective (g := textOfCodewords)
    fun text => (asciiRules_asciiCodewords text).textOfCodewords_eq

/-! ### AENC -/

/-- A range written from 0 on. -/
theorem Memory.read_writeRange_zero {w : Nat} (m : Memory w) (n : Nat) (f : Nat → BitVec w)
    (j : Nat) :
    Memory.read (Memory.writeRange m 0 n f) j = if j < n then f j else Memory.read m j := by
  simp only [Memory.read_writeRange, Nat.zero_le, true_and, Nat.zero_add]

/-- Settles O35: by AENC's three cases. -/
theorem aencOutcome : Obligations.AencOutcome := by
  unfold Obligations.AencOutcome
  intro s
  rw [exec_eq_complete, runOf, runAenc]
  rcases encodeText_cases (clearMvalid s) with ⟨hlong, hr⟩ | ⟨hlen, hmany, hr⟩ | ⟨hlen, hfits, hr⟩ <;>
    rw [hr]
  · exact ⟨fun h => absurd hlong h.not_gt, fun _ => rfl, fun h => absurd hlong h.not_gt⟩
  · exact ⟨fun _ h => absurd hmany h.not_gt, fun h => absurd h hlen.not_gt,
      fun _ _ => ⟨_, rfl, Memory.read_writeRange_zero _ _ _⟩⟩
  · exact ⟨fun _ _ => ⟨_, rfl, Memory.read_writeRange_zero _ _ _⟩, fun h => absurd h hlen.not_gt,
      fun _ h => absurd h hfits.not_gt⟩

end Sys2Proof.Machine
end

section
/-! Padding: the values of the pad formula, and what PAD leaves (R460 to R466). -/

namespace Sys2Proof.Machine

/-! ### The pad formula -/

/-- The pad value is below 254, so no bit of the formula is lost (R463). -/
theorem padValue_toNat (i : Nat) :
    (padValue i).toNat = (129 + 149 * (i + 1) % 253 + 1) % 254 := by
  rw [padValue, BitVec.toNat_ofNat]
  omega

/-- Every remainder of the formula occurs: 90 is the inverse of 149 modulo 253. -/
theorem exists_padRemainder {x : Nat} (h : x < 253) : ∃ i, 149 * (i + 1) % 253 = x :=
  ⟨90 * x + 252, by omega⟩

/-- The value 129 would need the remainder 253, the value 254 is none modulo 254; every other value
has a remainder below 253 (R465). -/
theorem exists_padValue_iff (v : Byte) :
    (∃ i, padValue i = v) ↔ v.toNat ≤ 253 ∧ v.toNat ≠ 129 := by
  constructor
  · rintro ⟨i, rfl⟩
    rw [padValue_toNat]
    omega
  · rintro ⟨hle, hne⟩
    obtain ⟨i, hi⟩ := exists_padRemainder (x := (v.toNat + 124) % 254) (by omega)
    refine ⟨i, BitVec.eq_of_toNat_eq ?_⟩
    rw [padValue_toNat, hi]
    omega

theorem padValue_eq_zero_iff (i : Nat) : padValue i = 0#8 ↔ 149 * (i + 1) % 253 = 124 := by
  rw [← BitVec.toNat_inj, padValue_toNat, BitVec.toNat_ofNat]
  omega

/-- 149 · 28 has the remainder 124, and 149 is invertible modulo 253 (R466). -/
theorem padRemainder_iff (i : Nat) : 149 * (i + 1) % 253 = 124 ↔ (i + 1) % 253 = 28 := by
  omega

/-- Settles O40: the values by the inverse of 149, the zeros by the one remainder that gives 0. -/
theorem padValueSet : Obligations.PadValueSet := by
  unfold Obligations.PadValueSet
  refine ⟨exists_padValue_iff, fun i => ?_⟩
  have hzero := (padValue_eq_zero_iff i).trans (padRemainder_iff i)
  refine ⟨padValue_eq_zero_iff i, hzero, fun hi => hzero.trans ?_⟩
  simp only [List.mem_cons, List.not_mem_nil, or_false]
  omega

/-! ### PAD -/

/-- Padding fills CW from n to c, and nothing when n = c (R462, R463). -/
theorem read_storePadding_cw {n c : Nat} (h : n ≤ c) (s : State) (j : Nat) :
    Memory.read (storePadding n c s).cw j =
      if n ≤ j ∧ j < c then padCodeword n j else Memory.read s.cw j := by
  have hcw : (storePadding n c s).cw = Memory.writeRange s.cw n (c - n) (padCodeword n) := rfl
  rw [hcw, Memory.read_writeRange, Nat.add_sub_cancel' h]

/-- Settles O39: by PAD's three cases. -/
theorem padOutcome : Obligations.PadOutcome := by
  unfold Obligations.PadOutcome
  refine ⟨rfl, fun s => ?_⟩
  rw [exec_eq_complete, runOf, runPad]
  rcases padSelected_cases (clearMvalid s) with ⟨hv, hr⟩ | ⟨hv, hmany, hr⟩ | ⟨hv, hfits, hr⟩ <;>
    rw [hr]
  · have hsel : s.selv ≠ true := Bool.eq_false_iff.1 hv
    exact ⟨fun _ => rfl, fun h => absurd h hsel, fun h => absurd h hsel⟩
  · have hsel : s.selv ≠ false := Bool.ne_false_iff.2 hv
    exact ⟨fun h => absurd h hsel, fun _ _ => rfl, fun _ h => absurd hmany h.not_gt⟩
  · have hsel : s.selv ≠ false := Bool.ne_false_iff.2 hv
    exact ⟨fun h => absurd h hsel, fun _ h => absurd h hfits.not_gt,
      fun _ _ => ⟨_, rfl, read_storePadding_cw hfits (clearMvalid s)⟩⟩

end Sys2Proof.Machine
end

section
/-! The field GF(256): multiplication by a power of alpha is repeated doubling, from which the field
laws and the agreement of the tables with shift-and-reduce multiplication follow (R130, R499, R531,
R532). -/

namespace Sys2Proof.Machine

/-! ### Doubling -/

theorem twice_zero : twice 0#8 = 0#8 := rfl

/-- Doubling is linear: the shift is, and the reduction is chosen by one bit (R130). -/
theorem twice_xor (a b : Byte) : twice (a ^^^ b) = twice a ^^^ twice b := by
  have hreduce : ∀ p q : Bool, (if p ^^ q then 0x2D#8 else 0#8) =
      (if p then 0x2D#8 else 0#8) ^^^ (if q then 0x2D#8 else 0#8) := by decide
  rw [twice, twice, twice, BitVec.getLsbD_xor, hreduce, BitVec.shiftLeft_xor_distrib]
  ac_rfl

theorem iterate_twice_zero (n : Nat) : twice^[n] 0#8 = 0#8 := Function.iterate_fixed twice_zero n

theorem iterate_twice_xor (n : Nat) (a b : Byte) :
    twice^[n] (a ^^^ b) = twice^[n] a ^^^ twice^[n] b := by
  induction n with
  | zero => rfl
  | succ n ih => simp only [Function.iterate_succ_apply', ih, twice_xor]

/-! ### The powers of alpha -/

/-- ALOG[x+1] is twice ALOG[x], with the exponents modulo 255 (R130). -/
theorem twice_alogAt : ∀ x, x < 255 → twice (alogAt x) = alogAt ((x + 1) % 255) := by
  decide +kernel

theorem alogAt_ne_zero : ∀ x, x < 255 → alogAt x ≠ 0#8 := by
  decide +kernel

/-- ALOG[n mod 255] is 1 doubled n times. -/
theorem alogAt_eq_iterate_twice (n : Nat) : alogAt (n % 255) = twice^[n] 1#8 := by
  induction n with
  | zero => rfl
  | succ n ih =>
    rw [Function.iterate_succ_apply', ← ih, twice_alogAt _ (Nat.mod_lt _ (by decide)),
      Nat.mod_add_mod]

theorem iterate_twice_alogAt (n k : Nat) :
    twice^[n] (alogAt (k % 255)) = alogAt ((k + n) % 255) := by
  rw [alogAt_eq_iterate_twice, alogAt_eq_iterate_twice, ← Function.iterate_add_apply, Nat.add_comm]

/-- An element other than 0 is the power of alpha its logarithm names (R131). -/
theorem alogAt_logAt_mod {a : Byte} (h : a ≠ 0#8) : alogAt ((logAt a.toNat).toNat % 255) = a := by
  have hpos : 1 ≤ a.toNat := Nat.pos_of_ne_zero fun h0 => h (BitVec.eq_of_toNat_eq h0)
  obtain ⟨hle, heq⟩ := alogAt_logAt a.toNat a.isLt hpos
  rw [Nat.mod_eq_of_lt (by omega)]
  exact BitVec.eq_of_toNat_eq heq

/-- Every element is 0 or a power of alpha. -/
theorem eq_zero_or_alogAt (a : Byte) : a = 0#8 ∨ ∃ n, a = alogAt (n % 255) := by
  by_cases h : a = 0#8
  · exact .inl h
  · exact .inr ⟨_, (alogAt_logAt_mod h).symm⟩

/-! ### gf_mul and gf_scl -/

theorem gfMul_comm (a b : Byte) : gfMul a b = gfMul b a := by
  rw [gfMul, gfMul, Nat.add_comm]
  simp only [or_comm]

theorem zero_gfMul (b : Byte) : gfMul 0#8 b = 0#8 := if_pos (.inl rfl)

theorem gfMul_zero (a : Byte) : gfMul a 0#8 = 0#8 := if_pos (.inr rfl)

/-- Operands other than 0 are multiplied by adding their logarithms (R499). -/
theorem gfMul_of_ne_zero {a b : Byte} (ha : a ≠ 0#8) (hb : b ≠ 0#8) :
    gfMul a b = alogAt (((logAt a.toNat).toNat + (logAt b.toNat).toNat) % 255) :=
  if_neg (not_or.2 ⟨ha, hb⟩)

/-- Multiplication by alpha^n is doubling n times: the one fact about gf_mul's tables that the laws
rest on. -/
theorem gfMul_alogAt (a : Byte) (n : Nat) : gfMul a (alogAt (n % 255)) = twice^[n] a := by
  by_cases ha : a = 0#8
  · rw [ha, zero_gfMul, iterate_twice_zero]
  · have hn : n % 255 < 255 := Nat.mod_lt n (by decide)
    calc gfMul a (alogAt (n % 255))
        = alogAt (((logAt a.toNat).toNat + n) % 255) := by
          rw [gfMul_of_ne_zero ha (alogAt_ne_zero _ hn), logAt_alogAt _ hn, Nat.add_mod_mod]
      _ = twice^[n] a := by rw [← iterate_twice_alogAt, alogAt_logAt_mod ha]

theorem gfMul_one (a : Byte) : gfMul a 1#8 = a := gfMul_alogAt a 0

/-- gf_scl is multiplication by a power of alpha (R532): both double b times. -/
theorem gfScl_eq_gfMul (a : Byte) (b : Nat) : gfScl a b = gfMul a (alogAt (b % 255)) := by
  rw [gfMul_alogAt, gfScl]
  split_ifs with ha hb
  · rw [ha]
    exact (iterate_twice_zero b).symm
  · rw [hb]
    rfl
  · rw [← iterate_twice_alogAt, alogAt_logAt_mod ha]

/-- gf_mul is linear in its first operand: doubling is. -/
theorem gfAdd_gfMul (a b c : Byte) : gfMul (gfAdd a b) c = gfAdd (gfMul a c) (gfMul b c) := by
  rcases eq_zero_or_alogAt c with rfl | ⟨n, rfl⟩
  · simp only [gfMul_zero, gfAdd, BitVec.xor_self]
  · simp only [gfMul_alogAt, gfAdd, iterate_twice_xor]

theorem gfMul_gfAdd (a b c : Byte) : gfMul a (gfAdd b c) = gfAdd (gfMul a b) (gfMul a c) := by
  rw [gfMul_comm, gfAdd_gfMul, gfMul_comm b, gfMul_comm c]

/-- Doubling the second operand n times doubles the product n times. -/
theorem gfMul_iterate_twice (a b : Byte) (n : Nat) :
    gfMul a (twice^[n] b) = twice^[n] (gfMul a b) := by
  rw [gfMul_comm, gfMul_comm a]
  rcases eq_zero_or_alogAt a with rfl | ⟨m, rfl⟩
  · simp only [gfMul_zero, iterate_twice_zero]
  · rw [gfMul_alogAt, gfMul_alogAt]
    exact (Function.Commute.refl twice).iterate_iterate m n b

theorem gfMul_assoc (a b c : Byte) : gfMul (gfMul a b) c = gfMul a (gfMul b c) := by
  rcases eq_zero_or_alogAt c with rfl | ⟨n, rfl⟩
  · simp only [gfMul_zero]
  · rw [gfMul_alogAt, gfMul_alogAt, gfMul_iterate_twice]

/-- The inverse R532 names: doubling log a and then 255 - log a times is doubling 255 times. -/
theorem gfMul_inverse {a : Byte} (h : a ≠ 0#8) :
    gfMul a (alogAt ((255 - (logAt a.toNat).toNat) % 255)) = 1#8 := by
  have hlt : (logAt a.toNat).toNat < 256 := (logAt a.toNat).isLt
  calc gfMul a (alogAt ((255 - (logAt a.toNat).toNat) % 255))
      = twice^[255 - (logAt a.toNat).toNat] (alogAt ((logAt a.toNat).toNat % 255)) := by
        rw [gfMul_alogAt, alogAt_logAt_mod h]
    _ = alogAt (255 % 255) := by rw [iterate_twice_alogAt, Nat.add_sub_cancel' (by omega)]

/-- Settles O30: an element is 0 or a power of alpha, and multiplication by alpha^n is doubling n
times, which is linear and commutes with itself. -/
theorem fieldLaws : Obligations.FieldLaws := by
  unfold Obligations.FieldLaws
  exact ⟨fun a b => ⟨BitVec.xor_comm a b, gfMul_comm a b⟩,
    fun a b c => ⟨BitVec.xor_assoc a b c, gfMul_assoc a b c⟩,
    fun a => ⟨BitVec.xor_zero, gfMul_one a⟩, gfMul_gfAdd, fun _ => gfMul_inverse, gfScl_eq_gfMul⟩

/-! ### Shift-and-reduce multiplication -/

theorem productOfBits_zero (n : Nat) (a : Byte) : productOfBits n a 0#8 = 0#8 := by
  induction n generalizing a with
  | zero => rfl
  | succ n ih => rw [productOfBits, twice_zero, ih, ite_self, BitVec.xor_zero]

/-- Doubling the second operand doubles every summand of the product. -/
theorem productOfBits_twice (n : Nat) (a b : Byte) :
    productOfBits n a (twice b) = twice (productOfBits n a b) := by
  induction n generalizing a b with
  | zero => exact twice_zero.symm
  | succ n ih => rw [productOfBits, productOfBits, ih, twice_xor, apply_ite twice, twice_zero]

theorem fieldProduct_one : ∀ a : Byte, fieldProduct a 1#8 = a := by
  decide +kernel

theorem fieldProduct_alogAt (a : Byte) (n : Nat) :
    fieldProduct a (alogAt (n % 255)) = twice^[n] a := by
  have hcommute : Function.Commute (fieldProduct a) twice := productOfBits_twice 8 a
  rw [alogAt_eq_iterate_twice, (hcommute.iterate_right n).eq, fieldProduct_one]

/-- The product by the tables is the product of polynomials modulo 0x12D: both take 0 to 0 and
alpha^n to n doublings (R531). -/
theorem gfMul_eq_fieldProduct (a b : Byte) : gfMul a b = fieldProduct a b := by
  rcases eq_zero_or_alogAt b with rfl | ⟨n, rfl⟩
  · rw [gfMul_zero, fieldProduct, productOfBits_zero]
  · rw [gfMul_alogAt, fieldProduct_alogAt]

end Sys2Proof.Machine
end

section
/-! The GF(256) commands: which row of the opcode map each is read by, and what it leaves (R500,
R510, R520). -/

namespace Sys2Proof

/-- A word that matches the row of GFADD, with its operands A and B (R303, R309). -/
theorem decode_gfadd {w : Word} (h : w &&& 0xFF0000FF#32 = 0x01000000#32) :
    decode w = .command (.gfadd (aField w) (bField w)) :=
  decode_of_fits (r := ⟨"GFADD", 0x01000000#32, 0xFF0000FF#32⟩) (by decide) ((fits_iff _ w).2 h)

/-- A word that matches the row of GFMUL, with its operands A and B (R303, R309). -/
theorem decode_gfmul {w : Word} (h : w &&& 0xFF0000FF#32 = 0x02000000#32) :
    decode w = .command (.gfmul (aField w) (bField w)) :=
  decode_of_fits (r := ⟨"GFMUL", 0x02000000#32, 0xFF0000FF#32⟩) (by decide) ((fits_iff _ w).2 h)

/-- A word that matches the row of GFSCL, with its operands A and B (R303, R309). -/
theorem decode_gfscl {w : Word} (h : w &&& 0xFF0000FF#32 = 0x03000000#32) :
    decode w = .command (.gfscl (aField w) (bField w)) :=
  decode_of_fits (r := ⟨"GFSCL", 0x03000000#32, 0xFF0000FF#32⟩) (by decide) ((fits_iff _ w).2 h)

end Sys2Proof

namespace Sys2Proof.Machine

/-- GFADD writes gf_add of its operands to RESULT and nothing else (R500). -/
theorem exec_gfadd (a b : Byte) (s : State) :
    exec (.gfadd a b) s = .next (finished (setResult (gfAdd a b) s)) := by
  rw [exec_eq_complete, runOf, runGfadd, complete_ok]

/-- GFMUL writes gf_mul of its operands to RESULT and nothing else (R510). -/
theorem exec_gfmul (a b : Byte) (s : State) :
    exec (.gfmul a b) s = .next (finished (setResult (gfMul a b) s)) := by
  rw [exec_eq_complete, runOf, runGfmul, complete_ok]

/-- GFSCL writes gf_scl of its operands to RESULT and nothing else (R520). -/
theorem exec_gfscl (a b : Byte) (s : State) :
    exec (.gfscl a b) s = .next (finished (setResult (gfScl a b.toNat) s)) := by
  rw [exec_eq_complete, runOf, runGfscl, complete_ok]

/-- Settles O29: the two products agree on 0 and on every power of alpha. -/
theorem gfMulIsTheFieldProduct : Obligations.GfMulIsTheFieldProduct := by
  unfold Obligations.GfMulIsTheFieldProduct
  refine ⟨gfMul_eq_fieldProduct, fun a b s => ?_⟩
  rw [exec_gfmul, gfMul_eq_fieldProduct, setResult]

/-- Settles O25: by the row of GFADD and its run. -/
theorem gfaddResult : Obligations.GfaddResult := by
  unfold Obligations.GfaddResult
  exact ⟨fun _ => decode_gfadd, exec_gfadd⟩

/-- Settles O26: by the row of GFMUL and its run. -/
theorem gfmulResult : Obligations.GfmulResult := by
  unfold Obligations.GfmulResult
  exact ⟨fun _ => decode_gfmul, exec_gfmul⟩

/-- Settles O27: by the row of GFSCL and its run; the exponent is 0 when its field is. -/
theorem gfsclResult : Obligations.GfsclResult := by
  unfold Obligations.GfsclResult
  refine ⟨fun _ => decode_gfscl, fun a b s => ?_⟩
  have hexponent : b.toNat = 0 ↔ b = 0#8 := BitVec.toNat_inj (y := 0#8)
  rw [exec_gfscl, gfScl, setResult]
  simp only [hexponent]
  rfl

end Sys2Proof.Machine
end

section
/-! The loop over the cells that RSGEN and RSENC share: what one pass leaves (R550, R560). -/

namespace Sys2Proof.Machine

/-! ### Field elements and lists of coefficients -/

theorem zero_gfAdd (a : Byte) : gfAdd 0#8 a = a := BitVec.zero_xor

theorem gfAdd_zero (a : Byte) : gfAdd a 0#8 = a := BitVec.xor_zero

theorem gfAdd_self (a : Byte) : gfAdd a a = 0#8 := BitVec.xor_self

theorem gfAdd_comm (a b : Byte) : gfAdd a b = gfAdd b a := BitVec.xor_comm a b

theorem gfAdd_cancel (a b : Byte) : gfAdd a (gfAdd b a) = b := by
  rw [gfAdd_comm b, gfAdd, gfAdd, ← BitVec.xor_assoc, BitVec.xor_self, BitVec.zero_xor]

/-- Two lists of as many coefficients, each the same. -/
theorem eq_of_getD {p q : List Byte} (hlen : p.length = q.length)
    (h : ∀ j, j < p.length → p.getD j 0 = q.getD j 0) : p = q := by
  refine List.ext_getElem hlen fun j hp hq => ?_
  rw [← List.getD_eq_getElem p 0 hp, ← List.getD_eq_getElem q 0 hq, h j hp]

theorem getD_set (p : List Byte) {i : Nat} (hi : i < p.length) (v : Byte) (j : Nat) :
    (p.set i v).getD j 0 = if i = j then v else p.getD j 0 := by
  rw [List.getD_eq_getElem?_getD, List.getElem?_set, List.getD_eq_getElem?_getD]
  split_ifs <;> rfl

/-- The coefficients of a sum of polynomials (R499). -/
theorem getD_zipWith_gfAdd {p q : List Byte} (hlen : p.length = q.length) (j : Nat) :
    (List.zipWith gfAdd p q).getD j 0 = gfAdd (p.getD j 0) (q.getD j 0) := by
  simp only [List.getD_eq_getElem?_getD, List.getElem?_zipWith]
  by_cases hj : j < p.length
  · rw [List.getElem?_eq_getElem hj, List.getElem?_eq_getElem (hlen ▸ hj)]
    rfl
  · rw [List.getElem?_eq_none (by omega), List.getElem?_eq_none (by omega)]
    rfl

/-- The coefficients of a multiple of a polynomial. -/
theorem getD_map_gfMul (r : Byte) (p : List Byte) (j : Nat) :
    (p.map (gfMul r)).getD j 0 = gfMul r (p.getD j 0) := by
  have hzero : gfMul r 0 = 0 := gfMul_zero r
  rw [← List.getD_map (f := gfMul r), hzero]

/-! ### One pass over the cells -/

/-- The loop that R550 and R560 share, for j in n-1 downto 0: l[j] <- l[j-1] + f(j, l[j]), with 0 in
the place of l[-1]. -/
def shiftAdd (f : Nat → Byte → Byte) : Nat → List Byte → List Byte
  | 0, l => l
  | n + 1, l => shiftAdd f n (l.set n (gfAdd ((0#8 :: l).getD n 0) (f n (l.getD n 0))))

theorem length_shiftAdd (f : Nat → Byte → Byte) (n : Nat) (l : List Byte) :
    (shiftAdd f n l).length = l.length := by
  induction n generalizing l with
  | zero => rfl
  | succ n ih => rw [shiftAdd, ih, List.length_set]

/-- The loop runs downwards, so every cell is computed from old values. -/
theorem getD_shiftAdd (f : Nat → Byte → Byte) {n : Nat} {l : List Byte} (hn : n ≤ l.length)
    (j : Nat) : (shiftAdd f n l).getD j 0 =
      if j < n then gfAdd ((0#8 :: l).getD j 0) (f j (l.getD j 0)) else l.getD j 0 := by
  induction n generalizing l with
  | zero => rfl
  | succ n ih =>
    rw [shiftAdd, ih (by rw [List.length_set]; omega), ← List.set_cons_succ,
      getD_set _ (by rw [List.length_cons]; omega), getD_set _ hn]
    rcases lt_trichotomy j n with hlt | rfl | hgt
    · rw [if_pos hlt, if_neg (by omega), if_neg (by omega), if_pos (by omega)]
    · rw [if_neg (lt_irrefl j), if_pos rfl, if_pos (Nat.lt_succ_self j)]
    · rw [if_neg (by omega), if_neg (by omega), if_neg (by omega)]

/-- The cell below, which the model reads only for j > 0. -/
theorem getD_cons_zero (l : List Byte) (j : Nat) :
    (0#8 :: l).getD j 0 = if 0 < j then l.getD (j - 1) 0 else 0#8 := by
  cases j <;> rfl

theorem genCells_eq_shiftAdd (i n : Nat) (g : List Byte) :
    genCells i n g = shiftAdd (fun _ v => gfScl v i) n g := by
  induction n generalizing g with
  | zero => rfl
  | succ n ih =>
    have hcell : genCell i n g = g.set n (gfAdd ((0#8 :: g).getD n 0) (gfScl (g.getD n 0) i)) := by
      rw [genCell, getD_cons_zero, gfAdd_comm]
      split_ifs
      · rfl
      · rw [zero_gfAdd]
    rw [genCells, shiftAdd, ih, hcell]

theorem accCells_eq_shiftAdd (gen : Memory 8) (fb : Byte) (n : Nat) (acc : List Byte) :
    accCells gen fb n acc = shiftAdd (fun j _ => gfMul fb (Memory.read gen j)) n acc := by
  induction n generalizing acc with
  | zero => rfl
  | succ n ih =>
    have hzero : (if fb = 0 then 0 else gfMul fb (Memory.read gen n)) =
        gfMul fb (Memory.read gen n) := by
      split_ifs with h
      · rw [h]
        exact (zero_gfMul _).symm
      · rfl
    have hcell : accCell gen fb n acc =
        acc.set n (gfAdd ((0#8 :: acc).getD n 0) (gfMul fb (Memory.read gen n))) := by
      rw [accCell, hzero, getD_cons_zero]
      split_ifs
      · rfl
      · rw [zero_gfAdd]
    rw [accCells, shiftAdd, ih, hcell]

end Sys2Proof.Machine
end

section
/-! The generator polynomial: the loop of R550 multiplies out the factors x + alpha^i, and RSGEN
stores the product (R550 to R553). -/

namespace Sys2Proof.Machine

/-! ### Multiplying by the factors -/

theorem length_timesRoot (p : List Byte) (r : Byte) : (timesRoot p r).length = p.length + 1 := by
  simp [timesRoot]

/-- A coefficient of the product with x + r (R552). -/
theorem getD_timesRoot (p : List Byte) (r : Byte) (j : Nat) :
    (timesRoot p r).getD j 0 = gfAdd ((0#8 :: p).getD j 0) (gfMul r (p.getD j 0)) := by
  have htop : (p.map (gfMul r) ++ [0#8]).getD j 0 = gfMul r (p.getD j 0) := by
    rw [← getD_map_gfMul]
    rcases lt_or_ge j (p.map (gfMul r)).length with hlt | hge
    · exact List.getD_append _ _ _ _ hlt
    · rw [List.getD_append_right _ _ _ _ hge, List.getD_eq_default _ _ hge]
      rcases Nat.eq_zero_or_pos (j - (p.map (gfMul r)).length) with h | h
      · rw [h]
        rfl
      · exact List.getD_eq_default _ _ h
  rw [timesRoot, getD_zipWith_gfAdd (by simp), htop]

theorem length_rootProduct (e : Nat) : (rootProduct e).length = e + 1 := by
  induction e with
  | zero => rfl
  | succ e ih => rw [rootProduct, length_timesRoot, ih]

theorem getD_rootProduct_beyond {e j : Nat} (h : e < j) : (rootProduct e).getD j 0 = 0#8 :=
  List.getD_eq_default _ _ (by rw [length_rootProduct]; omega)

/-- The leading coefficient is 1 (R552). -/
theorem getD_rootProduct_top (e : Nat) : (rootProduct e).getD e 0 = 1#8 := by
  induction e with
  | zero => rfl
  | succ e ih =>
    rw [rootProduct, getD_timesRoot, getD_rootProduct_beyond (Nat.lt_succ_self e), gfMul_zero,
      gfAdd_zero]
    exact ih

theorem length_genPasses (e i : Nat) : (genPasses e i).length = e + 1 := by
  induction i with
  | zero => exact List.length_replicate
  | succ i ih => rw [genPasses, genCells_eq_shiftAdd, length_shiftAdd, ih]

/-- After pass i the cells up to i hold the product of the first i factors, and the ones above are
untouched: the 1 of cell i + 1 is the leading coefficient of the next product (R550, R552). -/
theorem getD_genPasses {e i j : Nat} (hi : i ≤ e) (hj : j ≤ e) :
    (genPasses e i).getD j 0 = if j ≤ i then (rootProduct i).getD j 0 else 1#8 := by
  induction i generalizing j with
  | zero =>
    rw [genPasses, List.getD_replicate _ (by omega)]
    split_ifs with h
    · rw [Nat.le_zero.1 h]
      rfl
    · rfl
  | succ i ih =>
    have hprev : ∀ k, k ≤ i → (genPasses e i).getD k 0 = (rootProduct i).getD k 0 := fun k hk => by
      rw [ih (by omega) (by omega), if_pos hk]
    rw [genPasses, genCells_eq_shiftAdd, getD_shiftAdd _ (by rw [length_genPasses]; omega)]
    rcases lt_trichotomy j (i + 1) with hlt | rfl | hgt
    · rw [if_pos hlt, if_pos hlt.le, rootProduct, getD_timesRoot, gfScl_eq_gfMul,
        hprev j (by omega), gfMul_comm]
      cases j with
      | zero => rfl
      | succ k => exact congrArg (gfAdd · _) (hprev k (by omega))
    · rw [if_neg (lt_irrefl _), if_pos le_rfl, getD_rootProduct_top, ih (by omega) hj,
        if_neg (by omega)]
    · rw [if_neg (by omega), if_neg (by omega), ih (by omega) hj, if_neg (by omega)]

/-- The loop of R550 computes the product of R552. -/
theorem generator_eq_rootProduct (e : Nat) : generator e = rootProduct e := by
  refine eq_of_getD ?_ fun j hj => ?_
  · rw [generator, length_genPasses, length_rootProduct]
  · rw [generator, length_genPasses] at hj
    rw [generator, getD_genPasses le_rfl (by omega), if_pos (by omega)]

/-- Settles O43: each product of R552 is multiplied out. -/
theorem generatorsAsListed : Obligations.GeneratorsAsListed := by
  unfold Obligations.GeneratorsAsListed
  simp only [generator_eq_rootProduct]
  decide +kernel

end Sys2Proof.Machine

namespace Sys2Proof

/-- A word that matches the row of RSGEN, with its operand E (R306, R309). -/
theorem decode_rsgen {w : Word} (h : w &&& 0xFFFFFF00#32 = 0x30000000#32) :
    decode w = .command (.rsgen (eField w)) :=
  decode_of_fits (r := ⟨"RSGEN", 0x30000000#32, 0xFFFFFF00#32⟩) (by decide) ((fits_iff _ w).2 h)

end Sys2Proof

namespace Sys2Proof.Machine

/-! ### RSGEN -/

/-- RSGEN with a degree outside 1 .. 68 raises RANGE_ERROR (R551). -/
theorem exec_rsgen_refused {e : Byte} (h : e.toNat = 0 ∨ Config.eMax < e.toNat) (s : State) :
    exec (.rsgen e) s = .next (failed 5#4 (clearMvalid s)) := by
  rw [exec_eq_complete, runOf, runRsgen]
  rcases buildGenerator_cases e.toNat (clearMvalid s) with ⟨-, hr⟩ | ⟨hpos, hle, -⟩
  · rw [hr, complete_raise]
    rfl
  · omega

/-- RSGEN with a degree in 1 .. 68 stores its generator (R550). -/
theorem exec_rsgen_of_range {e : Byte} (hpos : 1 ≤ e.toNat) (hle : e.toNat ≤ Config.eMax)
    (s : State) :
    exec (.rsgen e) s = .next (finished (storeGenerator e.toNat (clearMvalid s))) := by
  rw [exec_eq_complete, runOf, runRsgen]
  rcases buildGenerator_cases e.toNat (clearMvalid s) with ⟨hrange, -⟩ | ⟨-, -, hr⟩
  · omega
  · rw [hr, complete_ok]

theorem read_storeGenerator_gen (e : Nat) (s : State) (j : Nat) :
    Memory.read (storeGenerator e s).gen j =
      if j ≤ e then (generator e).getD j 0 else Memory.read s.gen j := by
  have hgen : (storeGenerator e s).gen =
    Memory.writeRange s.gen 0 (e + 1) (fun j => (generator e).getD j 0) := rfl
  rw [hgen, Memory.read_writeRange_zero]
  simp only [Nat.lt_succ_iff]

/-- Settles O41: by the row of RSGEN, and by whether the degree is in 1 .. 68. -/
theorem rsgenOutcome : Obligations.RsgenOutcome := by
  unfold Obligations.RsgenOutcome
  refine ⟨fun w => decode_rsgen, fun e s => ⟨fun hrange => ?_, fun hpos hle => ?_⟩⟩
  · exact exec_rsgen_refused (hrange.imp_left fun h => by rw [h]; rfl) s
  · refine ⟨_, ?_, read_storeGenerator_gen e.toNat (clearMvalid s)⟩
    have hdegree : BitVec.ofNat 8 e.toNat = e := BitVec.eq_of_toNat_eq (by simp)
    rw [exec_rsgen_of_range hpos hle, storeGenerator, hdegree]
    rfl

/-- Settles O42: pass i of the loop multiplies by x + alpha^i. -/
theorem generatorIsTheRootProduct : Obligations.GeneratorIsTheRootProduct := by
  unfold Obligations.GeneratorIsTheRootProduct
  refine ⟨fun e _ _ => ⟨generator_eq_rootProduct e, ?_⟩, fun e s hpos hle => ?_⟩
  · rw [generator_eq_rootProduct, length_rootProduct]
  · have hread : ∀ j, j ≤ e.toNat →
        Memory.read (finished (storeGenerator e.toNat (clearMvalid s))).gen j =
          (rootProduct e.toNat).getD j 0 := fun j hj => by
      rw [← generator_eq_rootProduct]
      exact (read_storeGenerator_gen e.toNat (clearMvalid s) j).trans (if_pos hj)
    refine ⟨_, exec_rsgen_of_range hpos hle s, ?_, hread⟩
    rw [hread _ le_rfl, getD_rootProduct_top]

end Sys2Proof.Machine
end

section
/-! RSENC: one step of the accumulator, the data codewords of a block, and what RSENC leaves (R560
to R566). -/

namespace Sys2Proof.Machine

/-! ### The accumulator -/

theorem length_accStep (gen : Memory 8) (e : Nat) (acc : List Byte) (d : Byte) :
    (accStep gen e acc d).length = acc.length := by
  rw [accStep, accCells_eq_shiftAdd, length_shiftAdd]

/-- Every register takes the one below it and the feedback's multiple of its coefficient (R560). -/
theorem getD_accStep {gen : Memory 8} {e : Nat} {acc : List Byte} (hlen : acc.length = e) (d : Byte)
    {j : Nat} (hj : j < e) :
    (accStep gen e acc d).getD j 0 = gfAdd ((0#8 :: acc).getD j 0)
      (gfMul (gfAdd d (acc.getD (e - 1) 0)) (Memory.read gen j)) := by
  rw [accStep, accCells_eq_shiftAdd, getD_shiftAdd _ hlen.ge, if_pos hj]

theorem length_foldl_accStep (gen : Memory 8) (e : Nat) (data acc : List Byte) :
    (data.foldl (accStep gen e) acc).length = acc.length := by
  induction data generalizing acc with
  | nil => rfl
  | cons d data ih => rw [List.foldl_cons, ih, length_accStep]

theorem length_blockAcc (gen cw : Memory 8) (d n e k : Nat) :
    (blockAcc gen cw d n e k).length = e := by
  rw [blockAcc, length_foldl_accStep, List.length_replicate]

/-! ### The data codewords of a block -/

/-- k + iN is below D for i below the rounded-up quotient of D - k by N (R566). -/
theorem lt_blockCount_iff {d n k i : Nat} (hn : 1 ≤ n) :
    i < (d - k + (n - 1)) / n ↔ k + n * i < d := by
  rw [← Nat.succ_le_iff, Nat.le_div_iff_mul_le hn, Nat.succ_mul, Nat.mul_comm i n]
  omega

theorem mem_blockPositions {d n k p : Nat} (hn : 1 ≤ n) (hk : k < n) :
    p ∈ blockPositions d n k ↔ p < d ∧ p % n = k := by
  rw [blockPositions, List.mem_range']
  constructor
  · rintro ⟨i, hi, rfl⟩
    exact ⟨(lt_blockCount_iff hn).1 hi, by rw [Nat.add_mul_mod_self_left, Nat.mod_eq_of_lt hk]⟩
  · rintro ⟨hp, rfl⟩
    refine ⟨p / n, (lt_blockCount_iff hn).2 ?_, (Nat.mod_add_div p n).symm⟩
    rwa [Nat.mod_add_div]

/-- The positions of block k in order: the ones below D that are k modulo N (R560, R566). -/
theorem blockPositions_eq_filter {d n k : Nat} (hn : 1 ≤ n) (hk : k < n) :
    blockPositions d n k = (List.range d).filter (fun p => p % n == k) := by
  have hsorted : ((List.range d).filter (fun p => p % n == k)).SortedLT :=
    (List.pairwise_lt_range.filter _).sortedLT
  refine (List.sortedLT_range' k _ (by omega)).eq_of_mem_iff hsorted fun p => ?_
  rw [List.mem_filter, List.mem_range, beq_iff_eq]
  exact mem_blockPositions hn hk

/-- Settles O45: the loop over the registers reads old values, and the positions of a block are the
ones below D of its residue. -/
theorem accumulatorStep : Obligations.AccumulatorStep := by
  unfold Obligations.AccumulatorStep
  refine ⟨fun gen e acc d hlen _ => ⟨?_, fun j hj => ?_⟩, fun gen cw d n e k hn hk => ?_⟩
  · rw [length_accStep, hlen]
  · rw [getD_accStep hlen d hj, getD_cons_zero]
  · rw [blockAcc, List.foldl_map, blockPositions_eq_filter hn hk]
    rfl

/-! ### RSENC -/

/-- RSENC when one of its three checks fails (R563, R564). -/
theorem exec_rsenc_refused {s : State}
    (h : s.selv = false ∨ s.genE.toNat ≠ (selected s).eBlk ∨
      s.cwCount.toNat ≠ (selected s).dataCw) :
    exec .rsenc s = .next (failed 4#4 (clearMvalid s)) := by
  rw [exec_eq_complete, runOf, runRsenc]
  rcases encodeBlocks_cases (clearMvalid s) with ⟨-, hr⟩ | ⟨hv, he, hc, -⟩
  · rw [hr, complete_raise]
    rfl
  · rcases h with h | h | h
    · exact absurd (h.symm.trans hv) Bool.false_ne_true
    · exact absurd he h
    · exact absurd hc h

/-- RSENC when its three checks pass (R560). -/
theorem exec_rsenc_of_ready {s : State} (hv : s.selv = true)
    (he : s.genE.toNat = (selected s).eBlk) (hc : s.cwCount.toNat = (selected s).dataCw) :
    exec .rsenc s = .next (finished (storeErrorCodewords (clearMvalid s))) := by
  rw [exec_eq_complete, runOf, runRsenc]
  rcases encodeBlocks_cases (clearMvalid s) with ⟨h | h | h, -⟩ | ⟨-, -, -, hr⟩
  · exact absurd (h.symm.trans hv) Bool.false_ne_true
  · exact absurd he h
  · exact absurd hc h
  · rw [hr, complete_ok]

/-- The block sizes of the selected entry (R142). -/
theorem selected_bounds (s : State) : 1 ≤ (selected s).blocks ∧ 1 ≤ (selected s).eBlk ∧
    (selected s).eBlk * (selected s).blocks = (selected s).errCw := by
  obtain ⟨-, -, hblocks, heBlk, -, herrCw, -⟩ := capEntry_bounds s.selIdx
  exact ⟨hblocks, heBlk, herrCw⟩

theorem storeErrorCodewords_cw (s : State) : (storeErrorCodewords s).cw =
    writeBlocks s.gen (selected s).dataCw (selected s).blocks (selected s).eBlk (selected s).blocks
      s.cw := rfl

/-- Error codeword i of block k stands at D + k + iN (R562). -/
theorem read_storeErrorCodewords_error (s : State) {k i : Nat} (hk : k < (selected s).blocks)
    (hi : i < (selected s).eBlk) :
    Memory.read (storeErrorCodewords s).cw ((selected s).dataCw + k + i * (selected s).blocks) =
      (blockAcc s.gen s.cw (selected s).dataCw (selected s).blocks (selected s).eBlk k).getD
        ((selected s).eBlk - 1 - i) 0 := by
  have hn : 1 ≤ (selected s).blocks := by omega
  have hoffset : (selected s).dataCw + k + i * (selected s).blocks - (selected s).dataCw =
      k + i * (selected s).blocks := by omega
  have hblock : (k + i * (selected s).blocks) % (selected s).blocks = k := by
    rw [Nat.add_mul_mod_self_right, Nat.mod_eq_of_lt hk]
  have hindex : (k + i * (selected s).blocks) / (selected s).blocks = i := by
    rw [Nat.add_mul_div_right _ _ hn, Nat.div_eq_of_lt hk, Nat.zero_add]
  rw [storeErrorCodewords_cw, read_writeBlocks _ _ _ _ _ _ hn le_rfl, hoffset, hblock, hindex,
    if_pos ⟨by omega, hk, hi⟩]

/-- RSENC writes CW from the end of the data region to the end of the entry's codewords (R562). -/
theorem read_storeErrorCodewords_frame (s : State) {j : Nat}
    (h : j < (selected s).dataCw ∨ (selected s).total ≤ j) :
    Memory.read (storeErrorCodewords s).cw j = Memory.read s.cw j := by
  obtain ⟨hn, -, herr⟩ := selected_bounds s
  rw [storeErrorCodewords_cw, read_writeBlocks _ _ _ _ _ _ hn le_rfl, if_neg]
  rintro ⟨hge, -, hlt⟩
  rw [Nat.div_lt_iff_lt_mul hn, herr] at hlt
  rw [CapEntry.total] at h
  omega

/-- Settles O44: by the word of RSENC, by whether its three checks pass, and by what its blocks
write. -/
theorem rsencOutcome : Obligations.RsencOutcome := by
  unfold Obligations.RsencOutcome
  refine ⟨rfl, fun s => ⟨exec_rsenc_refused, fun hv he hc => ?_⟩⟩
  exact ⟨_, _, exec_rsenc_of_ready hv he hc,
    fun k i => read_storeErrorCodewords_error (clearMvalid s),
    fun j => read_storeErrorCodewords_frame (clearMvalid s)⟩

end Sys2Proof.Machine
end

section
/-! The syndromes: the data codewords a block has taken, followed by its accumulator, are at every
step a polynomial with the generator's roots (R567). -/

namespace Sys2Proof.Machine

/-! ### Values of polynomials -/

/-- The value at x of the polynomial with these coefficients, lowest first. -/
def valueAt (x : Byte) (p : List Byte) : Byte := evalAt x p.reverse

/-- Horner's rule, on the lowest coefficient. -/
theorem valueAt_cons (x a : Byte) (p : List Byte) :
    valueAt x (a :: p) = gfAdd (gfMul (valueAt x p) x) a := by
  rw [valueAt, List.reverse_cons, evalAt, List.foldl_concat]
  rfl

theorem valueAt_replicate_zero (x : Byte) (n : Nat) : valueAt x (List.replicate n 0#8) = 0#8 := by
  induction n with
  | zero => rfl
  | succ n ih => rw [List.replicate_succ, valueAt_cons, ih, zero_gfMul, gfAdd_zero]

/-- A leading zero does not count. -/
theorem valueAt_concat_zero (x : Byte) (p : List Byte) : valueAt x (p ++ [0#8]) = valueAt x p := by
  rw [valueAt, List.reverse_append, List.reverse_singleton, List.singleton_append, evalAt,
    List.foldl_cons, zero_gfMul, gfAdd_self]
  rfl

/-- Evaluation is additive; the coefficients above the sum count once. -/
theorem valueAt_zipWith_gfAdd_append (x : Byte) {p q : List Byte} (hlen : p.length = q.length)
    (upper : List Byte) : valueAt x (List.zipWith gfAdd p q ++ upper) =
      gfAdd (valueAt x (p ++ upper)) (valueAt x q) := by
  induction p generalizing q with
  | nil =>
    rw [List.length_eq_zero_iff.1 hlen.symm]
    exact (gfAdd_zero _).symm
  | cons a p ih =>
    cases q with
    | nil => exact absurd hlen (Nat.succ_ne_zero _)
    | cons b q =>
      rw [List.zipWith_cons_cons, List.cons_append, List.cons_append, valueAt_cons, valueAt_cons,
        valueAt_cons, ih (Nat.succ.inj hlen), gfAdd_gfMul]
      simp only [gfAdd]
      ac_rfl

theorem valueAt_map_gfMul (x r : Byte) (p : List Byte) :
    valueAt x (p.map (gfMul r)) = gfMul r (valueAt x p) := by
  induction p with
  | nil => exact (gfMul_zero r).symm
  | cons a p ih => rw [List.map_cons, valueAt_cons, valueAt_cons, ih, gfMul_gfAdd, gfMul_assoc]

/-! ### The roots of the generator -/

/-- The value of a product with x + r. -/
theorem valueAt_timesRoot (x r : Byte) (p : List Byte) :
    valueAt x (timesRoot p r) = gfMul (gfAdd x r) (valueAt x p) := by
  have hlen : (0#8 :: p).length = (p.map (gfMul r) ++ [0#8]).length := by simp
  have hsum := valueAt_zipWith_gfAdd_append x hlen []
  rw [List.append_nil, List.append_nil] at hsum
  rw [timesRoot, hsum, valueAt_cons, gfAdd_zero, valueAt_concat_zero, valueAt_map_gfMul,
    gfAdd_gfMul, gfMul_comm x]

/-- alpha^1 to alpha^e are roots of the generator of degree e (R552). -/
theorem valueAt_rootProduct {e i : Nat} (hpos : 1 ≤ i) (hle : i ≤ e) :
    valueAt (alogAt (i % 255)) (rootProduct e) = 0#8 := by
  induction e with
  | zero => omega
  | succ e ih =>
    rw [rootProduct, valueAt_timesRoot]
    rcases Nat.lt_or_eq_of_le hle with hlt | rfl
    · rw [ih (Nat.le_of_lt_succ hlt), gfMul_zero]
    · rw [gfAdd_self, zero_gfMul]

/-! ### The accumulator -/

/-- GEN[0 .. e] holds the generator of degree e. -/
def HoldsGenerator (gen : Memory 8) (e : Nat) : Prop :=
  ∀ j, j ≤ e → Memory.read gen j = (rootProduct e).getD j 0

/-- A multiple of the generator has one coefficient more than the accumulator has registers. -/
theorem length_multiple {e : Nat} {acc : List Byte} (hlen : acc.length = e) (r : Byte) :
    (0#8 :: acc).length = ((rootProduct e).map (gfMul r)).length := by
  rw [List.length_cons, List.length_map, length_rootProduct, hlen]

/-- As polynomials: the next accumulator with the data codeword above it is the old one times x plus
the feedback's multiple of the generator, whose leading 1 cancels the top register (R560). -/
theorem accStep_concat {gen : Memory 8} {e : Nat} {acc : List Byte} (he : 1 ≤ e)
    (hgen : HoldsGenerator gen e) (hlen : acc.length = e) (d : Byte) :
    accStep gen e acc d ++ [d] = List.zipWith gfAdd (0#8 :: acc)
      ((rootProduct e).map (gfMul (gfAdd d (acc.getD (e - 1) 0)))) := by
  have hsum := length_multiple hlen (gfAdd d (acc.getD (e - 1) 0))
  have hstep : (accStep gen e acc d).length = e := by rw [length_accStep, hlen]
  refine eq_of_getD ?_ fun j hj => ?_
  · rw [List.length_append, List.length_singleton, hstep, List.length_zipWith, ← hsum, min_self,
      List.length_cons, hlen]
  · rw [List.length_append, List.length_singleton, hstep] at hj
    rw [getD_zipWith_gfAdd hsum, getD_map_gfMul]
    rcases Nat.lt_or_eq_of_le (Nat.le_of_lt_succ hj) with hlt | rfl
    · rw [List.getD_append _ _ _ _ (by omega), getD_accStep hlen d hlt, hgen j hlt.le]
    · rw [List.getD_append_right _ _ _ _ hstep.le, hstep, Nat.sub_self, getD_rootProduct_top,
        gfMul_one, getD_cons_zero, if_pos (Nat.succ_le_iff.1 he), gfAdd_cancel]
      rfl

/-- One data codeword keeps a root of the generator a root of the codewords taken so far with the
accumulator below them. -/
theorem valueAt_accStep {gen : Memory 8} {e : Nat} {acc : List Byte} {x : Byte} (he : 1 ≤ e)
    (hgen : HoldsGenerator gen e) (hroot : valueAt x (rootProduct e) = 0#8) (hlen : acc.length = e)
    {taken : List Byte} (h : valueAt x (acc ++ taken) = 0#8) (d : Byte) :
    valueAt x (accStep gen e acc d ++ d :: taken) = 0#8 := by
  have hsum := length_multiple hlen (gfAdd d (acc.getD (e - 1) 0))
  rw [List.append_cons, accStep_concat he hgen hlen, valueAt_zipWith_gfAdd_append x hsum,
    List.cons_append, valueAt_cons, h, valueAt_map_gfMul, hroot, zero_gfMul, gfMul_zero, gfAdd_self,
    gfAdd_self]

/-- The data codewords of a block with its accumulator below them have the generator's roots. -/
theorem valueAt_foldl_accStep {gen : Memory 8} {e : Nat} {x : Byte} (he : 1 ≤ e)
    (hgen : HoldsGenerator gen e) (hroot : valueAt x (rootProduct e) = 0#8) (data : List Byte) :
    valueAt x (data.foldl (accStep gen e) (List.replicate e 0) ++ data.reverse) = 0#8 := by
  induction data using List.reverseRecOn with
  | nil =>
    rw [List.foldl_nil, List.reverse_nil, List.append_nil]
    exact valueAt_replicate_zero x e
  | append_singleton data d ih =>
    rw [List.foldl_concat, List.reverse_concat]
    exact valueAt_accStep he hgen hroot
      (by rw [length_foldl_accStep, List.length_replicate]) ih d

/-! ### The blocks in CW -/

/-- After RSENC a block's sequence is its data codewords and its accumulator, top register first
(R560, R567). -/
theorem blockSequence_storeErrorCodewords (s : State) {k : Nat} (hk : k < (selected s).blocks) :
    blockSequence (selected s) (storeErrorCodewords s).cw k =
      (blockPositions (selected s).dataCw (selected s).blocks k).map
        (fun p => Memory.read s.cw p) ++
      (blockAcc s.gen s.cw (selected s).dataCw (selected s).blocks (selected s).eBlk k).reverse := by
  have hn : 1 ≤ (selected s).blocks := by omega
  refine congrArg₂ (· ++ ·) (List.map_congr_left fun p hp => ?_) ?_
  · exact read_storeErrorCodewords_frame s (.inl ((mem_blockPositions hn hk).1 hp).1)
  · have hlen :=
      length_blockAcc s.gen s.cw (selected s).dataCw (selected s).blocks (selected s).eBlk k
    refine eq_of_getD (by simp [hlen]) fun i hi => ?_
    rw [List.length_map, List.length_range] at hi
    rw [List.getD_reverse _ (by omega), hlen, ← read_storeErrorCodewords_error s hk hi,
      List.getD_eq_getElem _ _ (by simpa using hi), List.getElem_map, List.getElem_range]

/-- The invariant of GEN, for the selected entry's degree (R123). -/
theorem GeneratorHeld.holdsGenerator {s : State} (h : GeneratorHeld s)
    (he : s.genE.toNat = (selected s).eBlk) : HoldsGenerator s.gen (selected s).eBlk := by
  obtain ⟨-, hpos, -⟩ := selected_bounds s
  obtain ⟨-, hread⟩ := h
  have hne : s.genE ≠ 0#8 := fun h0 => by
    rw [h0] at he
    exact absurd he.symm (Nat.one_le_iff_ne_zero.1 hpos)
  intro j hj
  rw [hread hne j (he ▸ hj), he, generator_eq_rootProduct]

/-- Settles O46: the accumulator makes a block a multiple of the generator, and RSENC writes it
after the block's data codewords. -/
theorem syndromesAreZero : Obligations.SyndromesAreZero := by
  unfold Obligations.SyndromesAreZero
  intro s hv he hc hheld
  refine ⟨_, exec_rsenc_of_ready hv he hc, fun k i hk hpos hle => ?_⟩
  obtain ⟨-, heBlk, -⟩ := selected_bounds s
  calc evalAt (alogAt (i % 255))
        (blockSequence (selected s) (storeErrorCodewords (clearMvalid s)).cw k)
      = valueAt (alogAt (i % 255))
          (blockAcc s.gen s.cw (selected s).dataCw (selected s).blocks (selected s).eBlk k ++
          ((blockPositions (selected s).dataCw (selected s).blocks k).map
            (fun p => Memory.read s.cw p)).reverse) := by
        rw [valueAt, List.reverse_append, List.reverse_reverse]
        exact congrArg (evalAt _) (blockSequence_storeErrorCodewords (clearMvalid s) hk)
    _ = 0#8 :=
        valueAt_foldl_accStep heBlk (hheld.holdsGenerator he) (valueAt_rootProduct hpos hle) _

end Sys2Proof.Machine
end

section
/-! PLACE: its two outcomes, and the equations that state its traversal in the spec's offsets (R600 to
R615). -/

namespace Sys2Proof.Machine

/-! ### The two outcomes of PLACE -/

/-- PLACE without a selection (R600). -/
theorem exec_place_refused {s : State} (hv : s.selv = false) :
    exec .place s = .next (failed 4#4 (clearMvalid s)) := by
  rw [exec_eq_complete, runOf, runPlace]
  rcases placeSelected_cases (clearMvalid s) with ⟨-, hr⟩ | ⟨hv', -⟩
  · rw [hr, complete_raise]
    rfl
  · exact absurd (hv.symm.trans hv') Bool.false_ne_true

/-- PLACE with an entry selected: the placement it stores uses the entry's T codewords (R622). -/
theorem exec_place_of_selected {s : State} (hv : s.selv = true) :
    ∃ q, placeAll (mappingOf (selected s)) s.cw (clearedPlacer (mappingOf (selected s)) s) = some q ∧
      q.chr = (selected s).total ∧ exec .place s = .next (finished (storePlacement q s)) := by
  rcases placeSelected_cases (clearMvalid s) with ⟨hv', -⟩ | ⟨-, q, hq, hchr, hr⟩
  · exact absurd (hv'.symm.trans hv) Bool.false_ne_true
  · refine ⟨q, hq, hchr, ?_⟩
    rw [exec_eq_complete, runOf, runPlace, hr, complete_ok]
    rfl

/-- The state after a PLACE with an entry selected. -/
theorem exec_place_next {s t : State} (hv : s.selv = true) (h : exec .place s = .next t) :
    ∃ q, placeAll (mappingOf (selected s)) s.cw (clearedPlacer (mappingOf (selected s)) s) = some q ∧
      q.chr = (selected s).total ∧ t = finished (storePlacement q s) := by
  obtain ⟨q, hq, hchr, hexec⟩ := exec_place_of_selected hv
  exact ⟨q, hq, hchr, (Host.Outcome.next.inj (hexec.symm.trans h)).symm⟩

/-- Settles O47: by whether an entry is selected; a placement assigns the whole mapping area and
changes no cell outside it. -/
theorem placeOutcome : Obligations.PlaceOutcome := by
  unfold Obligations.PlaceOutcome
  refine fun s => ⟨exec_place_refused, fun hv => ?_⟩
  obtain ⟨hrows, -, hcols, -, htotal⟩ := mappingOf_bounds s.selIdx
  obtain ⟨q, hq, hchr, hexec⟩ := exec_place_of_selected hv
  refine ⟨q.bm, q.asg, ?_, lt_of_le_of_lt htotal (by decide), ?_, fun j hj => ?_⟩
  · rw [hexec, storePlacement, hchr]
  · rintro j ⟨r, c, hr, hc, rfl⟩
    exact placeAll_allAssigned hq hr hc
  · obtain ⟨hbm, hasg⟩ := placeAll_outside (le_trans (by decide) hrows)
      (le_trans (by decide) hcols) hq hj
    exact ⟨hasg.trans (read_fillArea_outside _ _ hj), hbm.trans (read_fillArea_outside _ _ hj)⟩

/-! ### The traversal, in the spec's offsets -/

/-- The generic pattern is placed at an anchor of the matrix that is not assigned (R600, R610). -/
theorem visit_eq (g : Mapping) (cw : Memory 8) (row col : Int) (p : Placer) :
    visit g cw row col p =
      if InsideMatrix g (row, col) ∧ Memory.read p.asg (gridCell (row, col)) = 0#1 then
        placePattern g cw (utahShape row col) p
      else some p := by
  have hcell : cellIndex row.toNat col.toNat = gridCell (row, col) := gridCell_eq (row, col)
  rw [visit, assigned, hcell]
  refine if_congr ?_ rfl rfl
  rw [Bool.and_eq_true, inMatrix_eq_true, bit_eq_zero_iff, Bool.not_eq_true', beq_eq_false_iff_ne]
  rfl

/-- The anchor chooses among the four corner patterns (R611 to R614). -/
theorem placeCorner_eq (g : Mapping) (cw : Memory 8) (row col : Int) (p : Placer) :
    placeCorner g cw row col p =
      if row = g.rows ∧ col = 0 then placePattern g cw (corner1Shape g.rows g.cols) p
      else if row = g.rows - 2 ∧ col = 0 ∧ g.cols % 4 ≠ 0 then
        placePattern g cw (corner2Shape g.rows g.cols) p
      else if row = g.rows - 2 ∧ col = 0 ∧ g.cols % 8 = 4 then
        placePattern g cw (corner3Shape g.rows g.cols) p
      else if row = g.rows + 4 ∧ col = 2 ∧ g.cols % 8 = 0 then
        placePattern g cw (corner4Shape g.rows g.cols) p
      else some p := by
  rw [placeCorner, cornerShape]
  split_ifs <;> rfl

/-- A step of the up-right pass (R600). -/
theorem upRight_succ (g : Mapping) (cw : Memory 8) (n : Nat) (row col : Int) (p : Placer) :
    upRight g cw (n + 1) row col p = (visit g cw row col p).bind fun q =>
      if 0 ≤ row - 2 ∧ col + 2 < g.cols then upRight g cw n (row - 2) (col + 2) q
      else some (row - 2, col + 2, q) := by
  rw [upRight]
  cases visit g cw row col p <;> rfl

/-- A step of the down-left pass (R600). -/
theorem downLeft_succ (g : Mapping) (cw : Memory 8) (n : Nat) (row col : Int) (p : Placer) :
    downLeft g cw (n + 1) row col p = (visit g cw row col p).bind fun q =>
      if row + 2 < g.rows ∧ 0 ≤ col - 2 then downLeft g cw n (row + 2) (col - 2) q
      else some (row + 2, col - 2, q) := by
  rw [downLeft]
  cases visit g cw row col p <;> rfl

/-- A round of the traversal: a corner pattern and the two passes (R600, R603). -/
theorem traverse_succ (g : Mapping) (cw : Memory 8) (n : Nat) (row col : Int) (p : Placer) :
    Machine.traverse g cw (n + 1) row col p = (placeCorner g cw row col p).bind fun q =>
      (upRight g cw 132 row col q).bind fun u =>
      (downLeft g cw 132 (u.1 + 1) (u.2.1 + 3) u.2.2).bind fun d =>
      if d.1 + 3 < g.rows ∨ d.2.1 + 1 < g.cols then
        Machine.traverse g cw n (d.1 + 3) (d.2.1 + 1) d.2.2
      else some d.2.2 := by
  rw [Machine.traverse, Config.mapStride]
  cases placeCorner g cw row col p with
  | none => rfl
  | some q =>
    simp only [Option.bind_some]
    cases upRight g cw 132 row col q with
    | none => rfl
    | some u =>
      simp only [Option.bind_some]
      cases downLeft g cw 132 (u.1 + 1) (u.2.1 + 3) u.2.2 <;> rfl

/-- The placer the traversal of R600 starts from: the cleared area, with the 2x2 block where the
entry has one (R601, R605). -/
def startPlacer (g : Mapping) (s : State) : Placer :=
  if (g.rows * g.cols) % 8 = 4 then cornerFill g (clearedPlacer g s) else clearedPlacer g s

/-- A placement is the traversal from anchor (4, 0) (R600, R603). -/
theorem traverse_of_placeAll {g : Mapping} {cw : Memory 8} {s : State} {q : Placer}
    (h : placeAll g cw (clearedPlacer g s) = some q) :
    Machine.traverse g cw 132 4 0 (startPlacer g s) = some q := by
  rw [startPlacer]
  simp only [placeAll] at h
  split at h
  · cases h
  · split at h
    · exact ‹Machine.traverse g cw Config.mapStride 4 0 _ = some _›.trans h
    · cases h

theorem startPlacer_traversalStart (n : Fin Config.nEntries) (s : State) :
    TraversalStart (mappingOf (capEntry n)) (startPlacer (mappingOf (capEntry n)) s) := by
  obtain ⟨hrows, -, hcols, hcols', -⟩ := mappingOf_bounds n
  exact placeStart_traversalStart s (le_trans (by decide) hrows) (le_trans (by decide) hcols) hcols'

end Sys2Proof.Machine
end

section
/-! The codeword bit of each cell (R601, R621). Which cells a placement assigns, and by which module of
which codeword, does not depend on the codewords: a plan records where the bit of each cell comes from,
and every step of the traversal leads all the runs that follow one plan to one next plan. -/

namespace Sys2Proof.Machine

/-! ### Plans -/

/-- Where the bit of a cell comes from: the cell is not assigned yet, belongs to the fixed 2x2 block,
or holds module b of codeword k. -/
inductive Origin where
  | free
  | fixed (v : BitVec 1)
  | bit (k b : Nat)
  deriving DecidableEq

/-- The bit a cell of this origin holds. -/
def Origin.value (cw : Memory 8) : Origin → BitVec 1
  | .free => 0#1
  | .fixed v => v
  | .bit k b => BitVec.ofBool ((Memory.read cw k).getLsbD (7 - b))

/-- The origin of every cell, and the index of the next codeword. -/
structure Plan where
  origin : Nat → Origin
  chr : Nat

/-- Cell j belongs to the fixed 2x2 block of an entry that has one, and v is its bit (R605). -/
def FixedCell (g : Mapping) (j : Nat) (v : BitVec 1) : Prop :=
  (g.rows * g.cols) % 8 = 4 ∧
  ∃ r c, (r = g.rows - 1 ∨ r = g.rows - 2) ∧ (c = g.cols - 1 ∨ c = g.cols - 2) ∧
    j = cellIndex r c ∧ (v = 1#1 ↔ (r = g.rows - 1 ↔ c = g.cols - 1))

/-- A plan names bits of the codewords before chr, each for one cell at most, and fixes cells of the
2x2 block only. -/
structure Plan.Sound (g : Mapping) (m : Plan) : Prop where
  range : ∀ {j k b}, m.origin j = .bit k b → k < m.chr ∧ b < 8
  inj : ∀ {j j' k b}, m.origin j = .bit k b → m.origin j' = .bit k b → j = j'
  fixed : ∀ {j v}, InArea g j → m.origin j = .fixed v → FixedCell g j v

/-- The placer is where the plan says: each cell of the mapping area is assigned unless it is free,
and then holds the bit of its origin. -/
def Plan.Followed (g : Mapping) (m : Plan) (cw : Memory 8) (p : Placer) : Prop :=
  p.chr = m.chr ∧
  ∀ j, InArea g j → (Memory.read p.asg j = 0#1 ↔ m.origin j = .free) ∧
    (m.origin j ≠ .free → Memory.read p.bm j = (m.origin j).value cw)

/-! ### The plan of a pattern -/

/-- The first module of the pattern that reaches cell j, if any. -/
def firstModule (g : Mapping) (shape : List (Int × Int)) (j : Nat) : Option Nat :=
  shape.findIdx? fun rc => gridCell (wrapped g rc) == j

theorem firstModuleAt_of_firstModule {g : Mapping} {shape : List (Int × Int)} {j b : Nat}
    (h : firstModule g shape j = some b) : FirstModuleAt g shape j b ∧ b < shape.length := by
  obtain ⟨hb, hat, hbefore⟩ := List.findIdx?_eq_some_iff_getElem.1 h
  refine ⟨⟨by simpa [hb] using hat, fun b' hb' => ?_⟩, hb⟩
  simpa [hb'.trans hb] using hbefore b' hb'

theorem firstModule_eq_none {g : Mapping} {shape : List (Int × Int)} {j : Nat} :
    firstModule g shape j = none ↔ ∀ rc ∈ shape, gridCell (wrapped g rc) ≠ j := by
  simp [firstModule]

/-- The plan after a pattern: the free cells its modules reach take the bits of codeword chr. -/
def Plan.pattern (g : Mapping) (shape : List (Int × Int)) (m : Plan) : Plan where
  origin j :=
    if m.origin j = .free then ((firstModule g shape j).map (Origin.bit m.chr)).getD .free
    else m.origin j
  chr := m.chr + 1

/-- The cells a pattern gives a codeword bit. -/
theorem Plan.pattern_origin_bit {g : Mapping} {shape : List (Int × Int)} {m : Plan} {j k b : Nat}
    (h : (m.pattern g shape).origin j = .bit k b) :
    m.origin j = .bit k b ∨ (k = m.chr ∧ firstModule g shape j = some b) := by
  simp only [Plan.pattern] at h
  split at h
  · cases hfirst : firstModule g shape j with
    | none => simp [hfirst] at h
    | some i =>
      simp only [hfirst, Option.map_some, Option.getD_some, Origin.bit.injEq] at h
      exact .inr ⟨h.1.symm, by rw [h.2]⟩
  · exact .inl h

theorem Plan.pattern_origin_fixed {g : Mapping} {shape : List (Int × Int)} {m : Plan} {j : Nat}
    {v : BitVec 1} (h : (m.pattern g shape).origin j = .fixed v) : m.origin j = .fixed v := by
  simp only [Plan.pattern] at h
  split at h
  · cases hfirst : firstModule g shape j <;> simp [hfirst] at h
  · exact h

/-- One module of one codeword reaches one cell, so a pattern keeps different cells at different
bits. -/
theorem Plan.Sound.pattern {g : Mapping} {m : Plan} (hm : m.Sound g) {shape : List (Int × Int)}
    (hlen : shape.length = 8) : (m.pattern g shape).Sound g where
  range {j k b} h := by
    rcases Plan.pattern_origin_bit h with h | ⟨hk, h⟩
    · exact ⟨Nat.lt_succ_of_lt (hm.range h).1, (hm.range h).2⟩
    · exact ⟨Nat.lt_succ_of_le hk.le, hlen ▸ (firstModuleAt_of_firstModule h).2⟩
  inj {j j' k b} h h' := by
    rcases Plan.pattern_origin_bit h with h | ⟨hk, h⟩ <;>
      rcases Plan.pattern_origin_bit h' with h' | ⟨hk', h'⟩
    · exact hm.inj h h'
    · exact absurd (hm.range h).1 (by omega)
    · exact absurd (hm.range h').1 (by omega)
    · exact Option.some.inj ((firstModuleAt_of_firstModule h).1.1.symm.trans
        (firstModuleAt_of_firstModule h').1.1)
  fixed hj h := hm.fixed hj (Plan.pattern_origin_fixed h)

/-- A pattern takes a placer from its plan to the pattern's plan. -/
theorem Plan.Followed.pattern {g : Mapping} {m : Plan} {cw : Memory 8} {p q : Placer}
    (hp : m.Followed g cw p) {shape : List (Int × Int)} (h : placePattern g cw shape p = some q) :
    (m.pattern g shape).Followed g cw q := by
  obtain ⟨hchr, hcells⟩ := hp
  obtain ⟨hchr', hleaves⟩ := placePattern_leaves h
  refine ⟨by rw [hchr', hchr, Plan.pattern], fun j hj => ?_⟩
  obtain ⟨hasg, hbm⟩ := hcells j hj
  obtain ⟨hfirst, hkeep⟩ := hleaves j
  by_cases hfree : m.origin j = .free
  · simp only [Plan.pattern, if_pos hfree]
    cases hb : firstModule g shape j with
    | none =>
      obtain ⟨-, hasg'⟩ := hkeep (.inr (firstModule_eq_none.1 hb))
      simp [hasg', hasg, hfree]
    | some b =>
      obtain ⟨hbm', hasg'⟩ := hfirst b (firstModuleAt_of_firstModule hb).1 (hasg.2 hfree)
      simp [hasg', hbm', hchr, Origin.value]
  · have hassigned : Memory.read p.asg j = 1#1 :=
      not_not.1 fun h1 => hfree (hasg.1 ((bit_eq_zero_iff _).2 h1))
    obtain ⟨hbm', hasg'⟩ := hkeep (.inl hassigned)
    simp only [Plan.pattern, if_neg hfree, hbm', hasg']
    exact ⟨hasg, hbm⟩

/-! ### Steps that take a plan to a plan -/

/-- The step leads all the runs that follow one plan to one plan. -/
def Uniform (g : Mapping) (f : Memory 8 → Placer → Option Placer) : Prop :=
  ∀ m : Plan, m.Sound g → ∃ m' : Plan, m'.Sound g ∧
    ∀ cw p q, m.Followed g cw p → f cw p = some q → m'.Followed g cw q

/-- The pass leads all the runs that follow one plan to one plan and to one anchor. -/
def UniformPass (g : Mapping) (f : Memory 8 → Placer → Option (Int × Int × Placer)) : Prop :=
  ∀ m : Plan, m.Sound g → ∃ (m' : Plan) (row col : Int), m'.Sound g ∧
    ∀ cw p u, m.Followed g cw p → f cw p = some u →
      u.1 = row ∧ u.2.1 = col ∧ m'.Followed g cw u.2.2

theorem uniform_some (g : Mapping) : Uniform g fun _ p => some p :=
  fun m hm => ⟨m, hm, fun _ _ _ hp h => Option.some.inj h ▸ hp⟩

theorem uniform_placePattern (g : Mapping) {shape : List (Int × Int)} (hlen : shape.length = 8) :
    Uniform g fun cw p => placePattern g cw shape p :=
  fun m hm => ⟨m.pattern g shape, hm.pattern hlen, fun _ _ _ hp h => hp.pattern h⟩

theorem uniform_placeCorner (g : Mapping) (row col : Int) :
    Uniform g fun cw p => placeCorner g cw row col p := by
  simp only [placeCorner_eq]
  split_ifs
  · exact uniform_placePattern g rfl
  · exact uniform_placePattern g rfl
  · exact uniform_placePattern g rfl
  · exact uniform_placePattern g rfl
  · exact uniform_some g

theorem gridCell_inArea {g : Mapping} {rc : Int × Int} (h : InsideMatrix g rc) :
    InArea g (gridCell rc) := by
  obtain ⟨hr0, hr, hc0, hc⟩ := h
  exact ⟨rc.1.toNat, rc.2.toNat, by omega, by omega, rfl⟩

/-- The plan tells whether an anchor's cell is assigned. -/
theorem uniform_visit (g : Mapping) (row col : Int) :
    Uniform g fun cw p => visit g cw row col p := by
  intro m hm
  by_cases h : InsideMatrix g (row, col) ∧ m.origin (gridCell (row, col)) = .free
  · obtain ⟨hin, hfree⟩ := h
    refine ⟨m.pattern g (utahShape row col), hm.pattern rfl, fun cw p q hp hq => ?_⟩
    have hasg := (hp.2 _ (gridCell_inArea hin)).1.2 hfree
    have hvisit := (visit_eq g cw row col p).trans (if_pos ⟨hin, hasg⟩)
    exact hp.pattern (hvisit.symm.trans hq)
  · refine ⟨m, hm, fun cw p q hp hq => ?_⟩
    have hvisit := (visit_eq g cw row col p).trans
      (if_neg fun ⟨hin, hasg⟩ => h ⟨hin, (hp.2 _ (gridCell_inArea hin)).1.1 hasg⟩)
    exact Option.some.inj (hvisit.symm.trans hq) ▸ hp

/-- A step of a pass: a visit, then the rest of the pass or its end. -/
theorem uniformPass_visit {g : Mapping} (row col row' col' : Int) (go : Prop) [Decidable go]
    {rest : Memory 8 → Placer → Option (Int × Int × Placer)} (hrest : UniformPass g rest) :
    UniformPass g fun cw p => (visit g cw row col p).bind fun q =>
      if go then rest cw q else some (row', col', q) := by
  intro m hm
  obtain ⟨m₁, hm₁, hvisit⟩ := uniform_visit g row col m hm
  by_cases hgo : go
  · obtain ⟨m₂, r, c, hm₂, hpass⟩ := hrest m₁ hm₁
    refine ⟨m₂, r, c, hm₂, fun cw p u hp hu => ?_⟩
    obtain ⟨q, hq, hu⟩ := Option.bind_eq_some_iff.1 hu
    rw [if_pos hgo] at hu
    exact hpass cw q u (hvisit cw p q hp hq) hu
  · refine ⟨m₁, row', col', hm₁, fun cw p u hp hu => ?_⟩
    obtain ⟨q, hq, hu⟩ := Option.bind_eq_some_iff.1 hu
    rw [if_neg hgo] at hu
    obtain rfl := Option.some.inj hu
    exact ⟨rfl, rfl, hvisit cw p q hp hq⟩

theorem uniformPass_none (g : Mapping) : UniformPass g fun _ _ => none :=
  fun m hm => ⟨m, 0, 0, hm, fun _ _ _ _ h => nomatch h⟩

theorem uniformPass_upRight (g : Mapping) (n : Nat) (row col : Int) :
    UniformPass g fun cw p => upRight g cw n row col p := by
  induction n generalizing row col with
  | zero => exact uniformPass_none g
  | succ n ih =>
    simp only [upRight_succ]
    exact uniformPass_visit _ _ _ _ _ (ih _ _)

theorem uniformPass_downLeft (g : Mapping) (n : Nat) (row col : Int) :
    UniformPass g fun cw p => downLeft g cw n row col p := by
  induction n generalizing row col with
  | zero => exact uniformPass_none g
  | succ n ih =>
    simp only [downLeft_succ]
    exact uniformPass_visit _ _ _ _ _ (ih _ _)

/-- The traversal is uniform: the anchors and the cells assigned are the same in every run. -/
theorem uniform_traverse (g : Mapping) (n : Nat) (row col : Int) :
    Uniform g fun cw p => Machine.traverse g cw n row col p := by
  induction n generalizing row col with
  | zero => exact fun m hm => ⟨m, hm, fun _ _ _ _ h => nomatch h⟩
  | succ n ih =>
    intro m hm
    obtain ⟨m₀, hm₀, hcorner⟩ := uniform_placeCorner g row col m hm
    obtain ⟨m₁, r₁, c₁, hm₁, hup⟩ := uniformPass_upRight g 132 row col m₀ hm₀
    obtain ⟨m₂, r₂, c₂, hm₂, hdown⟩ := uniformPass_downLeft g 132 (r₁ + 1) (c₁ + 3) m₁ hm₁
    have hround : Uniform g fun cw p => if r₂ + 3 < g.rows ∨ c₂ + 1 < g.cols then
        Machine.traverse g cw n (r₂ + 3) (c₂ + 1) p else some p := by
      split_ifs
      · exact ih _ _
      · exact uniform_some g
    obtain ⟨m₃, hm₃, hrest⟩ := hround m₂ hm₂
    refine ⟨m₃, hm₃, fun cw p q hp hq => ?_⟩
    simp only [traverse_succ, Option.bind_eq_some_iff] at hq
    obtain ⟨p₀, hp₀, u, hu, d, hd, hq⟩ := hq
    obtain ⟨hr₁, hc₁, hf₁⟩ := hup cw p₀ u (hcorner cw p p₀ hp hp₀) hu
    rw [hr₁, hc₁] at hd
    obtain ⟨hr₂, hc₂, hf₂⟩ := hdown cw u.2.2 d hf₁ hd
    rw [hr₂, hc₂] at hq
    exact hrest cw d.2.2 q hf₂ hq

/-! ### The plan of an entry -/

/-- The plan of the traversal's start: the 2x2 block is fixed where an entry has one, every other
cell is free (R601, R605). -/
def startPlan (g : Mapping) : Plan where
  origin j :=
    if (g.rows * g.cols) % 8 = 4 ∧ g.rows ≤ j / Config.mapStride + 2 ∧
        g.cols ≤ j % Config.mapStride + 2 then
      .fixed (if j / Config.mapStride + 1 = g.rows ↔ j % Config.mapStride + 1 = g.cols then 1#1
        else 0#1)
    else .free
  chr := 0

theorem cellIndex_div {r c : Nat} (hc : c < Config.mapStride) :
    cellIndex r c / Config.mapStride = r := by
  simp only [cellIndex, Config.mapStride] at *
  omega

theorem cellIndex_mod {r c : Nat} (hc : c < Config.mapStride) :
    cellIndex r c % Config.mapStride = c := by
  simp only [cellIndex, Config.mapStride] at *
  omega

theorem startPlan_ne_bit (g : Mapping) (j k b : Nat) : (startPlan g).origin j ≠ .bit k b := by
  simp only [startPlan]
  split <;> exact fun h => nomatch h

theorem startPlan_sound {g : Mapping} (hcols : g.cols ≤ Config.mapStride) :
    (startPlan g).Sound g where
  range h := absurd h (startPlan_ne_bit g _ _ _)
  inj h := absurd h (startPlan_ne_bit g _ _ _)
  fixed := by
    rintro j v ⟨r, c, hr, hc, rfl⟩ h
    have hc' : c < Config.mapStride := by omega
    simp only [startPlan, cellIndex_div hc', cellIndex_mod hc'] at h
    split at h
    · rename_i hblock
      obtain ⟨hmod, hr2, hc2⟩ := hblock
      have hlast : ((r = g.rows - 1) ↔ (c = g.cols - 1)) ↔ ((r + 1 = g.rows) ↔ (c + 1 = g.cols)) := by
        omega
      obtain rfl := Origin.fixed.inj h
      refine ⟨hmod, r, c, by omega, by omega, rfl, ?_⟩
      rw [hlast]
      split <;> simp [*]
    · cases h

theorem startPlan_followed {g : Mapping} (hcols : g.cols ≤ Config.mapStride) {p : Placer}
    (hp : TraversalStart g p) (cw : Memory 8) : (startPlan g).Followed g cw p := by
  obtain ⟨hchr, hcells⟩ := hp
  refine ⟨hchr, ?_⟩
  rintro j ⟨r, c, hr, hc, rfl⟩
  have hc' : c < Config.mapStride := by omega
  have hcell := hcells r c hr hc
  simp only [startPlan, cellIndex_div hc', cellIndex_mod hc']
  split at hcell
  · obtain ⟨hasg, hbm⟩ := hcell
    rw [if_pos ‹_›, hasg]
    simp only [Origin.value, ← hbm]
    refine ⟨by simp, fun _ => ?_⟩
    split
    · assumption
    · exact (bit_eq_zero_iff _).2 ‹_›
  · obtain ⟨hasg, -⟩ := hcell
    rw [if_neg ‹_›, hasg]
    simp

/-- Every entry has one plan, which all its placements follow, and which leaves no cell free. -/
theorem exists_plan (n : Fin Config.nEntries) : ∃ m : Plan,
    m.Sound (mappingOf (capEntry n)) ∧ m.chr = (capEntry n).total ∧
    (∀ j, InMapping n j → m.origin j ≠ .free) ∧
    ∀ (cw : Memory 8) (s : State) (q : Placer),
      placeAll (mappingOf (capEntry n)) cw (clearedPlacer (mappingOf (capEntry n)) s) = some q →
      m.Followed (mappingOf (capEntry n)) cw q := by
  obtain ⟨-, -, -, hcols, -⟩ := mappingOf_bounds n
  obtain ⟨m, hm, hruns⟩ :=
    uniform_traverse (mappingOf (capEntry n)) 132 4 0 _ (startPlan_sound hcols)
  have hfollowed : ∀ (cw : Memory 8) (s : State) (q : Placer),
      placeAll (mappingOf (capEntry n)) cw (clearedPlacer (mappingOf (capEntry n)) s) = some q →
      m.Followed (mappingOf (capEntry n)) cw q := fun cw s q hq =>
    hruns cw _ q (startPlan_followed hcols (startPlacer_traversalStart n s) cw)
      (traverse_of_placeAll hq)
  obtain ⟨q, hq, hchr⟩ := placeAll_succeeds n [] State.reset
  obtain ⟨hchr', hcells⟩ := hfollowed _ _ q hq
  refine ⟨m, hm, hchr'.symm.trans hchr, fun j hj hfree => ?_, hfollowed⟩
  have hzero := (hcells j hj).1.2 hfree
  obtain ⟨r, c, hr, hc, rfl⟩ := hj
  exact (bit_eq_zero_iff _).1 hzero (placeAll_allAssigned hq hr hc)

/-! ### What the plan says of PLACE -/

/-- Settles O48: both placements follow the entry's plan, which names codewords below T only. -/
theorem placementDependsOnCodewordsAlone : Obligations.PlacementDependsOnCodewordsAlone := by
  unfold Obligations.PlacementDependsOnCodewordsAlone
  intro s s' t t' hv hv' hidx hcw ht ht'
  have hsel : selected s' = selected s := congrArg capEntry hidx.symm
  obtain ⟨q, hq, hchr, rfl⟩ := exec_place_next hv ht
  obtain ⟨q', hq', hchr', rfl⟩ := exec_place_next hv' ht'
  rw [hsel] at hq' hchr'
  obtain ⟨m, hm, hmchr, hassigned, hfollowed⟩ := exists_plan s.selIdx
  obtain ⟨-, hcells⟩ := hfollowed _ _ _ hq
  obtain ⟨-, hcells'⟩ := hfollowed _ _ _ hq'
  refine ⟨congrArg (BitVec.ofNat 12) (hchr.trans hchr'.symm), rfl, fun j hj => ⟨?_, ?_⟩⟩
  · have hvalue : (m.origin j).value s.cw = (m.origin j).value s'.cw := by
      cases ho : m.origin j with
      | free | fixed => rfl
      | bit k b => rw [Origin.value, Origin.value, hcw k (hmchr ▸ (hm.range ho).1)]
    exact ((hcells j hj).2 (hassigned j hj)).trans
      (hvalue.trans ((hcells' j hj).2 (hassigned j hj)).symm)
  · obtain ⟨r, c, hr, hc, rfl⟩ := hj
    exact (placeAll_allAssigned hq hr hc).trans (placeAll_allAssigned hq' hr hc).symm

/-- The codeword bit an origin names. -/
def Origin.source : Origin → Option (Nat × Nat)
  | .bit k b => some (k, b)
  | .free | .fixed _ => none

theorem Origin.source_eq_some {o : Origin} {k b : Nat} : o.source = some (k, b) ↔ o = .bit k b := by
  cases o <;> simp [Origin.source]

/-- The entry's plan is its map from cells to codeword bits (R602, R605, R608). -/
theorem exists_source (n : Fin Config.nEntries) : ∃ source : Nat → Option (Nat × Nat),
    (∀ j k b, source j = some (k, b) → k < (capEntry n).total ∧ b < 8) ∧
    (∀ j j' kb, InMapping n j → InMapping n j' → source j = some kb → source j' = some kb → j = j') ∧
    ∀ s t : State, s.selv = true → s.selIdx = n → exec .place s = .next t → ∀ j, InMapping n j →
      (∀ k b, source j = some (k, b) →
        Memory.read t.bm j = BitVec.ofBool ((Memory.read s.cw k).getLsbD (7 - b))) ∧
      (source j = none → FixedCell (mappingOf (capEntry n)) j (Memory.read t.bm j)) := by
  obtain ⟨m, hm, hmchr, hassigned, hfollowed⟩ := exists_plan n
  refine ⟨fun j => (m.origin j).source, fun j k b h => hmchr ▸ hm.range (Origin.source_eq_some.1 h),
    fun j j' kb _ _ h h' => hm.inj (Origin.source_eq_some.1 h) (Origin.source_eq_some.1 h'), ?_⟩
  rintro s t hv rfl ht j hj
  obtain ⟨q, hq, -, rfl⟩ := exec_place_next hv ht
  obtain ⟨-, hcells⟩ := hfollowed _ _ _ hq
  have hbm : Memory.read q.bm j = (m.origin j).value s.cw := (hcells j hj).2 (hassigned j hj)
  refine ⟨fun k b h => ?_, fun h => ?_⟩
  · rwa [Origin.source_eq_some.1 h] at hbm
  · cases ho : m.origin j with
    | free => exact absurd ho (hassigned j hj)
    | bit k b => simp [ho, Origin.source] at h
    | fixed v =>
      rw [ho] at hbm
      exact hbm ▸ hm.fixed hj ho

/-- Settles O49: by the entry's plan, the laws of a pattern, and the equations of the traversal. -/
theorem placementIsACodewordBitMap : Obligations.PlacementIsACodewordBitMap := by
  unfold Obligations.PlacementIsACodewordBitMap
  refine ⟨exists_source, fun _ _ _ _ => ⟨fun _ => placePattern_leaves, placePattern_eq_none⟩,
    fun g cw row col p => ⟨visit_eq g cw row col p, placeCorner_eq g cw row col p⟩,
    fun g cw n row col p => ⟨upRight_succ g cw n row col p, downLeft_succ g cw n row col p,
      traverse_succ g cw n row col p⟩, fun s t hv ht => ?_⟩
  obtain ⟨q, hq, -, rfl⟩ := exec_place_next hv ht
  exact ⟨startPlacer _ s, q, startPlacer_traversalStart s.selIdx s, traverse_of_placeAll hq,
    rfl, rfl, rfl⟩

end Sys2Proof.Machine
end

section
/-! The four outcomes of ENC, of which the last is that of PLACE from the state the steps before it
leave (R650, R652, R654). -/

namespace Sys2Proof.Machine

/-- No shape has an entry that holds more codewords than the buffer's limit (R140). -/
theorem shapeMax_le_dataMax (rect : Bool) : shapeMax rect ≤ Config.dataMax := by
  cases rect <;> decide

/-- ENC with TXT_LEN out of range (R654). -/
theorem exec_enc_of_txtLen {s : State} (h : Config.txtDepth < s.txtLen.toNat) (rect : Bool) :
    exec (.enc rect) s = .next (failed 5#4 (clearMvalid s)) := by
  rw [exec_eq_complete, runOf]
  rcases runEnc_cases rect s with ⟨-, hr⟩ | ⟨hlen, -⟩ | ⟨hlen, -⟩ | ⟨hlen, -⟩
  · rw [hr, complete_raise]
    rfl
  all_goals exact absurd h hlen.not_gt

/-- ENC of more than DATA_MAX codewords fails in its AENC step (R452, R654). -/
theorem exec_enc_of_overflow {s : State} (hlen : s.txtLen.toNat ≤ Config.txtDepth)
    (h : Config.dataMax < (textCodewords s).length) (rect : Bool) :
    exec (.enc rect) s = .next (failed 1#4 (overflowCodewords (clearMvalid s))) := by
  rw [exec_eq_complete, runOf]
  rcases runEnc_cases rect s with ⟨hlong, -⟩ | ⟨-, -, hr⟩ | ⟨-, hfits, -⟩ | ⟨-, hfits, -⟩
  · exact absurd hlong hlen.not_gt
  · rw [hr, complete_raise]
    rfl
  · exact absurd h hfits.not_gt
  · exact absurd h (hfits.trans (shapeMax_le_dataMax rect)).not_gt

/-- ENC of more codewords than the shape holds fails in its SEL step (R401, R654). -/
theorem exec_enc_of_noEntry {rect : Bool} {s : State} (hlen : s.txtLen.toNat ≤ Config.txtDepth)
    (hfits : (textCodewords s).length ≤ Config.dataMax)
    (h : shapeMax rect < (textCodewords s).length) :
    exec (.enc rect) s = .next (failed 1#4
      (dropSelection (storeCodewords (textCodewords s) (clearMvalid s)))) := by
  rw [exec_eq_complete, runOf]
  rcases runEnc_cases rect s with ⟨hlong, -⟩ | ⟨-, hmany, -⟩ | ⟨-, -, -, hr⟩ | ⟨-, hshape, -⟩
  · exact absurd hlong hlen.not_gt
  · exact absurd hmany hfits.not_gt
  · rw [hr, complete_raise]
    rfl
  · exact absurd h hshape.not_gt

theorem Smallest.fits {rect : Bool} {len : Nat} {n : Fin Config.nEntries}
    (h : Smallest rect len n) : len ≤ (capEntry n).dataCw := by
  obtain ⟨-, hfits, -⟩ := h
  exact hfits

theorem selected_encodedState (n : Fin Config.nEntries) (s : State) :
    selected (encodedState n s) = capEntry n := rfl

/-- The steps before PLACE leave BM and ASG alone (R650). -/
theorem clearedPlacer_encodedState (g : Mapping) (n : Fin Config.nEntries) (s : State) :
    clearedPlacer g (encodedState n s) = clearedPlacer g s := by
  simp only [clearedPlacer, encodedState_fields]

/-- ENC of a text that fits the shape ends as PLACE does from the state its other steps leave (R650,
R652). -/
theorem exec_enc_of_fits {rect : Bool} {s : State} (hlen : s.txtLen.toNat ≤ Config.txtDepth)
    (h : (textCodewords s).length ≤ shapeMax rect) :
    ∃ n t, Smallest rect (textCodewords s).length n ∧ exec (.enc rect) s = .next t ∧
      exec .place (encodedState n s) = .next t := by
  have hfits := h.trans (shapeMax_le_dataMax rect)
  rcases runEnc_cases rect s with
    ⟨hlong, -⟩ | ⟨-, hmany, -⟩ | ⟨-, -, hmany, -⟩ | ⟨-, -, n, p, hn, hp, -, hr⟩
  · exact absurd hlong hlen.not_gt
  · exact absurd hmany hfits.not_gt
  · exact absurd hmany h.not_gt
  · obtain ⟨q, hq, -, hplace⟩ := exec_place_of_selected (s := encodedState n s) rfl
    rw [selected_encodedState, clearedPlacer_encodedState] at hq
    obtain rfl : q = p := Option.some.inj (hq.symm.trans hp)
    refine ⟨n, _, hn, ?_, hplace⟩
    rw [exec_eq_complete, runOf, hr, complete_ok]

/-- Settles O51: by the three failing outcomes of ENC. -/
theorem encFailures : Obligations.EncFailures := by
  unfold Obligations.EncFailures
  refine fun rect s => ⟨fun hlong => exec_enc_of_txtLen hlong rect, fun hlen hmany => ?_,
    fun hlen hmany hfits => ?_⟩
  · exact ⟨_, exec_enc_of_overflow hlen hmany rect, Memory.read_writeRange_zero _ _ _⟩
  · exact ⟨_, _, rfl, exec_enc_of_noEntry (rect := rect) hlen hfits hmany,
      Memory.read_writeRange_zero _ _ _⟩

end Sys2Proof.Machine
end

section
/-! What a successful ENC leaves: the data and error codewords in CW, the generator in GEN, and in
BM and ASG the placement of these codewords (R650, R653). -/

namespace Sys2Proof.Machine

/-! ### CW and GEN -/

/-- The data codeword at position j: the text's codewords, then the padding (R450, R460). -/
def dataCodeword (codewords : List Byte) (j : Nat) : Byte :=
  if j < codewords.length then codewords.getD j 0 else padCodeword codewords.length j

/-- The state in which ENC's RSENC step begins, entry n selected (R650). -/
def dataState (n : Fin Config.nEntries) (s : State) : State :=
  storeGenerator (capEntry n).eBlk (storePadding (textCodewords s).length (capEntry n).dataCw
    (setSelection n (storeCodewords (textCodewords s) (clearMvalid s))))

theorem encodedState_eq (n : Fin Config.nEntries) (s : State) :
    encodedState n s = storeErrorCodewords (dataState n s) := rfl

theorem read_dataState_cw {n : Fin Config.nEntries} {s : State}
    (h : (textCodewords s).length ≤ (capEntry n).dataCw) (j : Nat) :
    Memory.read (dataState n s).cw j =
      if j < (capEntry n).dataCw then dataCodeword (textCodewords s) j else Memory.read s.cw j := by
  have hcw : (dataState n s).cw = (storePadding (textCodewords s).length (capEntry n).dataCw
    (storeCodewords (textCodewords s) s)).cw := rfl
  have hcodewords : (storeCodewords (textCodewords s) s).cw = Memory.writeRange s.cw 0
    (textCodewords s).length (fun i => (textCodewords s).getD i 0) := rfl
  rw [hcw, read_storePadding_cw h, hcodewords, Memory.read_writeRange_zero, dataCodeword]
  by_cases htext : j < (textCodewords s).length
  · rw [if_neg (by omega), if_pos htext, if_pos (by omega), if_pos htext]
  · simp only [if_neg htext, Nat.not_lt.1 htext, true_and]

theorem read_encodedState_data {n : Fin Config.nEntries} {s : State}
    (h : (textCodewords s).length ≤ (capEntry n).dataCw) {j : Nat} (hj : j < (capEntry n).dataCw) :
    Memory.read (encodedState n s).cw j = dataCodeword (textCodewords s) j := by
  rw [encodedState_eq, read_storeErrorCodewords_frame _ (.inl hj), read_dataState_cw h, if_pos hj]

theorem read_encodedState_beyond {n : Fin Config.nEntries} {s : State}
    (h : (textCodewords s).length ≤ (capEntry n).dataCw) {j : Nat} (hj : (capEntry n).total ≤ j) :
    Memory.read (encodedState n s).cw j = Memory.read s.cw j := by
  have hge : (capEntry n).dataCw ≤ j := le_trans (Nat.le_add_right _ _) hj
  rw [encodedState_eq, read_storeErrorCodewords_frame _ (.inr hj), read_dataState_cw h,
    if_neg hge.not_gt]

theorem read_encodedState_gen (n : Fin Config.nEntries) (s : State) (j : Nat) :
    Memory.read (encodedState n s).gen j =
      if j ≤ (capEntry n).eBlk then (generator (capEntry n).eBlk).getD j 0
      else Memory.read s.gen j :=
  read_storeGenerator_gen (capEntry n).eBlk _ j

/-- RSENC leaves the data codewords it reads, so its error codewords are those of the CW and GEN it
leaves (R561, R562). -/
theorem blockAcc_storeErrorCodewords (s : State) (k : Nat) :
    blockAcc (storeErrorCodewords s).gen (storeErrorCodewords s).cw (selected s).dataCw
        (selected s).blocks (selected s).eBlk k =
      blockAcc s.gen s.cw (selected s).dataCw (selected s).blocks (selected s).eBlk k :=
  blockAcc_congr (selected_bounds s).1 fun _ hp => read_storeErrorCodewords_frame s (.inl hp)

theorem read_encodedState_error (n : Fin Config.nEntries) (s : State) {k i : Nat}
    (hk : k < (capEntry n).blocks) (hi : i < (capEntry n).eBlk) :
    Memory.read (encodedState n s).cw ((capEntry n).dataCw + k + i * (capEntry n).blocks) =
      (blockAcc (encodedState n s).gen (encodedState n s).cw (capEntry n).dataCw
        (capEntry n).blocks (capEntry n).eBlk k).getD ((capEntry n).eBlk - 1 - i) 0 :=
  (read_storeErrorCodewords_error (dataState n s) hk hi).trans
    (congrArg (fun acc : List Byte => acc.getD _ 0)
      (blockAcc_storeErrorCodewords (dataState n s) k).symm)

/-! ### The placement -/

/-- What t holds after PLACE from s with an entry selected: its result, and everything else as it
was (R600, R622). -/
structure Placed (s t : State) : Prop where
  eq_finished : t = finished { s with
    bm := t.bm, asg := t.asg, placeUsed := BitVec.ofNat 12 (selected s).total, mvalid := true }
  err : t.err = s.err
  errCode : t.errCode = s.errCode
  selIdx : t.selIdx = s.selIdx
  cwCount : t.cwCount = s.cwCount
  genE : t.genE = s.genE
  cw : t.cw = s.cw
  gen : t.gen = s.gen
  acc : t.acc = s.acc
  assigned : ∀ j, InMapping s.selIdx j → Memory.read t.asg j = 1#1
  outside : ∀ j, ¬ InMapping s.selIdx j →
    Memory.read t.asg j = Memory.read s.asg j ∧ Memory.read t.bm j = Memory.read s.bm j

theorem placed_of_exec {s t : State} (hv : s.selv = true) (h : exec .place s = .next t) :
    Placed s t := by
  obtain ⟨b, a, hexec, -, hassigned, houtside⟩ := (placeOutcome s).2 hv
  obtain rfl := Host.Outcome.next.inj (hexec.symm.trans h)
  exact ⟨rfl, rfl, rfl, rfl, rfl, rfl, rfl, rfl, rfl, hassigned, houtside⟩

/-- A second PLACE of the same codewords leaves the same bits (R621). -/
theorem exec_place_again {s t : State} (hv : s.selv = true) (h : exec .place s = .next t) :
    ∃ u, exec .place t = .next u ∧
      ∀ j, InMapping s.selIdx j → Memory.read t.bm j = Memory.read u.bm j := by
  obtain ⟨q, -, -, rfl⟩ := exec_place_next hv h
  obtain ⟨r, -, -, hagain⟩ := exec_place_of_selected (s := finished (storePlacement q s)) hv
  obtain ⟨-, -, hsame⟩ := placementDependsOnCodewordsAlone s (finished (storePlacement q s)) _ _
    hv hv rfl (fun _ _ => rfl) h hagain
  exact ⟨_, hagain, fun j hj => (hsame j hj).1⟩

/-- Settles O50: ENC ends as PLACE does, whose outcome is known, from a state whose CW and GEN are
known; placing its codewords again gives the same bits. -/
theorem encOutcome : Obligations.EncOutcome := by
  unfold Obligations.EncOutcome
  intro rect s hlen hshape
  obtain ⟨n, t, hn, hexec, hplace⟩ := exec_enc_of_fits (rect := rect) hlen hshape
  have hfits := hn.fits
  have hplaced := placed_of_exec rfl hplace
  refine ⟨n, t, hn, hexec, hplaced.eq_finished.trans ?_, ?_⟩
  · rw [hplaced.cw, hplaced.gen, hplaced.acc, selected_encodedState]
    simp only [encodedState_fields]
  rw [hplaced.cw, hplaced.gen]
  refine ⟨fun j hj => ?_, fun j hge hj => ?_, fun j => read_encodedState_beyond hfits,
    fun j hj => ?_, fun j hj => ?_, fun k i => read_encodedState_error n s, hplaced.assigned,
    exec_place_again rfl hplace, fun j hj => ?_⟩
  · exact (read_encodedState_data hfits (hj.trans_le hfits)).trans (if_pos hj)
  · exact (read_encodedState_data hfits hj).trans (if_neg hge.not_gt)
  · exact (read_encodedState_gen n s j).trans (if_pos hj)
  · exact (read_encodedState_gen n s j).trans (if_neg hj.not_ge)
  · have houtside := hplaced.outside j hj
    simpa only [encodedState_fields] using houtside

end Sys2Proof.Machine
end

section
/-! ENC leaves what its component commands leave, issued one by one: the acceptance of a command
word commutes with every command, so both take the same steps (R651, R701). -/

namespace Sys2Proof.Machine

/-! ### Acceptance and the runs of the commands -/

/-- The run r with the command word w accepted in the state it leaves. -/
def Run.accepted (w : Word) (r : Run) : Run := ⟨accept w r.state, r.raised⟩

theorem Run.andThen_accepted {f : State → Run} (hf : ∀ w s, f (accept w s) = (f s).accepted w)
    (w : Word) (r : Run) : (r.accepted w).andThen f = (r.andThen f).accepted w := by
  obtain ⟨s, _ | e⟩ := r
  · exact hf w s
  · rfl

/-- Completions after the acceptance of two words differ in the CMD read-back alone. -/
theorem complete_accepted (v w : Word) (r : Run) :
    complete (r.accepted v) = { complete (r.accepted w) with cmd := v } := by
  obtain ⟨s, _ | e⟩ := r <;> rfl

theorem overflowCodewords_accept (w : Word) (s : State) :
    overflowCodewords (accept w s) = accept w (overflowCodewords s) := by
  simp only [overflowCodewords, accept]

theorem encodeText_accept (w : Word) (s : State) :
    encodeText (accept w s) = (encodeText s).accepted w := by
  simp only [encodeText, overflowCodewords_accept, apply_ite (Run.accepted w)]
  rfl

theorem selectByLength_accept (rect : Bool) (len : Nat) (w : Word) (s : State) :
    selectByLength rect len (accept w s) = (selectByLength rect len s).accepted w := by
  simp only [selectByLength]
  split <;> rfl

theorem padSelected_accept (w : Word) (s : State) :
    padSelected (accept w s) = (padSelected s).accepted w := by
  simp only [padSelected, apply_ite (Run.accepted w)]
  rfl

theorem buildGenerator_accept (e : Nat) (w : Word) (s : State) :
    buildGenerator e (accept w s) = (buildGenerator e s).accepted w := by
  simp only [buildGenerator, apply_ite (Run.accepted w)]
  rfl

theorem encodeBlocks_accept (w : Word) (s : State) :
    encodeBlocks (accept w s) = (encodeBlocks s).accepted w := by
  simp only [encodeBlocks, apply_ite (Run.accepted w)]
  rfl

theorem placeSelected_accept (w : Word) (s : State) :
    placeSelected (accept w s) = (placeSelected s).accepted w := by
  simp only [placeSelected, apply_ite (Run.accepted w)]
  refine if_congr Iff.rfl rfl ?_
  have hsel : selected (accept w s) = selected s := rfl
  have hcw : (accept w s).cw = s.cw := rfl
  have hcleared (g : Mapping) : clearedPlacer g (accept w s) = clearedPlacer g s := rfl
  rw [hsel, hcleared, hcw]
  split <;> rfl

theorem runEnc_accept (rect : Bool) (w : Word) (s : State) :
    runEnc rect (accept w s) = (runEnc rect s).accepted w := by
  have hstart : Run.ok (clearMvalid (accept w s)) = (Run.ok (clearMvalid s)).accepted w := rfl
  rw [runEnc, runEnc, hstart,
    Run.andThen_accepted fun w s => encodeText_accept w (clearMvalid s),
    Run.andThen_accepted fun w s => selectByLength_accept rect s.cwCount.toNat w (clearMvalid s),
    Run.andThen_accepted fun w s => padSelected_accept w (clearMvalid s),
    Run.andThen_accepted fun w s => buildGenerator_accept _ w (clearMvalid s),
    Run.andThen_accepted fun w s => encodeBlocks_accept w (clearMvalid s),
    Run.andThen_accepted fun w s => placeSelected_accept w (clearMvalid s)]

/-- No command's rule reads what acceptance writes, so acceptance commutes with every command
(R701). -/
theorem runOf_accept (i : Instr) (w : Word) (s : State) :
    runOf i (accept w s) = (runOf i s).accepted w := by
  cases i with
  | gfadd | gfmul | gfscl => rfl
  | sel rect len => exact selectByLength_accept rect len.toNat w (clearMvalid s)
  | seli idx =>
    rw [runOf, runOf, runSeli, runSeli]
    split <;> rfl
  | aenc => exact encodeText_accept w (clearMvalid s)
  | pad => exact padSelected_accept w (clearMvalid s)
  | rsgen e => exact buildGenerator_accept e.toNat w (clearMvalid s)
  | rsenc => exact encodeBlocks_accept w (clearMvalid s)
  | place => exact placeSelected_accept w (clearMvalid s)
  | enc rect => exact runEnc_accept rect w s

theorem accept_accept (v w : Word) (s : State) : accept v (accept w s) = accept v s := rfl

/-! ### ENC and its component commands -/

theorem issueAndComplete_eq (i : Instr) (s : State) :
    issueAndComplete i s = some (complete (runOf i (accept (encode i) s))) := by
  rw [issueAndComplete, exec_eq_complete]

theorem exec_of_issueAndComplete {i : Instr} {s t : State} (h : issueAndComplete i s = some t) :
    exec i (accept (encode i) s) = .next t := by
  rw [issueAndComplete_eq] at h
  rw [exec_eq_complete, Option.some.inj h]

/-- The host sequence has left what the run leaves, but for the CMD read-back. -/
def SequenceLeaves (o : Option State) (r : Run) : Prop := ∃ w, o = some (complete (r.accepted w))

/-- The next command of the host sequence follows the next step of the run: a raise ends both, and
after a step without error the command runs from the state the step left, accepted (R651). -/
theorem SequenceLeaves.thenCommand {o : Option State} {r : Run} (h : SequenceLeaves o r)
    {command : State → Instr} {next : State → Run}
    (hnext : ∀ w s, runOf (command (complete ((Run.ok s).accepted w))) s = next s) :
    SequenceLeaves (thenCommand o command) (r.andThen next) := by
  obtain ⟨w, rfl⟩ := h
  obtain ⟨s, _ | e⟩ := r
  · have hissue := issueAndComplete_eq (command (complete ((Run.ok s).accepted w)))
      (accept w s)
    rw [accept_accept, runOf_accept, hnext] at hissue
    exact ⟨_, hissue⟩
  · exact ⟨w, rfl⟩

/-- The component commands of R651 leave what ENC's run leaves. -/
theorem componentSequence_leaves (rect : Bool) (s : State) :
    SequenceLeaves (componentSequence rect s) (runEnc rect s) := by
  have haenc : SequenceLeaves (issueAndComplete .aenc s)
      ((Run.ok (clearMvalid s)).andThen runAenc) :=
    ⟨encode .aenc, (issueAndComplete_eq .aenc s).trans
      (congrArg (some ∘ complete) (encodeText_accept _ (clearMvalid s)))⟩
  exact ((((haenc.thenCommand fun _ _ => rfl).thenCommand fun _ _ => rfl).thenCommand
    fun _ _ => rfl).thenCommand fun _ _ => rfl).thenCommand fun _ _ => rfl

/-- Settles O52: ENC's run and the component commands take the same steps, and acceptance commutes
with each. -/
theorem encEqualsItsComponents : Obligations.EncEqualsItsComponents := by
  unfold Obligations.EncEqualsItsComponents
  intro rect s
  obtain ⟨w, hw⟩ := componentSequence_leaves rect s
  have henc : issueAndComplete (.enc rect) s =
      some (complete ((runEnc rect s).accepted (encode (.enc rect)))) := by
    rw [issueAndComplete_eq, runOf_accept, runOf]
  have heq := complete_accepted (encode (.enc rect)) w (runEnc rect s)
  have hcmd := congrArg State.cmd heq
  exact ⟨_, _, henc, hw, hcmd, by rw [hcmd]; exact heq⟩

end Sys2Proof.Machine
end

section
/-! The error codes of ENC, and that the text decides its outcome (R652, R655). -/

namespace Sys2Proof.Machine

/-! ### Error codes -/

/-- Settles O53: by the outcomes of ENC and of PLACE, from a state whose acceptance has cleared
ERRCODE. -/
theorem encErrorCodes : Obligations.EncErrorCodes := by
  unfold Obligations.EncErrorCodes
  refine ⟨fun rect s t ht => ?_, fun s t ht => ?_⟩ <;>
    obtain rfl := Option.some.inj ((issueAndComplete_eq _ s).symm.trans ht) <;> rw [runOf]
  · rcases runEnc_cases rect (accept (encode (.enc rect)) s) with
      ⟨-, hr⟩ | ⟨-, -, hr⟩ | ⟨-, -, -, hr⟩ | ⟨-, -, n, p, -, -, -, hr⟩ <;> rw [hr]
    · exact .inr ⟨rfl, .inr rfl, rfl⟩
    · exact .inr ⟨rfl, .inl rfl, rfl⟩
    · exact .inr ⟨rfl, .inl rfl, rfl⟩
    · exact .inl ⟨rfl, rfl, rfl, rfl⟩
  · rcases placeSelected_cases (clearMvalid (accept (encode .place) s)) with
      ⟨-, hr⟩ | ⟨-, q, -, -, hr⟩ <;> rw [runPlace, hr]
    · exact .inr rfl
    · exact .inl rfl

/-! ### The text decides the outcome -/

theorem textCodewords_congr {s s' : State} (hlen : s.txtLen = s'.txtLen)
    (htxt : ∀ j, j < s.txtLen.toNat → Memory.read s.txt j = Memory.read s'.txt j) :
    textCodewords s = textCodewords s' := by
  rw [textCodewords, textCodewords, textOf, textOf, ← hlen]
  exact congrArg asciiCodewords (List.map_congr_left fun j hj => htxt j (List.mem_range.1 hj))

/-- An accumulator of e registers reads GEN[0 .. e-1] only (R560). -/
theorem accCells_congr {gen gen' : Memory 8} {n : Nat}
    (h : ∀ j, j < n → Memory.read gen j = Memory.read gen' j) (fb : Byte) (acc : List Byte) :
    accCells gen fb n acc = accCells gen' fb n acc := by
  induction n generalizing acc with
  | zero => rfl
  | succ n ih =>
    rw [accCells, accCells, accCell, accCell, h n (Nat.lt_succ_self n),
      ih fun j hj => h j (Nat.lt_succ_of_lt hj)]

theorem blockAcc_congr_gen {gen gen' : Memory 8} {e : Nat}
    (h : ∀ j, j < e → Memory.read gen j = Memory.read gen' j) (cw : Memory 8) (d n k : Nat) :
    blockAcc gen cw d n e k = blockAcc gen' cw d n e k := by
  have hstep : accStep gen e = accStep gen' e :=
    funext fun acc => funext fun x => accCells_congr h _ acc
  rw [blockAcc, blockAcc, hstep]

/-- Every position of the error codewords is one of a block's (R562). -/
theorem exists_errorPosition {n : Fin Config.nEntries} {j : Nat} (hge : (capEntry n).dataCw ≤ j)
    (hlt : j < (capEntry n).total) : ∃ k i, k < (capEntry n).blocks ∧ i < (capEntry n).eBlk ∧
      j = (capEntry n).dataCw + k + i * (capEntry n).blocks := by
  obtain ⟨-, -, hblocks, -, -, herr, -⟩ := capEntry_bounds n
  rw [CapEntry.total, ← herr] at hlt
  refine ⟨(j - (capEntry n).dataCw) % (capEntry n).blocks,
    (j - (capEntry n).dataCw) / (capEntry n).blocks, Nat.mod_lt _ hblocks,
    (Nat.div_lt_iff_lt_mul hblocks).2 (by omega), ?_⟩
  have := Nat.mod_add_div' (j - (capEntry n).dataCw) (capEntry n).blocks
  omega

/-- Two texts of the same codewords leave the same T codewords: the data codewords are functions of
them, and the error codewords of the data codewords and the generator (R655). -/
theorem read_encodedState_congr {n : Fin Config.nEntries} {s s' : State}
    (htext : textCodewords s = textCodewords s')
    (hfits : (textCodewords s).length ≤ (capEntry n).dataCw) {j : Nat}
    (hj : j < (capEntry n).total) :
    Memory.read (encodedState n s).cw j = Memory.read (encodedState n s').cw j := by
  have hfits' := htext ▸ hfits
  have hdata : ∀ p, p < (capEntry n).dataCw →
      Memory.read (encodedState n s).cw p = Memory.read (encodedState n s').cw p := fun p hp => by
    rw [read_encodedState_data hfits hp, read_encodedState_data hfits' hp, htext]
  have hgen : ∀ p, p < (capEntry n).eBlk →
      Memory.read (encodedState n s).gen p = Memory.read (encodedState n s').gen p := fun p hp => by
    rw [read_encodedState_gen, read_encodedState_gen, if_pos hp.le, if_pos hp.le]
  rcases Nat.lt_or_ge j (capEntry n).dataCw with hlt | hge
  · exact hdata j hlt
  · obtain ⟨k, i, hk, hi, rfl⟩ := exists_errorPosition hge hj
    rw [read_encodedState_error n s hk hi, read_encodedState_error n s' hk hi,
      blockAcc_congr_gen hgen, blockAcc_congr (by omega) hdata]

/-- What two successful encodings agree on (R655). -/
structure SameSymbol (t t' : State) : Prop where
  selIdx : t.selIdx = t'.selIdx
  cwCount : t.cwCount = t'.cwCount
  genE : t.genE = t'.genE
  placeUsed : t.placeUsed = t'.placeUsed
  cw : ∀ j, j < (selected t).total → Memory.read t.cw j = Memory.read t'.cw j
  gen : ∀ j, j ≤ (selected t).eBlk → Memory.read t.gen j = Memory.read t'.gen j
  cells : ∀ j, InMapping t.selIdx j →
    Memory.read t.bm j = Memory.read t'.bm j ∧ Memory.read t.asg j = Memory.read t'.asg j

theorem sameSymbol_of_place {n : Fin Config.nEntries} {s s' t t' : State}
    (htext : textCodewords s = textCodewords s')
    (hfits : (textCodewords s).length ≤ (capEntry n).dataCw)
    (h : exec .place (encodedState n s) = .next t)
    (h' : exec .place (encodedState n s') = .next t') : SameSymbol t t' := by
  obtain ⟨hused, -, hcells⟩ := placementDependsOnCodewordsAlone (encodedState n s)
    (encodedState n s') _ _ rfl rfl rfl (fun j hj => read_encodedState_congr htext hfits hj) h h'
  have hp := placed_of_exec rfl h
  have hp' := placed_of_exec rfl h'
  have hidx : t.selIdx = n := hp.selIdx.trans (by simp)
  have hentry : selected t = capEntry n := congrArg capEntry hidx
  refine ⟨?_, ?_, ?_, hused, fun j hj => ?_, fun j hj => ?_, ?_⟩
  · rw [hidx, hp'.selIdx]; simp
  · rw [hp.cwCount, hp'.cwCount]; simp
  · rw [hp.genE, hp'.genE]; simp
  · rw [hp.cw, hp'.cw]
    exact read_encodedState_congr htext hfits (hentry ▸ hj)
  · rw [hentry] at hj
    rw [hp.gen, hp'.gen, read_encodedState_gen, read_encodedState_gen, if_pos hj, if_pos hj]
  · rw [hidx]
    exact hcells

/-- ENC from two states with one text: both fail with one error, or both end with a PLACE of the
same entry (R655). -/
theorem exec_enc_same_outcome {s s' : State} (rect : Bool) (hlen : s.txtLen = s'.txtLen)
    (htext : textCodewords s = textCodewords s') :
    (∃ code u u', exec (.enc rect) s = .next (failed code u) ∧
      exec (.enc rect) s' = .next (failed code u')) ∨
    (∃ n t t', (textCodewords s).length ≤ (capEntry n).dataCw ∧
      exec (.enc rect) s = .next t ∧ exec .place (encodedState n s) = .next t ∧
      exec (.enc rect) s' = .next t' ∧ exec .place (encodedState n s') = .next t') := by
  rcases Nat.lt_or_ge Config.txtDepth s.txtLen.toNat with hlong | hshort
  · exact .inl ⟨_, _, _, exec_enc_of_txtLen hlong rect, exec_enc_of_txtLen (hlen ▸ hlong) rect⟩
  rcases Nat.lt_or_ge Config.dataMax (textCodewords s).length with hmany | hfits
  · exact .inl ⟨_, _, _, exec_enc_of_overflow hshort hmany rect,
      exec_enc_of_overflow (hlen ▸ hshort) (htext ▸ hmany) rect⟩
  rcases Nat.lt_or_ge (shapeMax rect) (textCodewords s).length with hmany | hshape
  · exact .inl ⟨_, _, _, exec_enc_of_noEntry hshort hfits hmany,
      exec_enc_of_noEntry (hlen ▸ hshort) (htext ▸ hfits) (htext ▸ hmany)⟩
  · obtain ⟨n, t, hn, hexec, hplace⟩ := exec_enc_of_fits hshort hshape
    obtain ⟨n', t', hn', hexec', hplace'⟩ :=
      exec_enc_of_fits (rect := rect) (s := s') (hlen ▸ hshort) (htext ▸ hshape)
    obtain rfl : n = n' := hn.unique (htext ▸ hn')
    exact .inr ⟨n, t, t', hn.fits, hexec, hplace, hexec', hplace'⟩

/-- Settles O54: the text decides which outcome ENC has; if it succeeds, both states select one
entry and place the same codewords. -/
theorem encDependsOnTheTextAlone : Obligations.EncDependsOnTheTextAlone := by
  unfold Obligations.EncDependsOnTheTextAlone
  intro rect s s' t t' hlen htxt ht ht'
  have htext : textCodewords (accept (encode (.enc rect)) s) =
      textCodewords (accept (encode (.enc rect)) s') := textCodewords_congr hlen htxt
  have hexec := exec_of_issueAndComplete ht
  have hexec' := exec_of_issueAndComplete ht'
  rcases exec_enc_same_outcome (s := accept (encode (.enc rect)) s)
      (s' := accept (encode (.enc rect)) s') rect hlen htext with
    ⟨code, u, u', hu, hu'⟩ | ⟨n, u, u', hfits, hu, hplace, hu', hplace'⟩ <;>
    obtain rfl := Host.Outcome.next.inj (hu.symm.trans hexec) <;>
    obtain rfl := Host.Outcome.next.inj (hu'.symm.trans hexec')
  · exact ⟨rfl, rfl, fun h => absurd h.symm Bool.false_ne_true⟩
  · have hp := placed_of_exec rfl hplace
    have hp' := placed_of_exec rfl hplace'
    have hsame := sameSymbol_of_place htext hfits hplace hplace'
    refine ⟨?_, ?_, fun _ => ⟨hsame.selIdx, hsame.cwCount, hsame.genE, hsame.placeUsed, hsame.cw,
      hsame.gen, hsame.cells⟩⟩
    · rw [hp.err, hp'.err]; simp
    · rw [hp.errCode, hp'.errCode]; simp

end Sys2Proof.Machine
end

section
/-! What every completion leaves, whatever its run, and which commands and host accesses write MVALID
and SELV (R702, R704, R711). -/

namespace Sys2Proof.Machine

/-! ### Completions -/

/-- A completion writes BUSY, DONE, ERR and ERRCODE only: the host's fields outlive it (R702). -/
@[simp] theorem complete_frame (r : Run) :
    (complete r).cmd = r.state.cmd ∧ (complete r).txtLen = r.state.txtLen ∧
    (complete r).txt = r.state.txt ∧ (complete r).cmdLost = r.state.cmdLost ∧
    (complete r).wrLost = r.state.wrLost ∧ (complete r).busErr = r.state.busErr ∧
    (complete r).inputs = r.state.inputs ∧ (complete r).readData = r.state.readData := by
  rcases complete_cases r with ⟨-, h⟩ | ⟨e, -, h⟩ <;> rw [h] <;>
    exact ⟨rfl, rfl, rfl, rfl, rfl, rfl, rfl, rfl⟩

/-- Every completion sets DONE (R702). -/
@[simp] theorem complete_done (r : Run) : (complete r).done = true := by
  rcases complete_cases r with ⟨-, h⟩ | ⟨e, -, h⟩ <;> rw [h] <;> rfl

/-- A completion leaves ERR and ERRCODE, or records one of the errors 1 to 5 (R702, R711). -/
theorem complete_error_cases (r : Run) :
    ((complete r).err = r.state.err ∧ (complete r).errCode = r.state.errCode) ∨
    ((complete r).err = true ∧ 1 ≤ (complete r).errCode.toNat ∧
      (complete r).errCode.toNat ≤ 5) := by
  rcases complete_cases r with ⟨-, h⟩ | ⟨e, -, h⟩ <;> rw [h]
  · exact .inl ⟨rfl, rfl⟩
  · exact .inr ⟨rfl, errorCode_bounds e⟩

/-- Settles O7: by the frame of the command's run, then that of its completion. -/
theorem everyCommandCompletes : Obligations.EveryCommandCompletes := by
  unfold Obligations.EveryCommandCompletes
  intro i s
  have hp := (runOf_outcome i s).sameProtocol
  obtain ⟨hcmd, htxtLen, htxt, hcmdLost, hwrLost, hbusErr, hinputs, hread⟩ :=
    complete_frame (runOf i s)
  have herror := complete_error_cases (runOf i s)
  rw [hp.err, hp.errCode] at herror
  exact ⟨_, exec_eq_complete i s, complete_pending _, complete_done _, herror,
    (complete_ie _).trans hp.ie, hcmd.trans hp.cmd, htxtLen.trans hp.txtLen, htxt.trans hp.txt,
    hcmdLost.trans hp.cmdLost, hwrLost.trans hp.wrLost, hbusErr.trans hp.busErr,
    hinputs.trans hp.inputs, hread.trans hp.readData⟩

/-! ### MVALID and SELV -/

/-- Every command but the GF commands begins with MVALID <- 0, so it cannot tell what MVALID was
(R704). -/
theorem runOf_clearMvalid {i : Instr} (h : isGf i = false) (s : State) :
    runOf i (clearMvalid s) = runOf i s := by
  cases i with
  | gfadd | gfmul | gfscl => cases h
  | sel | seli | aenc | pad | rsgen | rsenc | place | enc => rfl

theorem CommandOutcome.mvalid_of_gf {s : State} {i : Instr} {r : Run}
    (ho : CommandOutcome s i r) (h : isGf i = true) : (complete r).mvalid = s.mvalid := by
  cases ho with
  | gf v => rfl
  | raised e hno => exact absurd (hno.symm.trans h) Bool.false_ne_true
  | _ => cases h

/-- Only a completed placement sets MVALID (R704). -/
theorem CommandOutcome.mvalid_cleared {s : State} {i : Instr} {r : Run}
    (ho : CommandOutcome s i r) (hgf : isGf i = false) (hplace : writesPlacement i = false) :
    (complete r).mvalid = false := by
  cases ho with
  | gf v hyes => exact absurd (hgf.symm.trans hyes) Bool.false_ne_true
  | placed | encoded => cases hplace
  | _ => simp

/-- A host access leaves SELV, or is a write of SRST, which clears it (R704, R802). -/
theorem hostAccess_selv_cases (a : HostAccess) (s : State) :
    (hostAccess a s).selv = s.selv ∨
    ((hostAccess a s).selv = false ∧
      ∃ v : Word, a = .write .word 0x00004#20 v ∧ v.getLsbD 1 = true) := by
  by_cases h : ∃ v : Word, a = .write .word 0x00004#20 v ∧ v.getLsbD 1 = true
  · obtain ⟨v, rfl, hv⟩ := h
    refine .inr ⟨?_, v, rfl, hv⟩
    rw [hostAccess_write_ctrl, writeCtrl, if_pos hv]
    simp
  · exact .inl (hostAccess_sameResults a s fun v hv =>
      Bool.eq_false_iff.2 fun hsrst => h ⟨v, hv, hsrst⟩).selv

/-- Settles O9: by what the run of a command leaves in MVALID, by the frames of the commands, of an
illegal word and of the host. -/
theorem mvalidAndSelvRule : Obligations.MvalidAndSelvRule := by
  unfold Obligations.MvalidAndSelvRule
  refine ⟨fun i s hgf => ?_, fun i s t h hgf hplace => ?_, fun i s t h hgf => ?_,
    fun i s t h hsel => ?_, fun w why s t hp hd h => ?_, hostAccess_selv_cases⟩
  · rw [exec_eq_complete, exec_eq_complete, ← runOf_clearMvalid hgf]
    rfl
  · rw [exec_next h]
    exact (runOf_outcome i s).mvalid_cleared hgf hplace
  · rw [exec_next h]
    exact (runOf_outcome i s).mvalid_of_gf hgf
  · obtain ⟨-, -, hselection, -⟩ := commandsWriteOnlyTheirOwn i s t h
    exact (hselection hsel).2
  · obtain rfl := Host.Outcome.next.inj ((sequencerTurn_illegal hp hd).symm.trans h)
    exact ⟨rfl, rfl⟩

end Sys2Proof.Machine
end

section
/-! The acceptance of a command, its turn, and the interrupt line (R701 to R703, R730). -/

namespace Sys2Proof.Machine

/-! ### Acceptance -/

/-- While BUSY = 0 a CMD write is accepted (R701). -/
theorem hostAccess_write_cmd_idle (v : Word) {s : State} (hp : s.pending = none) :
    hostAccess (.write .word 0x0000C#20 v) s = accept v s := by
  have hbusy : ¬ s.busy = true := by simp [State.busy, hp]
  exact (hostAccess_write_addressOf (l := .cmd) rfl v s).trans (if_neg hbusy)

/-- Settles O10: an idle core accepts the word; a busy one drops it, as every write to CMD while
BUSY = 1 (O19). -/
theorem commandAcceptance : Obligations.CommandAcceptance := by
  unfold Obligations.CommandAcceptance
  intro s v
  refine ⟨hostAccess_write_cmd_idle v, fun w hp => ?_⟩
  obtain ⟨hdropped, -⟩ := writesWhileBusy s w v hp
  exact hdropped

/-- The step after withFetchWord is the turn that runs its word (R702; log entry 3). -/
theorem step_withFetchWord (s : State) (n : Nat) :
    step (s.withFetchWord 32 n) = sequencerTurn (accept (tableWord 32 n) s) := by
  have hin : (s.withFetchWord 32 n).inputs = .sequencerTurn :: s.inputs := rfl
  exact step_of_inputs_cons hin

/-- Settles O5: a step with the sequencer's turn first, or with nothing listed, is that turn, and the
turn is exec of the decoded word. -/
theorem stepRunsDecodedCommand : Obligations.StepRunsDecodedCommand := by
  unfold Obligations.StepRunsDecodedCommand
  refine ⟨fun s w i hp hd => ⟨fun hin => ?_, fun rest hin => ?_⟩, fun s n i hd => ?_⟩
  · exact (step_of_inputs_nil hin).trans (sequencerTurn_command hp hd)
  · exact (step_of_inputs_cons hin).trans
      (sequencerTurn_command (s := { s with inputs := rest }) hp hd)
  · exact (step_withFetchWord s n).trans (sequencerTurn_command rfl hd)

/-! ### The interrupt line -/

/-- Every completion asserts IRQ while IE = 1 (R730). -/
theorem irq_complete (r : Run) : irq (complete r) = r.state.ie := by
  rw [irq, complete_done, complete_ie, Bool.and_true]

theorem irq_of_ie_false {s : State} (h : s.ie = false) : irq s = false := by
  rw [irq, h, Bool.false_and]

theorem irq_of_done_false {s : State} (h : s.done = false) : irq s = false := by
  rw [irq, h, Bool.and_false]

/-- With a command pending a turn is a completion, which leaves IRQ = IE (R702, R730). -/
theorem irq_of_sequencerTurn {s t : State} {w : Word} (hp : s.pending = some w)
    (h : sequencerTurn s = .next t) : irq t = s.ie := by
  rcases sequencerTurn_cases h with ⟨hnone, -⟩ | ⟨-, i, -, -, rfl⟩ | ⟨-, -, -, -, rfl⟩
  · cases hnone.symm.trans hp
  · rw [irq_complete]
    exact (runOf_outcome i s).sameProtocol.ie
  · exact irq_complete (Run.raise .illegalCommand s)

/-- A reset clears IE and DONE, so it deasserts IRQ (R730, R802). -/
theorem irq_write_srst {v : Word} (hv : v.getLsbD 1 = true) (s : State) :
    irq (hostAccess (.write .word 0x00004#20 v) s) = false := by
  rw [hostAccess_write_ctrl, writeCtrl, if_pos hv]
  exact irq_of_ie_false (by simp)

/-- A CTRL write with IE = 0 deasserts IRQ, whether or not it is a reset (R104, R730). -/
theorem irq_write_ie_zero {v : Word} (hv : v.getLsbD 0 = false) (s : State) :
    irq (hostAccess (.write .word 0x00004#20 v) s) = false := by
  by_cases hsrst : v.getLsbD 1 = true
  · exact irq_write_srst hsrst s
  · rw [hostAccess_write_ctrl, writeCtrl, if_neg hsrst]
    exact irq_of_ie_false hv

/-- Settles O24: a completion sets DONE; each of the other events clears DONE or IE. -/
theorem interruptLevel : Obligations.InterruptLevel := by
  unfold Obligations.InterruptLevel
  refine ⟨fun s => rfl, fun s t w => irq_of_sequencerTurn, fun s v hv => ?_, fun s v hp => ?_,
    fun s v hv => irq_write_ie_zero hv s, fun s v hv => irq_write_srst hv s, rfl⟩
  · rw [hostAccess_write_status]
    exact irq_of_done_false (by simp [hv])
  · rw [hostAccess_write_cmd_idle v hp]
    exact irq_of_done_false (by simp)

end Sys2Proof.Machine
end

section
/-! Runs of the core: what every step keeps, every run keeps (R721, R801). -/

namespace Sys2Proof.Machine

/-- A run of n + 1 steps is a step and a run of n steps from where it leads. -/
theorem run_succ_of_step {M : Host.Core} {s u : M.State} (h : M.step s = .next u) (n : Nat) :
    M.run (n + 1) s = M.run n u := by
  rw [Host.Core.run, h]

/-- An invariant that every step keeps holds at the end of every run from a state that meets it. -/
theorem run_induct {P : State → Prop} (hstep : ∀ s t, P s → step s = .next t → P t) {n : Nat}
    {s t : State} (hs : P s) (h : core.run n s = .next t) : P t := by
  induction n generalizing s with
  | zero => exact Host.Outcome.next.inj h ▸ hs
  | succ n ih =>
    obtain ⟨u, hu⟩ := step_safe s
    exact ih (hstep s u hs hu) ((run_succ_of_step (M := core) hu n).symm.trans h)

/-- Settles O60: the registers after reset meet each invariant whatever the memories hold, and every
step keeps each (O56, O57, O58). -/
theorem runsFromResetStayConsistent : Obligations.RunsFromResetStayConsistent := by
  unfold Obligations.RunsFromResetStayConsistent
  intro txt cw gen acc bm asg inputs n t h
  obtain ⟨hstatus, hreadBack, hselection⟩ := run_induct stepKeepsStatusConsistent
    ⟨statusConsistent_of_cleared rfl rfl rfl, pendingIsReadBack_of_idle rfl,
      fun _ => rfl, fun hm => absurd hm Bool.false_ne_true⟩ h
  exact ⟨hstatus, hreadBack, hselection,
    run_induct stepKeepsGeneratorHeld (generatorHeld_of_genE_zero rfl) h,
    run_induct stepKeepsPlacementHeld (placementHeld_of_mvalid_false rfl) h⟩

end Sys2Proof.Machine
end

section
/-! Reset: the registers and flags as the host reads them after it, the memories a soft reset keeps or
draws, and the invariants the state after it meets (R800, R801, R802). -/

namespace Sys2Proof.Machine

/-! ### The soft reset, idle and busy -/

/-- A CTRL write with SRST = 1 is a soft reset, whatever its bit 0 (R104). -/
theorem hostAccess_write_srst {v : Word} (hv : v.getLsbD 1 = true) (s : State) :
    hostAccess (.write .word 0x00004#20 v) s = softReset s := by
  rw [hostAccess_write_ctrl, writeCtrl, if_pos hv]

/-- On an idle core a soft reset resets the registers alone (R802). -/
theorem softReset_idle {s : State} (h : s.pending = none) : softReset s = resetRegisters s := by
  rw [softReset, State.busy, h, Option.isSome_none, if_neg Bool.false_ne_true]

/-- On a busy core a soft reset draws the memories too (R802). -/
theorem softReset_busy {s : State} {w : Word} (h : s.pending = some w) :
    softReset s = resetRegisters (drawMemories s) := by
  rw [softReset, State.busy, h, Option.isSome_some, if_pos rfl]

/-- TXT outlives a soft reset, on a busy core too (R802). -/
@[simp] theorem softReset_txt (s : State) : (softReset s).txt = s.txt := by
  cases h : s.pending with
  | none => simp [softReset_idle h]
  | some w => simp [softReset_busy h]

/-- An element of a memory of draws is the draw of its number. -/
theorem Memory.read_tabulate_of_lt {w depth j : Nat} (f : Nat → BitVec w) (h : j < depth) :
    Memory.read (Memory.tabulate depth f) j = f j := by
  rw [Memory.read_tabulate, if_pos h]

/-- Settles O13: the registers after any soft reset, and the memories by whether a command is
pending. -/
theorem softResetEffect : Obligations.SoftResetEffect := by
  unfold Obligations.SoftResetEffect
  intro s v hv
  rw [hostAccess_write_srst hv]
  refine ⟨by simp, fun hidle => ?_, fun w hbusy => ?_⟩
  · simp [softReset_idle hidle]
  · simp only [softReset_busy hbusy, resetRegisters_fields, drawMemories_fields, Config.mapDepth]
    exact ⟨fun j => Memory.read_tabulate_of_lt _, fun j => Memory.read_tabulate_of_lt _,
      fun j => Memory.read_tabulate_of_lt _, fun j => Memory.read_tabulate_of_lt _, by omega⟩

/-! ### What the host reads after a reset -/

/-- A power-on reset and a soft reset both leave a state whose registers are reset (R801, R802). -/
theorem eq_resetRegisters_of_reset {s : State}
    (h : s = State.reset ∨ ∃ u : State, ∃ v : Word, v.getLsbD 1 = true ∧
      s = hostAccess (.write .word 0x00004#20 v) u) : ∃ u, s = resetRegisters u := by
  rcases h with rfl | ⟨u, v, hv, rfl⟩
  · exact ⟨State.reset, rfl⟩
  · rw [hostAccess_write_srst hv]
    exact softReset_eq_resetRegisters u

/-- While BUSY = 0 the addresses of registers read the registers' exact values (R216). -/
theorem readAt_registers_idle {s : State} (h : s.pending = none) :
    (registerBlock.map addressOf).map (fun a => readAt a s) =
      registerBlock.map (locationValue s) := by
  have hmap : ∀ l ∈ registerBlock, inMap l = true := by decide
  rw [List.map_map]
  exact List.map_congr_left fun l hl => readAt_idle (hmap l hl) h

/-- The reset values of the registers, in the order of their offsets (R800). No register shows a
memory, so they are those of the power-on reset. -/
theorem registers_resetRegisters (s : State) :
    registerBlock.map (locationValue (resetRegisters s)) =
      Config.idValue :: List.replicate 13 0#32 :=
  calc registerBlock.map (locationValue (resetRegisters s))
    _ = registerBlock.map (locationValue State.reset) := rfl
    _ = Config.idValue :: List.replicate 13 0#32 := by decide

/-- Settles O14: the reset core is idle, so the host reads the reset registers exactly; the tables are
no draw locations, so they read exactly in every state. -/
theorem resetValues : Obligations.ResetValues := by
  unfold Obligations.ResetValues
  refine ⟨fun s hs => ?_, fun s x hx => ⟨?_, ?_⟩⟩
  · obtain ⟨u, rfl⟩ := eq_resetRegisters_of_reset hs
    exact ⟨(readAt_registers_idle rfl).trans (registers_resetRegisters u), rfl,
      irq_of_ie_false rfl, rfl⟩
  · exact readAt_exact (l := .log x) (decide_eq_true hx) rfl s
  · exact readAt_exact (l := .alog x) (decide_eq_true hx) rfl s

/-! ### The invariants after a reset -/

/-- Memories with nothing listed are in canonical form. -/
theorem memoriesCanonical_reset : MemoriesCanonical State.reset :=
  ⟨rfl, rfl, rfl, rfl, rfl, rfl⟩

/-- After a reset no entry is selected and no placement is valid (R800). -/
theorem selectionConsistent_reset : SelectionConsistent State.reset :=
  ⟨fun _ => rfl, fun h => absurd h Bool.false_ne_true⟩

/-- Settles O59: nothing is recorded, pending, selected, generated or placed, which is what each
invariant asks. -/
theorem resetMeetsTheInvariants : Obligations.ResetMeetsTheInvariants := by
  unfold Obligations.ResetMeetsTheInvariants
  exact ⟨memoriesCanonical_reset, statusConsistent_of_cleared rfl rfl rfl,
    pendingIsReadBack_of_idle rfl, selectionConsistent_reset, generatorHeld_of_genE_zero rfl,
    placementHeld_of_mvalid_false rfl⟩

end Sys2Proof.Machine
end
